-- ==== Sys2Proof/Word.lean ====
section
/-! DEFINITION. The word types of the core (00_scope R5, R7, R9; 10_state R16, R28). -/

namespace Sys2Proof

/-- A byte (R7). -/
abbrev Byte := BitVec 8

/-- A byte string, index 0 first (R7). -/
abbrev Bytes := List Byte

/-- A 16-byte block, a 128-bit value whose most significant byte is byte 0 (R10). -/
abbrev Block := BitVec 128

/-- A 32-bit word of the key schedule (R61). -/
abbrev Word32 := BitVec 32

/-- The 8-byte system title (R19). -/
abbrev Title := BitVec 64

/-- The 12-byte nonce (R5). -/
abbrev Nonce := BitVec 96

/-- The 12-byte tag (R5, R87). -/
abbrev Tag := BitVec 96

/-- The eleven round keys `RK[0..10]` (R26, R61). -/
abbrev RoundKeys := Vector Block 11

/-- The Shoup tables `M[0..31][0..15]` (R26, R73). -/
abbrev ShoupTables := Vector (Vector Block 16) 32

end Sys2Proof
end

