-- ==== Sys2Proof/Machine/Bytes.lean ====
section
/-! DEFINITION. Byte strings, integers and blocks (00_scope R7 to R10; 20_memory R37 to R39). -/

namespace Sys2Proof.Machine

/-- `be_n(v)`: the n-byte big-endian string of `v` (R8); of a `v` too large its low `n` bytes (log 10). -/
def beBytes : Nat → Nat → Bytes
  | 0, _ => []
  | n + 1, v => BitVec.ofNat 8 (v >>> (8 * n)) :: beBytes n v

/-- `int(b)`: the unsigned integer whose big-endian encoding is `b` (R8). -/
def beNat (b : Bytes) : Nat := b.foldl (fun a x => a * 256 + x.toNat) 0

/-- `0^n`, n zero bytes (R7). -/
def zeros (n : Nat) : Bytes := List.replicate n 0x00

/-- `a ⊕ b`, byte by byte, as long as the shorter of the two (R7; R83 truncates the keystream). -/
def xorBytes (a b : Bytes) : Bytes := List.zipWith (· ^^^ ·) a b

/-- `b` padded with zeros to whole 16-byte blocks (R74). -/
def padded (b : Bytes) : Bytes := b ++ zeros ((16 - b.length % 16) % 16)

/-- The bytes of a block, byte 0 first (R10, R38). -/
def blockBytes (b : Block) : Bytes := beBytes 16 b.toNat

/-- The block of at most 16 bytes, zero-padded on the right (`blk ‖ 0^(16 - |blk|)`, R74, R83). -/
def blockOf (b : Bytes) : Block := BitVec.ofNat 128 (beNat (b ++ zeros (16 - b.length)))

/-- Byte `i` of a block (R10). -/
def byteAt (b : Block) (i : Nat) : Byte := b.extractLsb' (8 * (15 - i)) 8

/-- The block whose byte `i` is `f i`, for `i` in 0..15 (R10). -/
def blockOfFn (f : Nat → Byte) : Block := BitVec.ofNat 128 (beNat ((List.range 16).map f))

/-- The first `n` pieces of 16 bytes of `b`, in order; the last may be shorter (R74, R84). -/
def pieces : Nat → Bytes → List Bytes
  | 0, _ => []
  | n + 1, b => b.take 16 :: pieces n (b.drop 16)

end Sys2Proof.Machine
end

