-- ==== Sys2Proof/Syntax.lean ====
section
/-! DEFINITION. The commands of the core: one constructor for each row of `spec/opcode_table.json`
(30_encoding R51, R53). Each holds the header's ARG byte and the payload; LEN is the payload's length. -/

namespace Sys2Proof

/-- A command (R51). The ARG byte is kept for every command because an ARG that a rule forbids is an
outcome of the command (`IllegalCommand`, R53, R54), not an undecodable word. -/
inductive Instr where
  /-- 0x00, R106. -/
  | nop (arg : Byte) (payload : Bytes)
  /-- 0x01, R68. -/
  | ldbk (arg : Byte) (payload : Bytes)
  /-- 0x02, R107. -/
  | ldak (arg : Byte) (payload : Bytes)
  /-- 0x03, R108. -/
  | ldst (arg : Byte) (payload : Bytes)
  /-- 0x04, R109. -/
  | ldfc (arg : Byte) (payload : Bytes)
  /-- 0x05, R110. -/
  | ldsp (arg : Byte) (payload : Bytes)
  /-- 0x06, R111. -/
  | ldctrl (arg : Byte) (payload : Bytes)
  /-- 0x07, R112. -/
  | rdreg (arg : Byte) (payload : Bytes)
  /-- 0x0F, R113. -/
  | reset (arg : Byte) (payload : Bytes)
  /-- 0x10, R69. -/
  | aesenc (arg : Byte) (payload : Bytes)
  /-- 0x11, R77. -/
  | ghash (arg : Byte) (payload : Bytes)
  /-- 0x20, `GCMINIT.E`, R81. -/
  | gcminitE (arg : Byte) (payload : Bytes)
  /-- 0x21, `GCMINIT.D`, R82. -/
  | gcminitD (arg : Byte) (payload : Bytes)
  /-- 0x22, R84. -/
  | gcmwrite (arg : Byte) (payload : Bytes)
  /-- 0x23, R88. -/
  | gcmfinal (arg : Byte) (payload : Bytes)
  /-- 0x24, R90. -/
  | gcmabort (arg : Byte) (payload : Bytes)
  /-- 0x40, `CIPHER.PACKET`, R93. -/
  | cipherPacket (arg : Byte) (payload : Bytes)
  /-- 0x41, `CIPHER.TAG`, R94. -/
  | cipherTag (arg : Byte) (payload : Bytes)
  /-- 0x42, `CIPHER.DATA`, R95. -/
  | cipherData (arg : Byte) (payload : Bytes)
  /-- 0x43, `CIPHER.DATATAG`, R96. -/
  | cipherDatatag (arg : Byte) (payload : Bytes)
  /-- 0x44, R97. -/
  | secenc (arg : Byte) (payload : Bytes)
  /-- 0x48, R98. -/
  | decipher (arg : Byte) (payload : Bytes)
deriving DecidableEq, Repr

/-- The header's ARG byte (R51). -/
def Instr.arg : Instr → Byte
  | .nop a _ | .ldbk a _ | .ldak a _ | .ldst a _ | .ldfc a _ | .ldsp a _ | .ldctrl a _ | .rdreg a _
  | .reset a _ | .aesenc a _ | .ghash a _ | .gcminitE a _ | .gcminitD a _ | .gcmwrite a _
  | .gcmfinal a _ | .gcmabort a _ | .cipherPacket a _ | .cipherTag a _ | .cipherData a _
  | .cipherDatatag a _ | .secenc a _ | .decipher a _ => a

/-- The payload `P` (R51). -/
def Instr.payload : Instr → Bytes
  | .nop _ p | .ldbk _ p | .ldak _ p | .ldst _ p | .ldfc _ p | .ldsp _ p | .ldctrl _ p | .rdreg _ p
  | .reset _ p | .aesenc _ p | .ghash _ p | .gcminitE _ p | .gcminitD _ p | .gcmwrite _ p
  | .gcmfinal _ p | .gcmabort _ p | .cipherPacket _ p | .cipherTag _ p | .cipherData _ p
  | .cipherDatatag _ p | .secenc _ p | .decipher _ p => p

end Sys2Proof
end

