-- ==== Sys2Proof/WellFormed.lean ====
section
/-! DEFINITION. Which commands are well formed: encodable (R51, R52), with an ARG and a LEN that R53's
columns accept. A command that is encodable and not well formed still executes: its outcome is the error
R53 and its own rule name. -/

namespace Sys2Proof

/-- LEN is 16 bits wide (R51): a payload has at most 65535 bytes. No decoder gives a longer one (log 15). -/
def Instr.encodable (i : Instr) : Bool := decide (i.payload.length ≤ 65535)

/-- The ARG column of R53, with the register numbers of R27 (R122 item 1: "an ARG the rule forbids"). The
policy byte of GCMINIT is judged by `policyAccepted`. -/
def Instr.argAccepted : Instr → Bool
  | .nop a _ | .ldbk a _ | .ldak a _ | .ldst a _ | .ldfc a _ | .reset a _ | .aesenc a _ | .ghash a _
  | .gcmwrite a _ | .gcmfinal a _ | .gcmabort a _ | .cipherTag a _ | .cipherData a _
  | .cipherDatatag a _ | .decipher a _ => a == 0x00
  | .ldctrl a _ => a &&& 0xFE == 0x00
  | .rdreg a _ => decide (a.toNat ≤ 6)
  | .ldsp _ _ | .gcminitE _ _ | .gcminitD _ _ | .cipherPacket _ _ | .secenc _ _ => true

/-- The policy byte of GCMINIT is one of the three (R78, R81). -/
def Instr.policyAccepted : Instr → Bool
  | .gcminitE a _ | .gcminitD a _ => a == 0x10 || a == 0x20 || a == 0x30
  | .nop _ _ | .ldbk _ _ | .ldak _ _ | .ldst _ _ | .ldfc _ _ | .ldsp _ _ | .ldctrl _ _ | .rdreg _ _
  | .reset _ _ | .aesenc _ _ | .ghash _ _ | .gcmwrite _ _ | .gcmfinal _ _ | .gcmabort _ _
  | .cipherPacket _ _ | .cipherTag _ _ | .cipherData _ _ | .cipherDatatag _ _ | .secenc _ _
  | .decipher _ _ => true

/-- The LEN column of R53. -/
def Instr.lengthAccepted : Instr → Bool
  | .nop _ p | .ldsp _ p | .ldctrl _ p | .rdreg _ p | .reset _ p | .gcmfinal _ p
  | .gcmabort _ p => p.length == 0
  | .ldbk _ p | .ldak _ p | .aesenc _ p => p.length == 16
  | .ldst _ p => p.length == 8
  | .ldfc _ p => p.length == 4
  | .gcminitE _ p => decide (12 ≤ p.length)
  | .gcminitD a p => decide ((if a = 0x20 then 12 else 24) ≤ p.length)
  | .ghash _ _ | .gcmwrite _ _ | .cipherPacket _ _ | .cipherTag _ _ | .cipherData _ _
  | .cipherDatatag _ _ | .secenc _ _ | .decipher _ _ => true

/-- A well-formed command: encodable, with an ARG and a LEN that its rule accepts (R53). -/
def Instr.wellFormed (i : Instr) : Bool :=
  i.encodable && i.argAccepted && i.policyAccepted && i.lengthAccepted

end Sys2Proof
end

