-- ==== Sys2Proof/Decode.lean ====
section
/-! DEFINITION. Decoding of command bytes (30_encoding R51 to R54), total on any bytes, and the encoder. -/

namespace Sys2Proof

open Sys2Proof.Machine (beBytes beNat zeros)

/-- Why bytes are not a command. -/
inductive DecodeError where
  /-- Fewer than `4 + LEN` bytes (R35). -/
  | incomplete
  /-- An OPC that R53 does not list (R54, 93 U1 and U2): the command is illegal. -/
  | undefinedOpcode (opc : Byte)
deriving DecidableEq, Repr

/-- The command of an opcode, R53; none for an opcode that R53 does not list (R54). -/
def instrOf (opc arg : Byte) (p : Bytes) : Option Instr :=
  match opc with
  | 0x00#8 => some (.nop arg p)
  | 0x01#8 => some (.ldbk arg p)
  | 0x02#8 => some (.ldak arg p)
  | 0x03#8 => some (.ldst arg p)
  | 0x04#8 => some (.ldfc arg p)
  | 0x05#8 => some (.ldsp arg p)
  | 0x06#8 => some (.ldctrl arg p)
  | 0x07#8 => some (.rdreg arg p)
  | 0x0F#8 => some (.reset arg p)
  | 0x10#8 => some (.aesenc arg p)
  | 0x11#8 => some (.ghash arg p)
  | 0x20#8 => some (.gcminitE arg p)
  | 0x21#8 => some (.gcminitD arg p)
  | 0x22#8 => some (.gcmwrite arg p)
  | 0x23#8 => some (.gcmfinal arg p)
  | 0x24#8 => some (.gcmabort arg p)
  | 0x40#8 => some (.cipherPacket arg p)
  | 0x41#8 => some (.cipherTag arg p)
  | 0x42#8 => some (.cipherData arg p)
  | 0x43#8 => some (.cipherDatatag arg p)
  | 0x44#8 => some (.secenc arg p)
  | 0x48#8 => some (.decipher arg p)
  | _ => none

/-- One command from the front of a byte string, and the bytes after it (R51, R52). A forbidden ARG or LEN
decodes; the command's meaning answers it with its error (R54, R122; log 18). -/
def decode : Bytes → Except DecodeError (Instr × Bytes)
  | opc :: arg :: lenHi :: lenLo :: rest =>
    let len := beNat [lenHi, lenLo]
    if rest.length < len then .error .incomplete
    else
      match instrOf opc arg (rest.take len) with
      | some i => .ok (i, rest.drop len)
      | none => .error (.undefinedOpcode opc)
  | _ => .error .incomplete

/-- The opcode of a command (R53). -/
def Instr.opcode : Instr → Byte
  | .nop _ _ => 0x00
  | .ldbk _ _ => 0x01
  | .ldak _ _ => 0x02
  | .ldst _ _ => 0x03
  | .ldfc _ _ => 0x04
  | .ldsp _ _ => 0x05
  | .ldctrl _ _ => 0x06
  | .rdreg _ _ => 0x07
  | .reset _ _ => 0x0F
  | .aesenc _ _ => 0x10
  | .ghash _ _ => 0x11
  | .gcminitE _ _ => 0x20
  | .gcminitD _ _ => 0x21
  | .gcmwrite _ _ => 0x22
  | .gcmfinal _ _ => 0x23
  | .gcmabort _ _ => 0x24
  | .cipherPacket _ _ => 0x40
  | .cipherTag _ _ => 0x41
  | .cipherData _ _ => 0x42
  | .cipherDatatag _ _ => 0x43
  | .secenc _ _ => 0x44
  | .decipher _ _ => 0x48

/-- The command's bytes: header `OPC ARG LEN` and payload (R51, R59). -/
def encode (i : Instr) : Bytes := i.opcode :: i.arg :: (beBytes 2 i.payload.length ++ i.payload)

/-- The 32-bit header word `OPC·2^24 + ARG·2^16 + LEN` (R51), as `opcode_table.json` numbers it. -/
def headerWord (i : Instr) : BitVec 32 := i.opcode ++ i.arg ++ BitVec.ofNat 16 i.payload.length

/-- The bytes of a command given as the opcode table numbers it: the 32-bit header word in bits 31..0,
sent most significant byte first (R51), then as many payload bytes as its LEN says; payload byte `k` is
bits `32+8k+7 .. 32+8k`, zero from bit `nbits` on (log 19). -/
def tableBytes (nbits w : Nat) : Bytes :=
  let v := w % 2 ^ nbits
  let header := beBytes 4 v
  header ++ (List.range (min ((nbits - 32) / 8) (beNat (header.drop 2)))).map
      (fun k => BitVec.ofNat 8 (v >>> (32 + 8 * k)))
    ++ zeros (beNat (header.drop 2) - (nbits - 32) / 8)

/-- The instruction the decoder reads from a word of the opcode table. -/
def decodeTableWord (nbits w : Nat) : Option Instr :=
  match decode (tableBytes nbits w) with
  | .ok (i, _) => some i
  | .error _ => none

end Sys2Proof
end

