-- ==== Sys2Proof/Config.lean ====
section
/-! DEFINITION. What one implementation fixes (00_scope R6) and the free values of 93_implementation_defined.md. -/

namespace Sys2Proof

/-- The two values of the open parameter `FC_OVERFLOW` (00_scope R6, 92 D10). -/
inductive FcOverflow where
  /-- `SECENC` at FC = 0xFFFFFFFF ciphers and FC becomes 0. -/
  | wrap
  /-- `SECENC` at FC = 0xFFFFFFFF raises `CounterExhausted`. -/
  | fault
deriving DecidableEq, Repr, Inhabited

/-- The open parameter `FC_OVERFLOW` (92 D10, 93 U8). UNVERIFIED which; free, so safe (log 7). -/
opaque Config.fcOverflow : FcOverflow

/-- How far `OUTBUF_CAP` exceeds 65536 (92 D14, 93 U9); free, so safe.
DEDUCED bound, OUTBUF_CAP < 2^61: R86 writes `be_8(8·S.LENC)` and R8 gives `be_8` only below 2^64 (log 6). -/
opaque Config.outbufExtra : Fin (2305843009213628415 + 1)

/-- The open parameter `OUTBUF_CAP`, at least 65536 bytes (92 D14, 93 U9; log 6). -/
def Config.outbufCap : Nat := 65536 + Config.outbufExtra.val

/-- The n-th choice of 93 U12: does a hardware reset that meets a whole command discard it (true),
or does the command complete first (false)? Free, so safe (log 5). -/
opaque Config.resetDiscards : Nat → Bool

/-- The length field of a response whose output has `n ≥ 2^32` bytes, for which R58's `be_4(|OUT|)`
states no value. Free, so safe (log 9). -/
opaque Config.overlongLength : Nat → BitVec 32

end Sys2Proof
end

