-- ==== Sys2Proof/Machine/State.lean ====
section
/-! DEFINITION. The state of the core (10_state R16 to R32), the command and response ports (20_memory R35,
R36), the outcome codes (60_exceptions R121) and the state after a hardware reset (R32, 70 R146). -/

namespace Sys2Proof.Machine

/-- The outcome codes of a command (R121); codes 12 to 15 are never reported. -/
inductive ErrCode where
  | ok
  | invalidKeyLength
  | invalidTag
  | unknownCommand
  | unsupportedSecurityPolicy
  | keyNotLoaded
  | malformedEnvelope
  | streamState
  | illegalCommand
  | lengthLimit
  | badOperandLength
  | counterExhausted
deriving DecidableEq, Repr

/-- The three policies the core handles (R78). -/
inductive Policy where
  /-- 0x10. -/
  | authentication
  /-- 0x20. -/
  | encryption
  /-- 0x30. -/
  | authenticatedEncryption
deriving DecidableEq, Repr

/-- `S.DIR` (R28). -/
inductive Direction where
  /-- 0. -/
  | encrypt
  /-- 1. -/
  | decrypt
deriving DecidableEq, Repr

/-- BK and the three values derived from it, which hold a value exactly when BK does (R26). -/
structure CipherKey where
  /-- BK (R17). -/
  bk : Block
  /-- RK[0..10] (R26 a). -/
  rk : RoundKeys
  /-- H (R26 b). -/
  h : Block
  /-- M[0..31][0..15] (R26 c; log 14). -/
  m : ShoupTables
deriving DecidableEq, Repr

/-- The fields of an ACTIVE GCM stream (R28). -/
structure Stream where
  /-- S.DIR. -/
  dir : Direction
  /-- S.POL. -/
  pol : Policy
  /-- S.RK, the copy taken at GCMINIT. -/
  rk : RoundKeys
  /-- S.H, the copy taken at GCMINIT. -/
  h : Block
  /-- S.J0. -/
  j0 : Block
  /-- S.CB. -/
  cb : Block
  /-- S.ACC. -/
  acc : Block
  /-- S.BUF. -/
  buf : Bytes
  /-- S.OUT. -/
  out : Bytes
  /-- S.LENA. -/
  lenA : Nat
  /-- S.LENC. -/
  lenC : Nat
  /-- S.NBLK. -/
  nblk : Nat
  /-- S.TAGIN. -/
  tagIn : Option Tag
deriving DecidableEq, Repr

/-- One response `(ERR, OUT)` (R36). -/
structure Response where
  err : ErrCode
  out : Bytes
deriving DecidableEq, Repr

/-- What the host puts on the command port: a byte (R35), or a hardware reset at this point of the
byte stream (R146; log 4). -/
inductive Input where
  | byte (b : Byte)
  | reset
deriving DecidableEq, Repr

/-- The state of the core. STATUS and the validity bits are views of it (R23; log 8). -/
structure State where
  /-- BK, RK, H and M; none while BK holds no value (R16, R26, R33; log 1). -/
  key : Option CipherKey
  /-- AK; none while it holds no value (R16, R18, R33; log 1). -/
  ak : Option Block
  /-- ST; none while it holds no value (R16, R19, R33; log 1). -/
  st : Option Title
  /-- SP (R20). -/
  sp : Byte
  /-- FC (R21). -/
  fc : BitVec 32
  /-- CTRL (R22). -/
  ctrl : BitVec 8
  /-- STATUS.ERR (R23). -/
  err : ErrCode
  /-- STATUS.TAGMM (R23, R131). -/
  tagmm : Bool
  /-- RXSP (R24). -/
  rxsp : Byte
  /-- RXFC (R25). -/
  rxfc : BitVec 32
  /-- The GCM stream; none while S.PHASE = IDLE (R28, R29). -/
  stream : Option Stream
  /-- What has arrived on the command port and is not consumed, first arrived first (R35; log 2). -/
  port : List Input
  /-- The responses delivered and not taken by the host, oldest first (R36, R160; log 3). -/
  responses : List Response
  /-- The model's own counter of resets that met a whole command, the argument of
  `Config.resetDiscards` (93 U12; log 5). -/
  resetRaces : Nat
deriving DecidableEq, Repr

/-- Reasons to stop with a fault: NONE. The spec gives the engine no way to stop: "The engine never stops
on its own: every command completes" (R138; log 16). Nothing raises a fault; safe. -/
inductive Fault where
deriving DecidableEq, Repr

/-- Reasons to refuse. -/
inductive Refusal where
  /-- An arm of `exec` that has no meaning yet, by its mnemonic. No arm raises it; safe. -/
  | notModelled (mnemonic : String)
deriving DecidableEq, Repr

/-- The outcome of a step of this core. -/
abbrev Result := Host.Outcome State Fault Refusal

/-- After a hardware reset (R32, R146): BK, AK, ST and what derives from BK hold no value, SP = 0x00,
FC = 0, CTRL = 0, ERR = OK, TAGMM = 0, RXSP = 0, RXFC = 0, the stream is IDLE, and the core waits for its
first command. `resetRaces` is the model's own field, DESIGN CHOICE 0 (log 5). -/
def State.reset : State where
  key := none
  ak := none
  st := none
  sp := 0x00
  fc := 0
  ctrl := 0x00
  err := .ok
  tagmm := false
  rxsp := 0x00
  rxfc := 0
  stream := none
  port := []
  responses := []
  resetRaces := 0

end Sys2Proof.Machine
end

