-- ==== Sys2Proof/Machine/Flags.lean ====
section
/-! DEFINITION. Outcome codes (R121), the fields of STATUS (10_state R23), CTRL.DIAG (R22), the verdict on
a tag (42_gcm_stream R89) and the response bytes (30_encoding R58). -/

namespace Sys2Proof.Machine

/-- The 4-bit code of an outcome (R121). -/
def errCode : ErrCode → BitVec 4
  | .ok => 0
  | .invalidKeyLength => 1
  | .invalidTag => 2
  | .unknownCommand => 3
  | .unsupportedSecurityPolicy => 4
  | .keyNotLoaded => 5
  | .malformedEnvelope => 6
  | .streamState => 7
  | .illegalCommand => 8
  | .lengthLimit => 9
  | .badOperandLength => 10
  | .counterExhausted => 11

/-- STATUS.KV_BK (R23). -/
def kvBk (s : State) : Bool := s.key.isSome

/-- STATUS.KV_AK (R23). -/
def kvAk (s : State) : Bool := s.ak.isSome

/-- STATUS.KV_ST (R23). -/
def kvSt (s : State) : Bool := s.st.isSome

/-- STATUS.CIPHERED, a function of SP (R23). -/
def ciphered (s : State) : Bool := s.sp != 0x00

/-- STATUS.PHASE: 0 = IDLE, 1 = ACTIVE (R23). -/
def phase (s : State) : BitVec 2 := if s.stream.isSome then 1 else 0

/-- STATUS.SDIR: 1 while a decrypt stream is ACTIVE (R23). -/
def sdir (s : State) : Bool :=
  match s.stream with
  | some t => t.dir == .decrypt
  | none => false

/-- The STATUS register (R23): bits 15:12 read as 0, then SDIR, KV_ST, KV_AK, KV_BK, PHASE, CIPHERED,
TAGMM, ERR. -/
def statusWord (s : State) : BitVec 16 :=
  0#4 ++ BitVec.ofBool (sdir s) ++ BitVec.ofBool (kvSt s) ++ BitVec.ofBool (kvAk s) ++
    BitVec.ofBool (kvBk s) ++ phase s ++ BitVec.ofBool (ciphered s) ++ BitVec.ofBool s.tagmm ++
    errCode s.err

/-- CTRL.DIAG, bit 0 of CTRL (R22). -/
def diag (s : State) : Bool := s.ctrl.getLsbD 0

/-- The verdict of `Verify` (R89) on the computed tag `t` and the expected tag: `some v` when the output is
emitted with TAGMM = v, `none` when `InvalidTag` is raised. An absent expected tag matches nothing; no
stream that authenticates reaches that (log 17). -/
def tagVerdict (t : Tag) (expected : Option Tag) (diagMode : Bool) : Option Bool :=
  if expected = some t then some false else if diagMode then some true else none

/-- The 4-byte length field of a response: `be_4(|OUT|)` (R58); a free value from 2^32 bytes on, where
`be_4` is not defined (log 9). -/
def responseLength (n : Nat) : BitVec 32 :=
  if n < 2 ^ 32 then BitVec.ofNat 32 n else Config.overlongLength n

/-- The bytes of a response on the response port (R58): bits 7:4 of the first byte are 0. -/
def responseBytes (r : Response) : Bytes :=
  ((0#4 ++ errCode r.err : BitVec 8) :: beBytes 4 (responseLength r.out.length).toNat) ++ r.out

end Sys2Proof.Machine
end

