-- ==== Sys2Proof/Machine/Operands.lean ====
section
/-! DEFINITION. Operand forms: policy bytes (10_state R20, 42 R78), the payload of GCMINIT (R81, R82), the
registers of RDREG (R27), the A-XDR count (30 R56), command tags (R55) and the parsing of an envelope (R57,
43 R98). -/

namespace Sys2Proof.Machine

/-- The policy of a policy byte; none for a byte outside the three (R20, R78). -/
def policyOf (b : Byte) : Option Policy :=
  if b = 0x10 then some .authentication
  else if b = 0x20 then some .encryption
  else if b = 0x30 then some .authenticatedEncryption
  else none

/-- The byte of a policy (R20). -/
def policyByte : Policy → Byte
  | .authentication => 0x10
  | .encryption => 0x20
  | .authenticatedEncryption => 0x30

/-- Does the policy have a tag (R78)? -/
def authenticates : Policy → Bool
  | .authentication | .authenticatedEncryption => true
  | .encryption => false

/-- `P[0..12)` of a GCMINIT payload (R81). -/
def nonceOf (p : Bytes) : Nonce := BitVec.ofNat 96 (beNat (p.take 12))

/-- Twelve bytes as a tag (R82, R98). -/
def tagOf (b : Bytes) : Tag := BitVec.ofNat 96 (beNat b)

/-- The bytes of a tag, or ε where a policy has none (R87, R91). -/
def tagBytes : Option Tag → Bytes
  | some t => beBytes 12 t.toNat
  | none => []

/-- The length of the tag field in a GCMINIT.D payload (R82). -/
def tagFieldLength (pol : Policy) : Nat := if authenticates pol then 12 else 0

/-- The nonce the formatter builds: `ST ‖ be_4(counter)` (R91, R98). -/
def formatterNonce (st : Title) (counter : BitVec 32) : Nonce := st ++ counter

/-- The bytes of register `n` as they stand (R27): none for a number without a register and for ST while
it holds no value. -/
def registerBytes (s : State) : Nat → Option Bytes
  | 0 => some [s.sp]
  | 1 => some (beBytes 4 s.fc.toNat)
  | 2 => some (beBytes 2 (statusWord s).toNat)
  | 3 => some [s.ctrl]
  | 4 => some [s.rxsp]
  | 5 => some (beBytes 4 s.rxfc.toNat)
  | 6 => s.st.map fun t => beBytes 8 t.toNat
  | _ => none

/-- `CountEnc(n)` (R56), for `n < 2^32` (log 10). -/
def countEnc (n : Nat) : Bytes :=
  if n < 0x80 then beBytes 1 n
  else if n < 0x100 then 0x81 :: beBytes 1 n
  else if n < 0x10000 then 0x82 :: beBytes 2 n
  else 0x84 :: beBytes 4 n

/-- `CountDec(b, i)` (R56): the count and the index after it; none is `MalformedEnvelope`. -/
def countDec (b : Bytes) (i : Nat) : Option (Nat × Nat) :=
  match b[i]? with
  | none => none
  | some c =>
    if c.toNat < 0x80 then some (c.toNat, i + 1)
    else if 0x81 ≤ c.toNat ∧ c.toNat ≤ 0x84 then
      let k := c.toNat - 0x80
      if b.length < i + 1 + k then none
      else some (beNat ((b.drop (i + 1)).take k), i + 1 + k)
    else none

/-- The eight leading bytes `DECIPHER` accepts (R55). -/
def cipheredTags : Bytes := [0x21, 0x28, 0xC8, 0xC9, 0xCB, 0xCC, 0xCD, 0xCF]

/-- The association tags `SECENC` passes through, AARQ and AARE (R55, R97). -/
def associationTags : Bytes := [0x60, 0x61]

/-- The fields of an envelope before its data: security byte, counter, and the rest (R98). -/
structure EnvelopeParts where
  sp : Byte
  fc : BitVec 32
  rest : Bytes
deriving DecidableEq, Repr

/-- The first checks of `DECIPHER` in R98's order: empty payload, leading tag, count form, count against
length, body of at least 5 bytes. -/
def parseEnvelope (p : Bytes) : Except ErrCode EnvelopeParts :=
  match p with
  | [] => .error .malformedEnvelope
  | tag :: _ =>
    if tag ∉ cipheredTags then .error .unknownCommand
    else
      match countDec p 1 with
      | none => .error .malformedEnvelope
      | some (n, i) =>
        if n ≠ p.length - i ∨ n < 5 then .error .malformedEnvelope
        else
          .ok { sp := p.getD i 0x00
                fc := BitVec.ofNat 32 (beNat ((p.drop (i + 1)).take 4))
                rest := p.drop (i + 5) }

/-- The split of the rest of an envelope into body and trailing 12-byte tag (R98); none when there is no
room for the tag. -/
def splitTag (pol : Policy) (rest : Bytes) : Option (Bytes × Option Tag) :=
  if authenticates pol then
    if rest.length < 12 then none
    else some (rest.take (rest.length - 12), some (tagOf (rest.drop (rest.length - 12))))
  else some (rest, none)

end Sys2Proof.Machine
end

