-- ==== Sys2Proof/Machine/AesCore.lean ====
section
/-! DEFINITION. The AES-128 key schedule and forward transform (40_aes R61 to R66). There is no inverse
cipher (R67). -/

namespace Sys2Proof.Machine

/-- Rows 0x to 7x of the S-box table of R63. -/
def sboxLow : List (List Nat) := [
  [0x63, 0x7C, 0x77, 0x7B, 0xF2, 0x6B, 0x6F, 0xC5, 0x30, 0x01, 0x67, 0x2B, 0xFE, 0xD7, 0xAB, 0x76],
  [0xCA, 0x82, 0xC9, 0x7D, 0xFA, 0x59, 0x47, 0xF0, 0xAD, 0xD4, 0xA2, 0xAF, 0x9C, 0xA4, 0x72, 0xC0],
  [0xB7, 0xFD, 0x93, 0x26, 0x36, 0x3F, 0xF7, 0xCC, 0x34, 0xA5, 0xE5, 0xF1, 0x71, 0xD8, 0x31, 0x15],
  [0x04, 0xC7, 0x23, 0xC3, 0x18, 0x96, 0x05, 0x9A, 0x07, 0x12, 0x80, 0xE2, 0xEB, 0x27, 0xB2, 0x75],
  [0x09, 0x83, 0x2C, 0x1A, 0x1B, 0x6E, 0x5A, 0xA0, 0x52, 0x3B, 0xD6, 0xB3, 0x29, 0xE3, 0x2F, 0x84],
  [0x53, 0xD1, 0x00, 0xED, 0x20, 0xFC, 0xB1, 0x5B, 0x6A, 0xCB, 0xBE, 0x39, 0x4A, 0x4C, 0x58, 0xCF],
  [0xD0, 0xEF, 0xAA, 0xFB, 0x43, 0x4D, 0x33, 0x85, 0x45, 0xF9, 0x02, 0x7F, 0x50, 0x3C, 0x9F, 0xA8],
  [0x51, 0xA3, 0x40, 0x8F, 0x92, 0x9D, 0x38, 0xF5, 0xBC, 0xB6, 0xDA, 0x21, 0x10, 0xFF, 0xF3, 0xD2]]

/-- Rows 8x to Fx of the S-box table of R63. -/
def sboxHigh : List (List Nat) := [
  [0xCD, 0x0C, 0x13, 0xEC, 0x5F, 0x97, 0x44, 0x17, 0xC4, 0xA7, 0x7E, 0x3D, 0x64, 0x5D, 0x19, 0x73],
  [0x60, 0x81, 0x4F, 0xDC, 0x22, 0x2A, 0x90, 0x88, 0x46, 0xEE, 0xB8, 0x14, 0xDE, 0x5E, 0x0B, 0xDB],
  [0xE0, 0x32, 0x3A, 0x0A, 0x49, 0x06, 0x24, 0x5C, 0xC2, 0xD3, 0xAC, 0x62, 0x91, 0x95, 0xE4, 0x79],
  [0xE7, 0xC8, 0x37, 0x6D, 0x8D, 0xD5, 0x4E, 0xA9, 0x6C, 0x56, 0xF4, 0xEA, 0x65, 0x7A, 0xAE, 0x08],
  [0xBA, 0x78, 0x25, 0x2E, 0x1C, 0xA6, 0xB4, 0xC6, 0xE8, 0xDD, 0x74, 0x1F, 0x4B, 0xBD, 0x8B, 0x8A],
  [0x70, 0x3E, 0xB5, 0x66, 0x48, 0x03, 0xF6, 0x0E, 0x61, 0x35, 0x57, 0xB9, 0x86, 0xC1, 0x1D, 0x9E],
  [0xE1, 0xF8, 0x98, 0x11, 0x69, 0xD9, 0x8E, 0x94, 0x9B, 0x1E, 0x87, 0xE9, 0xCE, 0x55, 0x28, 0xDF],
  [0x8C, 0xA1, 0x89, 0x0D, 0xBF, 0xE6, 0x42, 0x68, 0x41, 0x99, 0x2D, 0x0F, 0xB0, 0x54, 0xBB, 0x16]]

/-- `Sbox[b]` (R63): row = high nibble, column = low nibble. -/
def sbox (b : Byte) : Byte :=
  BitVec.ofNat 8 (((sboxLow ++ sboxHigh).getD (b.toNat / 16) []).getD (b.toNat % 16) 0)

/-- `xtime(a) = 2·a` in GF(2^8) (R65). -/
def xtime (a : Byte) : Byte := (a <<< 1) ^^^ (if a.msb then 0x1B else 0x00)

/-- `3·a = xtime(a) ⊕ a` (R65). -/
def times3 (a : Byte) : Byte := xtime a ^^^ a

/-- The product in GF(2^8) modulo `x^8 + x^4 + x^3 + x + 1` (R63), bit `i` of `b` adding `c·x^i`. -/
def gf256Mul (b c : Byte) : Byte :=
  (List.range 8).foldl (fun z i => if b.getLsbD i then z ^^^ xtime^[i] c else z) 0x00

/-- The affine map of R63, `c = 0x63`: bit `i` is `b_i ⊕ b_(i+4) ⊕ b_(i+5) ⊕ b_(i+6) ⊕ b_(i+7) ⊕ c_i`. -/
def sboxAffine (b : Byte) : Byte :=
  b ^^^ b.rotateRight 4 ^^^ b.rotateRight 5 ^^^ b.rotateRight 6 ^^^ b.rotateRight 7 ^^^ 0x63

/-- `SubBytes` (R63). -/
def subBytes (s : Block) : Block := blockOfFn fun i => sbox (byteAt s i)

/-- `ShiftRows` in byte-index terms (R64). -/
def shiftRows (s : Block) : Block := blockOfFn fun i => byteAt s (i % 4 + 4 * ((i / 4 + i % 4) % 4))

/-- `MixColumns` (R65): row `r` of the matrix is `2 3 1 1` rotated right by `r`. -/
def mixColumns (s : Block) : Block :=
  blockOfFn fun i =>
    xtime (byteAt s (4 * (i / 4) + i % 4)) ^^^ times3 (byteAt s (4 * (i / 4) + (i + 1) % 4)) ^^^
      byteAt s (4 * (i / 4) + (i + 2) % 4) ^^^ byteAt s (4 * (i / 4) + (i + 3) % 4)

/-- `AddRoundKey` (R62). -/
def addRoundKey (s k : Block) : Block := s ^^^ k

/-- One of the nine full rounds (R62). -/
def fullRound (s k : Block) : Block := addRoundKey (mixColumns (shiftRows (subBytes s))) k

/-- The final round, without MixColumns (R62). -/
def finalRound (s k : Block) : Block := addRoundKey (shiftRows (subBytes s)) k

/-- `AES_Encrypt(RK, in)` (R62). -/
def aesEncrypt (rk : RoundKeys) (b : Block) : Block :=
  finalRound
    ([rk[1], rk[2], rk[3], rk[4], rk[5], rk[6], rk[7], rk[8], rk[9]].foldl fullRound
      (addRoundKey b rk[0]))
    rk[10]

/-- Word `i` of a round key, `w[4·round + i]` (R61). -/
def wordAt (k : Block) (i : Nat) : Word32 := k.extractLsb' (32 * (3 - i)) 32

/-- `RotWord` (R61). -/
def rotWord (w : Word32) : Word32 := w.extractLsb' 0 24 ++ w.extractLsb' 24 8

/-- `SubWord` (R61). -/
def subWord (w : Word32) : Word32 :=
  sbox (w.extractLsb' 24 8) ++ sbox (w.extractLsb' 16 8) ++ sbox (w.extractLsb' 8 8) ++
    sbox (w.extractLsb' 0 8)

/-- `Rcon[1..10]` (R61). -/
def rcon (i : Nat) : Byte :=
  ([0x01, 0x02, 0x04, 0x08, 0x10, 0x20, 0x40, 0x80, 0x1B, 0x36] : Bytes).getD (i - 1) 0x00

/-- Round key `i` from round key `i - 1`: four turns of the loop of R61. -/
def nextRoundKey (i : Nat) (k : Block) : Block :=
  let t := subWord (rotWord (wordAt k 3)) ^^^ (rcon i ++ 0#24)
  let w0 := wordAt k 0 ^^^ t
  let w1 := wordAt k 1 ^^^ w0
  let w2 := wordAt k 2 ^^^ w1
  let w3 := wordAt k 3 ^^^ w2
  w0 ++ w1 ++ w2 ++ w3

/-- Round key `i` of the cipher key `k` (R61). -/
def roundKey (k : Block) : Nat → Block
  | 0 => k
  | i + 1 => nextRoundKey (i + 1) (roundKey k i)

/-- `KeyExpansion(K)`, the round keys `RK[0..10]` (R61). -/
def keyExpansion (k : Block) : RoundKeys := Vector.ofFn fun i => roundKey k i.val

/-- `Te0[x]` as a column of four bytes, row 0 first (R66). -/
def te0 (x : Byte) : Word32 := xtime (sbox x) ++ sbox x ++ sbox x ++ times3 (sbox x)

/-- `Te1[x]` (R66). -/
def te1 (x : Byte) : Word32 := times3 (sbox x) ++ xtime (sbox x) ++ sbox x ++ sbox x

/-- `Te2[x]` (R66). -/
def te2 (x : Byte) : Word32 := sbox x ++ times3 (sbox x) ++ xtime (sbox x) ++ sbox x

/-- `Te3[x]` (R66). -/
def te3 (x : Byte) : Word32 := sbox x ++ sbox x ++ times3 (sbox x) ++ xtime (sbox x)

/-- Column `c` of a round in the table-driven form of R66: `s[r,c]` is byte `r + 4c`. -/
def tableColumn (s : Block) (c : Nat) : Word32 :=
  te0 (byteAt s (4 * c)) ^^^ te1 (byteAt s (1 + 4 * ((c + 1) % 4))) ^^^
    te2 (byteAt s (2 + 4 * ((c + 2) % 4))) ^^^ te3 (byteAt s (3 + 4 * ((c + 3) % 4)))

/-- A full round in the table-driven form (R66). -/
def tableRound (s k : Block) : Block :=
  (tableColumn s 0 ++ tableColumn s 1 ++ tableColumn s 2 ++ tableColumn s 3) ^^^ k

/-- `AES_Encrypt` in the table-driven form (R66); the final round uses the S-box alone. -/
def aesEncryptTable (rk : RoundKeys) (b : Block) : Block :=
  finalRound
    ([rk[1], rk[2], rk[3], rk[4], rk[5], rk[6], rk[7], rk[8], rk[9]].foldl tableRound
      (addRoundKey b rk[0]))
    rk[10]

end Sys2Proof.Machine
end

