-- ==== Sys2Proof/Machine/GhashCore.lean ====
section
/-! DEFINITION. GF(2^128), the Shoup tables and GHASH (41_ghash R70 to R75). -/

namespace Sys2Proof.Machine

/-- `V·x`: a right shift with the reduction by `R = E1 ‖ 0^15` (R71). -/
def timesX (v : Block) : Block :=
  if v.getMsbD 127 then (v >>> 1) ^^^ (0xE1#8 ++ 0#120) else v >>> 1

/-- The last `n` of the 128 turns of the loop of R71; turn `i = 128 - n` looks at bit `X_i`. -/
def gfLoop (x : Block) : Nat → Block → Block → Block
  | 0, z, _ => z
  | n + 1, z, v => gfLoop x n (if x.getMsbD (127 - n) then z ^^^ v else z) (timesX v)

/-- `GF_Mul(X, Y)` (R71). -/
def gfMul (x y : Block) : Block := gfLoop x 128 0 y

/-- Nibble `k` of a block: the high nibble of byte `k / 2` when `k` is even, else the low one (R73). -/
def nibble (x : Block) (k : Nat) : BitVec 4 := x.extractLsb' (4 * (31 - k)) 4

/-- `Nib(k, n)`: the block whose nibble `k` is `n` and whose other nibbles are 0 (R73). -/
def nib (k : Nat) (n : BitVec 4) : Block := (n.setWidth 128) <<< (4 * (31 - k))

/-- `ShoupTables(H)`: `M[k][n] = GF_Mul(Nib(k, n), H)` (R73). -/
def shoupTables (h : Block) : ShoupTables :=
  Vector.ofFn fun k => Vector.ofFn fun n => gfMul (nib k.val (BitVec.ofFin n)) h

/-- The product by `H` read from its tables: `⊕ over k of M[k][nibble k of X]` (R73). -/
def tableProduct (m : ShoupTables) (x : Block) : Block :=
  (List.finRange 32).foldl (fun z k => z ^^^ (m[k])[(nibble x k.val).toFin]) 0

/-- `GHASH_Update(ACC, H, data)` (R74). -/
def ghashUpdate (acc h : Block) (data : Bytes) : Block :=
  (pieces ((data.length + 15) / 16) data).foldl (fun a b => gfMul (a ^^^ blockOf b) h) acc

/-- `GHASH(H, data)` (R75). -/
def ghashOf (h : Block) (data : Bytes) : Block := ghashUpdate 0 h data

end Sys2Proof.Machine
end

