-- ==== Sys2Proof/Machine/Ops.lean ====
section
/-! DEFINITION. The shared operations: ending a command with its outcome (00_scope R11; 60_exceptions R121,
R123), deriving RK, H and M from a block key (10_state R26), the soft and the hardware reset (44 R113, 70
R146), and the three reads a command makes of BK, AK and ST (R33). -/

namespace Sys2Proof.Machine

/-- Every command ends so: its outcome in STATUS.ERR and one response (R23, R36, R121). -/
def State.complete (s : State) (e : ErrCode) (out : Bytes) : State :=
  { s with err := e, responses := s.responses ++ [⟨e, out⟩] }

/-- `emit(b)` as the end of a command (R11): outcome OK, output `b`. -/
def emit (out : Bytes) (s : State) : Result := .next (s.complete .ok out)

/-- `raise E` (R11, R123), the core's one error mechanism: outcome `E`, output ε, nothing else changed.
There is no trap, handler or return (R125, R126): the next command follows. -/
def raise (e : ErrCode) (s : State) : Result := .next (s.complete e [])

/-- The values derived from a block key in the command that writes it (R26, R68). -/
def deriveKey (bk : Block) : CipherKey :=
  let rk := keyExpansion bk
  let h := aesEncrypt rk 0
  { bk := bk, rk := rk, h := h, m := shoupTables h }

/-- The soft reset: SP and FC, nothing else (R113, R147). -/
def softReset (s : State) : State := { s with sp := 0x00, fc := 0 }

/-- "discard every stream field" (R84, R88, R90): PHASE becomes IDLE. -/
def endStream (s : State) : State := { s with stream := none }

/-- The hardware reset (R146): every piece of state as `State.reset` has it. What had already been
delivered to the host stays delivered (log 3), `rest` is what arrives on the port after the reset, and the
model's own counter keeps counting (log 5). -/
def hardwareReset (s : State) (rest : List Input) : State :=
  { State.reset with port := rest, responses := s.responses, resetRaces := s.resetRaces }

/-- A command that needs the block key (and so RK, H, M): `KeyNotLoaded` without it (R33). -/
def withKey (s : State) (f : CipherKey → Result) : Result :=
  match s.key with
  | some k => f k
  | none => raise .keyNotLoaded s

/-- A command that needs BK, AK and ST: `KeyNotLoaded` without one of them (R33, R93). -/
def withKeys (s : State) (f : CipherKey → Block → Title → Result) : Result :=
  match s.key, s.ak, s.st with
  | some k, some a, some t => f k a t
  | _, _, _ => raise .keyNotLoaded s

end Sys2Proof.Machine
end

