-- ==== Sys2Proof/Machine/Configuration.lean ====
section
/-! DEFINITION. The meanings of the configuration commands (44_config R106 to R113). -/

namespace Sys2Proof.Machine

/-- `NOP` (R106). -/
def execNop (arg : Byte) (p : Bytes) (s : State) : Result :=
  if arg ≠ 0x00 then raise .illegalCommand s
  else if p.length ≠ 0 then raise .badOperandLength s
  else emit [] { s with tagmm := false }

/-- `LDAK` (R107). -/
def execLdak (arg : Byte) (p : Bytes) (s : State) : Result :=
  if arg ≠ 0x00 then raise .illegalCommand s
  else if p.length ≠ 16 then raise .invalidKeyLength s
  else emit [] { s with ak := some (BitVec.ofNat 128 (beNat p)) }

/-- `LDST` (R108). -/
def execLdst (arg : Byte) (p : Bytes) (s : State) : Result :=
  if arg ≠ 0x00 then raise .illegalCommand s
  else if p.length ≠ 8 then raise .invalidKeyLength s
  else emit [] { s with st := some (BitVec.ofNat 64 (beNat p)) }

/-- `LDFC` (R109). -/
def execLdfc (arg : Byte) (p : Bytes) (s : State) : Result :=
  if arg ≠ 0x00 then raise .illegalCommand s
  else if p.length ≠ 4 then raise .badOperandLength s
  else emit [] { s with fc := BitVec.ofNat 32 (beNat p) }

/-- `LDSP` (R110): every byte is stored. -/
def execLdsp (arg : Byte) (p : Bytes) (s : State) : Result :=
  if p.length ≠ 0 then raise .badOperandLength s
  else emit [] { s with sp := arg }

/-- `LDCTRL` (R111): the reserved bits must be 0. -/
def execLdctrl (arg : Byte) (p : Bytes) (s : State) : Result :=
  if arg &&& 0xFE ≠ 0x00 then raise .illegalCommand s
  else if p.length ≠ 0 then raise .badOperandLength s
  else emit [] { s with ctrl := arg }

/-- `RDREG` (R112): the register's bytes as they stood before the command. -/
def execRdreg (arg : Byte) (p : Bytes) (s : State) : Result :=
  if 6 < arg.toNat then raise .illegalCommand s
  else if p.length ≠ 0 then raise .badOperandLength s
  else
    match registerBytes s arg.toNat with
    | some b => emit b s
    | none => raise .keyNotLoaded s

/-- `RESET` (R113). -/
def execReset (arg : Byte) (p : Bytes) (s : State) : Result :=
  if arg ≠ 0x00 then raise .illegalCommand s
  else if p.length ≠ 0 then raise .badOperandLength s
  else emit [] (softReset s)

end Sys2Proof.Machine
end

