-- ==== Sys2Proof/Machine/GcmCore.lean ====
section
/-! DEFINITION. The operations of the GCM stream (42_gcm_stream R79 to R88) as functions of the stream. -/

namespace Sys2Proof.Machine

/-- `J0 = nonce ‖ 00 00 00 01` (R79). -/
def initialCounter (nonce : Nonce) : Block := nonce ++ 1#32

/-- `inc32(CB)`: the last four bytes plus one modulo 2^32, the first twelve unchanged (R80). -/
def inc32 (cb : Block) : Block := cb.extractLsb' 32 96 ++ (cb.extractLsb' 0 32 + 1)

/-- The stream that GCMINIT starts (R81, R82). -/
def startStream (dir : Direction) (pol : Policy) (rk : RoundKeys) (h : Block) (nonce : Nonce)
    (aad : Bytes) (tagIn : Option Tag) : Stream where
  dir := dir
  pol := pol
  rk := rk
  h := h
  j0 := initialCounter nonce
  cb := initialCounter nonce
  acc := ghashUpdate 0 h aad
  buf := []
  out := []
  lenA := aad.length
  lenC := 0
  nblk := 0
  tagIn := tagIn

/-- The ciphertext in either direction, which is what GHASH folds (R83). -/
def cipherSide (dir : Direction) (blk out : Bytes) : Bytes :=
  match dir with
  | .encrypt => out
  | .decrypt => blk

/-- The fold of one block's ciphertext `c` and its output `out` (R83, last three lines). -/
def absorbBlock (t : Stream) (blk out : Bytes) : Stream :=
  { t with
    acc := gfMul (t.acc ^^^ blockOf (cipherSide t.dir blk out)) t.h
    out := t.out ++ out }

/-- `ProcessBlock(blk)` (R83). -/
def processBlock (t : Stream) (blk : Bytes) : Stream :=
  match t.pol with
  | .authentication => absorbBlock t blk blk
  | .encryption | .authenticatedEncryption =>
    let cb := inc32 t.cb
    absorbBlock { t with nblk := t.nblk + 1, cb := cb } blk
      (xorBytes blk (blockBytes (aesEncrypt t.rk cb)))

/-- The part of GCMWRITE after its checks (R84): whole blocks are processed, the rest is kept. -/
def writeStream (t : Stream) (p : Bytes) : Stream :=
  let buf := t.buf ++ p
  let nfull := buf.length / 16
  let t' := (pieces nfull buf).foldl processBlock t
  { t' with buf := buf.drop (16 * nfull), lenC := t.lenC + p.length }

/-- The flush of the last, partial block (R88). -/
def flushStream (t : Stream) : Stream :=
  if t.buf = [] then t else { processBlock t t.buf with buf := [] }

/-- The length block `be_8(8·LENA) ‖ be_8(8·LENC)` (R86). -/
def lengthBlock (lenA lenC : Nat) : Block := BitVec.ofNat 64 (8 * lenA) ++ BitVec.ofNat 64 (8 * lenC)

/-- The tag of a flushed stream: bytes 0 to 11 of the 16-byte tag (R87, 90 C3). -/
def streamTag (t : Stream) : Tag :=
  (aesEncrypt t.rk t.j0 ^^^ gfMul (t.acc ^^^ lengthBlock t.lenA t.lenC) t.h).extractLsb' 32 96

/-- Would a message of `n` data bytes exceed OUTBUF_CAP (R84)? The first test is free of the open
parameter: OUTBUF_CAP is at least 65536 (R6; log 6). -/
def exceedsOutbuf (n : Nat) : Bool := decide (65536 < n) && decide (Config.outbufCap < n)

/-- Would the message exceed the counter-block limit once `p` is added (R84, R85, R121, 92 D14)? Policy
0x10 uses no counter block. All blocks count, a short last one too, so that the counter never wraps within
a message (R80, R85); the pseudocode of R84 counts the whole ones only. DEDUCED, unsafe (log 21). -/
def exceedsCounterLimit (t : Stream) (p : Bytes) : Bool :=
  t.pol != .authentication && decide (2 ^ 32 - 2 < t.nblk + ((t.buf ++ p).length + 15) / 16)

end Sys2Proof.Machine
end

