-- ==== Sys2Proof/Machine/FormatterCore.lean ====
section
/-! DEFINITION. The formatter's datapath (43_dlms_formatter R91, R92, R98) and the envelope (30_encoding
R57). -/

namespace Sys2Proof.Machine

/-- `GCM_Seal` and `GCM_Open`, by direction (R91): a stream of its own is started, written and finished
with no length limit; the output, and the tag where the policy has one. -/
def gcmOneShot (dir : Direction) (pol : Policy) (k : CipherKey) (nonce : Nonce) (aad data : Bytes) :
    Bytes × Option Tag :=
  let t := flushStream (writeStream (startStream dir pol k.rk k.h nonce aad none) data)
  (t.out, if authenticates pol then some (streamTag t) else none)

/-- What the formatter computes for a policy, in either direction, from a body: the data part and the tag
(R91 for encrypt, R98 for decrypt). Under 0x10 the body is authenticated as AAD and passes unchanged. -/
def formatterCore (dir : Direction) (pol : Policy) (k : CipherKey) (ak : Block) (nonce : Nonce)
    (body : Bytes) : Bytes × Option Tag :=
  match pol with
  | .authentication =>
    (body, (gcmOneShot dir pol k nonce (policyByte pol :: (blockBytes ak ++ body)) []).2)
  | .encryption => gcmOneShot dir pol k nonce (blockBytes ak) body
  | .authenticatedEncryption => gcmOneShot dir pol k nonce (policyByte pol :: blockBytes ak) body

/-- The envelope `commandTag ‖ CountEnc(|body|) ‖ body`, `body = SP ‖ be_4(FC) ‖ data ‖ tag` (R57). -/
def envelope (ct sp : Byte) (fc : BitVec 32) (data tag : Bytes) : Bytes :=
  let body := sp :: (beBytes 4 fc.toNat ++ data ++ tag)
  ct :: (countEnc body.length ++ body)

/-- The checks that every ciphering command makes, in R93's order, and then `CipherCore(P)` (R91): the
continuation receives the data part and the tag. -/
def withCipherCore (s : State) (p : Bytes) (f : Bytes → Option Tag → Result) : Result :=
  match policyOf s.sp with
  | none => raise .unsupportedSecurityPolicy s
  | some pol =>
    withKeys s fun k ak st =>
      let dt := formatterCore .encrypt pol k ak (formatterNonce st s.fc) p
      f dt.1 dt.2

/-- The envelope of the current SP and FC (R93, R97). -/
def packetOf (s : State) (ct : Byte) (data : Bytes) (tag : Option Tag) : Bytes :=
  envelope ct s.sp s.fc data (tagBytes tag)

end Sys2Proof.Machine
end

