-- ==== Sys2Proof/Machine/Formatter.lean ====
section
/-! DEFINITION. The meanings of the DLMS formatter commands (43_dlms_formatter R93 to R98). -/

namespace Sys2Proof.Machine

/-- `CIPHER.PACKET` (R93): any ARG is the command tag; FC is not changed. -/
def execCipherPacket (arg : Byte) (p : Bytes) (s : State) : Result :=
  withCipherCore s p fun d t => emit (packetOf s arg d t) s

/-- `CIPHER.TAG` (R94). -/
def execCipherTag (arg : Byte) (p : Bytes) (s : State) : Result :=
  if arg ≠ 0x00 then raise .illegalCommand s
  else withCipherCore s p fun _ t => emit (tagBytes t) s

/-- `CIPHER.DATA` (R95). -/
def execCipherData (arg : Byte) (p : Bytes) (s : State) : Result :=
  if arg ≠ 0x00 then raise .illegalCommand s
  else withCipherCore s p fun d _ => emit d s

/-- `CIPHER.DATATAG` (R96). -/
def execCipherDatatag (arg : Byte) (p : Bytes) (s : State) : Result :=
  if arg ≠ 0x00 then raise .illegalCommand s
  else withCipherCore s p fun d t => emit (d ++ tagBytes t) s

/-- `SECENC` (R97): pass-through of SP = 0x00 and of the association tags; else the packet of the current
FC, and FC plus one in the same command (R47). At FC = 0xFFFFFFFF the open parameter decides (D10). -/
def execSecenc (arg : Byte) (p : Bytes) (s : State) : Result :=
  if s.sp = 0x00 ∨ arg ∈ associationTags then emit p s
  else
    withCipherCore s p fun d t =>
      if s.fc = 0xFFFFFFFF ∧ Config.fcOverflow = .fault then raise .counterExhausted s
      else emit (packetOf s arg d t) { s with fc := s.fc + 1 }

/-- `DECIPHER` (R98), its checks in its own order (R122). FC and SP are neither read nor changed. -/
def execDecipher (arg : Byte) (p : Bytes) (s : State) : Result :=
  if arg ≠ 0x00 then raise .illegalCommand s
  else
    match parseEnvelope p with
    | .error e => raise e s
    | .ok v =>
      match policyOf v.sp with
      | none => raise .unsupportedSecurityPolicy s
      | some pol =>
        withKeys s fun k ak st =>
          match splitTag pol v.rest with
          | none => raise .malformedEnvelope s
          | some (body, tin) =>
            let dt := formatterCore .decrypt pol k ak (formatterNonce st v.fc) body
            match dt.2 with
            | none => emit dt.1 { s with rxsp := v.sp, rxfc := v.fc }
            | some t =>
              match tagVerdict t tin (diag s) with
              | some mm => emit dt.1 { s with tagmm := mm, rxsp := v.sp, rxfc := v.fc }
              | none => raise .invalidTag { s with tagmm := false }

end Sys2Proof.Machine
end

