-- ==== Sys2Proof/Machine/GcmStream.lean ====
section
/-! DEFINITION. The meanings of the GCM stream commands (42_gcm_stream R81 to R90). -/

namespace Sys2Proof.Machine

/-- `GCMINIT` in either direction, the checks in the order of R81 and R82; in the decrypt direction the
payload carries the expected tag after the nonce where the policy authenticates. -/
def initStream (dir : Direction) (arg : Byte) (p : Bytes) (s : State) : Result :=
  match s.stream with
  | some _ => raise .streamState s
  | none =>
    match policyOf arg with
    | none => raise .unsupportedSecurityPolicy s
    | some pol =>
      let t := if dir = .decrypt then tagFieldLength pol else 0
      if p.length < 12 + t then raise .badOperandLength s
      else
        withKey s fun k =>
          let tagIn := if t = 12 then some (tagOf ((p.drop 12).take 12)) else none
          emit [] { s with
            stream := some (startStream dir pol k.rk k.h (nonceOf p) (p.drop (12 + t)) tagIn) }

/-- `GCMINIT.E` (R81). -/
def execGcminitE (arg : Byte) (p : Bytes) (s : State) : Result := initStream .encrypt arg p s

/-- `GCMINIT.D` (R82). -/
def execGcminitD (arg : Byte) (p : Bytes) (s : State) : Result := initStream .decrypt arg p s

/-- `GCMWRITE` (R84): a message over a limit (R85; log 21) ends the stream (R124 a). -/
def execGcmwrite (arg : Byte) (p : Bytes) (s : State) : Result :=
  if arg ≠ 0x00 then raise .illegalCommand s
  else
    match s.stream with
    | none => raise .streamState s
    | some t =>
      if exceedsOutbuf (t.lenC + p.length) then raise .lengthLimit (endStream s)
      else if exceedsCounterLimit t p then raise .lengthLimit (endStream s)
      else emit [] { s with stream := some (writeStream t p) }

/-- `GCMFINAL` (R88): flush, tag, end of the stream, then the output by policy and direction; a decrypt
stream that authenticates is verified (R89). -/
def execGcmfinal (arg : Byte) (p : Bytes) (s : State) : Result :=
  if arg ≠ 0x00 then raise .illegalCommand s
  else
    match s.stream with
    | none => raise .streamState s
    | some t =>
      if p.length ≠ 0 then raise .badOperandLength s
      else
        let f := flushStream t
        match authenticates f.pol, f.dir with
        | false, _ => emit f.out (endStream s)
        | true, .encrypt => emit (f.out ++ tagBytes (some (streamTag f))) (endStream s)
        | true, .decrypt =>
          match tagVerdict (streamTag f) f.tagIn (diag s) with
          | some mm => emit f.out { endStream s with tagmm := mm }
          | none => raise .invalidTag { endStream s with tagmm := false }

/-- `GCMABORT` (R90): legal with no active stream. -/
def execGcmabort (arg : Byte) (p : Bytes) (s : State) : Result :=
  if arg ≠ 0x00 then raise .illegalCommand s
  else if p.length ≠ 0 then raise .badOperandLength s
  else emit [] (endStream s)

end Sys2Proof.Machine
end

