-- ==== Sys2Proof/Machine/Primitives.lean ====
section
/-! DEFINITION. The meanings of the block primitives (40_aes R68, R69; 41_ghash R77). -/

namespace Sys2Proof.Machine

/-- `LDBK` (R68): BK and, in the same command, RK, H and M (R26). -/
def execLdbk (arg : Byte) (p : Bytes) (s : State) : Result :=
  if arg ≠ 0x00 then raise .illegalCommand s
  else if p.length ≠ 16 then raise .invalidKeyLength s
  else emit [] { s with key := some (deriveKey (BitVec.ofNat 128 (beNat p))) }

/-- `AESENC` (R69). -/
def execAesenc (arg : Byte) (p : Bytes) (s : State) : Result :=
  if arg ≠ 0x00 then raise .illegalCommand s
  else if p.length ≠ 16 then raise .badOperandLength s
  else withKey s fun k => emit (blockBytes (aesEncrypt k.rk (BitVec.ofNat 128 (beNat p)))) s

/-- `GHASH` (R77): no length block. -/
def execGhash (arg : Byte) (p : Bytes) (s : State) : Result :=
  if arg ≠ 0x00 then raise .illegalCommand s
  else withKey s fun k => emit (blockBytes (ghashOf k.h p)) s

end Sys2Proof.Machine
end

