-- ==== Sys2Proof/Machine/Dispatch.lean ====
section
/-! DEFINITION. Which meaning each command has (30_encoding R53). -/

namespace Sys2Proof.Machine

def exec (i : Instr) (s : State) : Host.Outcome State Fault Refusal :=
  match i with
  | .nop arg p => Sys2Proof.Machine.execNop arg p s
  | .ldbk arg p => Sys2Proof.Machine.execLdbk arg p s
  | .ldak arg p => Sys2Proof.Machine.execLdak arg p s
  | .ldst arg p => Sys2Proof.Machine.execLdst arg p s
  | .ldfc arg p => Sys2Proof.Machine.execLdfc arg p s
  | .ldsp arg p => Sys2Proof.Machine.execLdsp arg p s
  | .ldctrl arg p => Sys2Proof.Machine.execLdctrl arg p s
  | .rdreg arg p => Sys2Proof.Machine.execRdreg arg p s
  | .reset arg p => Sys2Proof.Machine.execReset arg p s
  | .aesenc arg p => Sys2Proof.Machine.execAesenc arg p s
  | .ghash arg p => Sys2Proof.Machine.execGhash arg p s
  | .gcminitE arg p => Sys2Proof.Machine.execGcminitE arg p s
  | .gcminitD arg p => Sys2Proof.Machine.execGcminitD arg p s
  | .gcmwrite arg p => Sys2Proof.Machine.execGcmwrite arg p s
  | .gcmfinal arg p => Sys2Proof.Machine.execGcmfinal arg p s
  | .gcmabort arg p => Sys2Proof.Machine.execGcmabort arg p s
  | .cipherPacket arg p => Sys2Proof.Machine.execCipherPacket arg p s
  | .cipherTag arg p => Sys2Proof.Machine.execCipherTag arg p s
  | .cipherData arg p => Sys2Proof.Machine.execCipherData arg p s
  | .cipherDatatag arg p => Sys2Proof.Machine.execCipherDatatag arg p s
  | .secenc arg p => Sys2Proof.Machine.execSecenc arg p s
  | .decipher arg p => Sys2Proof.Machine.execDecipher arg p s

end Sys2Proof.Machine
end

