-- ==== Sys2Proof/Machine/Port.lean ====
section
/-! DEFINITION. The command and response ports: what the engine finds on the command port (20_memory R35,
30_encoding R51, 70_reset_and_hazards R146), and what the host does between steps (R35, R36, R146). -/

namespace Sys2Proof.Machine

/-- What a look at the front of the command port finds. -/
inductive Arrival where
  /-- Not all the bytes are there (R35). -/
  | waiting
  /-- A hardware reset stands before the last of the bytes (R146); the inputs after it. -/
  | reset (rest : List Input)
  /-- The bytes, and the inputs after them. -/
  | bytes (bs : Bytes) (rest : List Input)
deriving DecidableEq, Repr

/-- The next `n` bytes of the port, after the bytes `taken` so far, last first (R35: bytes are taken in
order). -/
def takeBytes (taken : Bytes) : Nat → List Input → Arrival
  | 0, port => .bytes taken.reverse port
  | _ + 1, [] => .waiting
  | _ + 1, .reset :: port => .reset port
  | n + 1, .byte b :: port => takeBytes (b :: taken) n port

/-- The next whole command: a 4-byte header, then as many payload bytes as its LEN says (R51). A reset
marker before the command is whole discards its bytes (R146). -/
def nextArrival (port : List Input) : Arrival :=
  match port with
  | .reset :: rest => .reset rest
  | _ =>
    match takeBytes [] 4 port with
    | .bytes header rest =>
      match takeBytes [] (beNat (header.drop 2)) rest with
      | .bytes p rest' => .bytes (header ++ p) rest'
      | .reset rest' => .reset rest'
      | .waiting => .waiting
    | .reset rest => .reset rest
    | .waiting => .waiting

/-- The host puts bytes on the command port (R35). -/
def hostSends (bs : Bytes) (s : State) : State := { s with port := s.port ++ bs.map .byte }

/-- The host asserts the hardware reset (R146); of the inputs that stand on the port, the first `kept` are
still taken before it and the others are lost (log 4). -/
def hostResets (kept : Nat) (s : State) : State := { s with port := s.port.take kept ++ [.reset] }

/-- The host takes the oldest response (R36, R160). -/
def hostTakes (s : State) : Option Response × State :=
  (s.responses.head?, { s with responses := s.responses.tail })

end Sys2Proof.Machine
end

