-- ==== Sys2Proof/Machine/Sequence.lean ====
section
/-! DEFINITION. From the bytes of a whole command to its effect (30_encoding R54; 70_reset_and_hazards
R146). -/

namespace Sys2Proof.Machine

/-- A whole command runs: the decoded command's meaning, or `IllegalCommand` for an undefined opcode, whose
payload is consumed with it (R54). Bytes that are no whole command make no step (R138). -/
def runCommand (bs : Bytes) (s : State) : Result :=
  match decode bs with
  | .ok (i, _) => exec i s
  | .error (.undefinedOpcode _) => raise .illegalCommand s
  | .error .incomplete => .next s

/-- A whole command has arrived, `rest` stands behind it. If a hardware reset is the next input, the
command completes first or is discarded as a whole with the reset taken, which of the two being free
(R146, 93 U12; log 5). -/
def runArrived (bs : Bytes) (rest : List Input) (s : State) : Result :=
  match rest with
  | .reset :: rest' =>
    if Config.resetDiscards s.resetRaces then
      .next (hardwareReset { s with resetRaces := s.resetRaces + 1 } rest')
    else runCommand bs { s with port := rest, resetRaces := s.resetRaces + 1 }
  | _ => runCommand bs { s with port := rest }

end Sys2Proof.Machine
end

