-- ==== Sys2Proof/Machine/Step.lean ====
section
/-! DEFINITION. One step of the engine: one command, atomically (20_memory R41, R45; 70 R146). -/

namespace Sys2Proof.Machine

/-- One step. With no whole command on the port the engine waits: the state stays (R35, R138, 93 U10; log
2). A reset before the command is whole is the hardware reset (R146). -/
def step (s : State) : Host.Outcome State Fault Refusal :=
  match nextArrival s.port with
  | .waiting => .next s
  | .reset rest => .next (hardwareReset s rest)
  | .bytes bs rest => runArrived bs rest s

/-- The command of an opcode-table word placed where the next step takes it: it is what stands on the
command port (log 11, log 19). -/
def State.withFetchWord (s : State) (nbits w : Nat) : State :=
  { s with port := (tableBytes nbits w).map .byte }

end Sys2Proof.Machine
end

