-- ==== Sys2Proof/Machine/Assembly.lean ====
section
/-! DEFINITION. The assembler text of a command and the pseudo-instructions (30_encoding R59, R60), on
characters. They are the host's tools: the core sees only the bytes they give (log 20). -/

namespace Sys2Proof.Machine

/-- The mnemonics of R53: whether ARG is written (its column in R53 is not `0`), and the command. -/
def mnemonicTable : List (List Char × Bool × (Byte → Bytes → Instr)) := [
  ("NOP".toList, false, .nop), ("LDBK".toList, false, .ldbk), ("LDAK".toList, false, .ldak),
  ("LDST".toList, false, .ldst), ("LDFC".toList, false, .ldfc), ("LDSP".toList, true, .ldsp),
  ("LDCTRL".toList, true, .ldctrl), ("RDREG".toList, true, .rdreg), ("RESET".toList, false, .reset),
  ("AESENC".toList, false, .aesenc), ("GHASH".toList, false, .ghash)] ++ [
  ("GCMINIT.E".toList, true, .gcminitE), ("GCMINIT.D".toList, true, .gcminitD),
  ("GCMWRITE".toList, false, .gcmwrite), ("GCMFINAL".toList, false, .gcmfinal),
  ("GCMABORT".toList, false, .gcmabort), ("CIPHER.PACKET".toList, true, .cipherPacket),
  ("CIPHER.TAG".toList, false, .cipherTag), ("CIPHER.DATA".toList, false, .cipherData),
  ("CIPHER.DATATAG".toList, false, .cipherDatatag), ("SECENC".toList, true, .secenc),
  ("DECIPHER".toList, false, .decipher)]

/-- The value of a hexadecimal digit. -/
def hexDigit (c : Char) : Option Nat :=
  if '0' ≤ c ∧ c ≤ '9' then some (c.toNat - 48)
  else if 'A' ≤ c ∧ c ≤ 'F' then some (c.toNat - 55)
  else if 'a' ≤ c ∧ c ≤ 'f' then some (c.toNat - 87)
  else none

/-- The number a run of digits of base `base` writes; none for an empty run or another character. -/
def digitsValue (base : Nat) (cs : List Char) : Option Nat :=
  if cs = [] then none
  else
    cs.foldl (fun acc c => acc.bind fun a =>
      (hexDigit c).bind fun d => if d < base then some (a * base + d) else none) (some 0)

/-- ARG, a number written `0x30` or `48` (R59), of one byte. -/
def argValue (cs : List Char) : Option Byte :=
  let v := match cs with
    | '0' :: 'x' :: ds => digitsValue 16 ds
    | ds => digitsValue 10 ds
  v.bind fun n => if n < 256 then some (BitVec.ofNat 8 n) else none

/-- A run of hexadecimal byte pairs (R59). -/
def hexBytes : List Char → Option Bytes
  | [] => some []
  | [_] => none
  | a :: b :: cs =>
    match hexDigit a, hexDigit b, hexBytes cs with
    | some x, some y, some r => some (BitVec.ofNat 8 (16 * x + y) :: r)
    | _, _, _ => none

/-- The characters of an ASCII string up to its closing double quote (R59). -/
def quotedBytes : List Char → Option Bytes
  | ['"'] => some []
  | c :: cs => if c = '"' ∨ 127 < c.toNat then none else (quotedBytes cs).map (BitVec.ofNat 8 c.toNat :: ·)
  | [] => none

/-- PAYLOAD: a hex run, optionally with spaces, or a quoted ASCII string; omitted, ε (R59). -/
def payloadValue (cs : List Char) : Option Bytes :=
  match cs.dropWhile (· == ' ') with
  | '"' :: qs => quotedBytes qs
  | hs => hexBytes (hs.filter (· != ' '))

/-- `MNEMONIC [ARG] [, PAYLOAD]` (R59): ARG is required where R53's column is not `0` and is 0 where it is;
the payload must fit LEN. -/
def assemble (line : List Char) : Option Instr :=
  let name := line.takeWhile (· != ' ')
  let rest := line.drop name.length
  match mnemonicTable.find? (fun row => row.1 == name) with
  | none => none
  | some (_, false, make) => (payloadValue rest).bind (checked make 0x00)
  | some (_, true, make) =>
    let argText := (rest.takeWhile (· != ',')).filter (· != ' ')
    (argValue argText).bind fun arg =>
      (payloadValue ((rest.dropWhile (· != ',')).drop 1)).bind (checked make arg)
where
  /-- LEN is 16 bits wide (R51). -/
  checked (make : Byte → Bytes → Instr) (arg : Byte) (p : Bytes) : Option Instr :=
    if (make arg p).encodable then some (make arg p) else none

/-- The pseudo-instructions (R60). -/
inductive Pseudo where
  | clrstat
  | ldkeys (bk ak st : Bytes)
  | gcmE (pol : Byte) (nonce aad data : Bytes)
  | gcmD (pol : Byte) (nonce tag aad data : Bytes)
  | rdfc
  | rdstat
deriving DecidableEq, Repr

/-- The expansion of a pseudo-instruction, in order (R60). -/
def expandPseudo : Pseudo → List Instr
  | .clrstat => [.nop 0x00 []]
  | .ldkeys bk ak st => [.ldbk 0x00 bk, .ldak 0x00 ak, .ldst 0x00 st]
  | .gcmE pol nonce aad data =>
    [.gcminitE pol (nonce ++ aad), .gcmwrite 0x00 data, .gcmfinal 0x00 []]
  | .gcmD pol nonce tag aad data =>
    [.gcminitD pol (nonce ++ (if pol = 0x20 then [] else tag) ++ aad), .gcmwrite 0x00 data,
      .gcmfinal 0x00 []]
  | .rdfc => [.rdreg 0x01 []]
  | .rdstat => [.rdreg 0x02 []]

end Sys2Proof.Machine
end

