-- ==== Sys2Proof/Safety.lean ====
section
/-! DEFINITION. What claims about the core are stated in: safe runs, and the invariants of 10_state R22, R26
and R30. -/

namespace Sys2Proof.Machine

/-- A state from which the engine never stops (R138): every number of steps answers a next state. -/
def State.Safe (s : State) : Prop := ∀ n, ∃ t : State, Host.Core.run Sys2Proof.core n s = .next t

/-- The reserved bits 7:1 of CTRL are 0 (R22). -/
def ctrlReservedZero (s : State) : Prop := s.ctrl &&& 0xFE = 0x00

/-- RK, H and M are those of the loaded BK (R26, R50). -/
def derivedFromKey (k : CipherKey) : Prop :=
  k.rk = keyExpansion k.bk ∧ k.h = aesEncrypt k.rk 0 ∧ k.m = shoupTables k.h

/-- RK, H and M are those of BK whenever BK holds a value (R26). -/
def keyDerived (s : State) : Prop := ∀ k, s.key = some k → derivedFromKey k

/-- `J0` with its low 32 bits increased by `n` modulo 2^32 (R30). -/
def counterAfter (j0 : Block) (n : Nat) : Block :=
  j0.extractLsb' 32 96 ++ (j0.extractLsb' 0 32 + BitVec.ofNat 32 n)

/-- The invariants of an ACTIVE stream: R30, the widths of R28, the limits of R85, the form of S.J0 (R79),
S.H keyed by S.RK, and an expected tag exactly where a decrypt stream authenticates (R28). `nblk_limit`
counts the short block that GCMFINAL will process, so its counter does not wrap either (R80, R85; log 21). -/
structure streamSound (t : Stream) : Prop where
  buf_short : t.buf.length < 16
  lenC_counts : t.lenC = t.out.length + t.buf.length
  out_whole : t.out.length % 16 = 0
  nblk_counts : t.nblk = if t.pol = .authentication then 0 else t.out.length / 16
  cb_counts : t.cb = counterAfter t.j0 t.nblk
  nblk_limit : t.nblk + (t.buf.length + 15) / 16 ≤ 2 ^ 32 - 2
  lenC_limit : t.lenC ≤ Config.outbufCap
  lenA_limit : t.lenA ≤ 65523
  j0_form : t.j0.extractLsb' 0 32 = 1#32
  h_keyed : t.h = aesEncrypt t.rk 0
  tag_expected : t.tagIn.isSome = (t.dir == .decrypt && authenticates t.pol)

/-- The stream, when ACTIVE, meets R30 and the widths of R28. -/
def streamInvariant (s : State) : Prop := ∀ t, s.stream = some t → streamSound t

/-- The three invariants together. -/
def coreInvariant (s : State) : Prop := ctrlReservedZero s ∧ keyDerived s ∧ streamInvariant s

/-- What STATUS and GCMWRITE show of a stream (R23, R31, R84): direction, policy, S.LENC, S.NBLK and the
length of S.BUF. -/
def streamShown (t : Stream) : Direction × Policy × Nat × Nat × Nat :=
  (t.dir, t.pol, t.lenC, t.nblk, t.buf.length)

/-- Two states that agree on all but BK, RK, H, M, AK and what a stream hides (R31). -/
def sameButSecrets (s u : State) : Prop :=
  u = { s with key := u.key, ak := u.ak, stream := u.stream } ∧ u.key.isSome = s.key.isSome ∧
    u.ak.isSome = s.ak.isSome ∧ u.stream.map streamShown = s.stream.map streamShown

/-- A run of commands through `exec`, one after the other, each from the state the one before it left
(R45). -/
def execAll : List Instr → State → Result
  | [], s => .next s
  | i :: is, s =>
    match exec i s with
    | .next t => execAll is t
    | .fault r => .fault r
    | .refused r => .refused r

/-- Does `SECENC ct` cipher in this state (R97): SP is not None and `ct` is no association tag? -/
def ciphersWith (s : State) (ct : Byte) : Prop := s.sp ≠ 0x00 ∧ ct ∉ associationTags

/-- The ciphered `SECENC`s of a run that ended with ERR = 0 (R100). -/
def cipheredSends : List Instr → State → Nat
  | [], _ => 0
  | i :: is, s =>
    match exec i s with
    | .next t =>
      (match i with
       | .secenc ct _ => if s.sp ≠ 0x00 ∧ ct ∉ associationTags ∧ t.err = .ok then 1 else 0
       | _ => 0) + cipheredSends is t
    | .fault _ => 0
    | .refused _ => 0

end Sys2Proof.Machine
end

