-- ==== Sys2Proof/Certificates/Slice0/Obligations.lean ====
section
/-! DEFINITION. The statements for the provers. In every one, `s.complete e out` is `s` with STATUS.ERR = e
and one more response (e, out), and nothing else changed; an equation `exec i s = .next (…)` therefore
states the result, the completion and the frame of the command at once. That the responses before it stay
where they are until the host takes them is the model's choice (log 3). Where the spec marks a rule as its
own inference from other rules ("[derived: …]"), the docstring says so. Where a statement bounds a payload
by more than the 65535 bytes LEN can say, or not at all, what it says beyond them is the model's (log 15). -/

open Sys2Proof Sys2Proof.Machine

/-! ### Encoding -/

/-- R51: a command is its 4-byte header and its payload; the header word is
`OPC·2^24 + ARG·2^16 + LEN`; the length is known from the first four bytes, and the decoder needs nothing
else to find the next command. -/
def Obligations.DecodeOfEncodeIsTheCommand : Prop :=
  ∀ (i : Instr) (rest : Bytes), i.encodable = true →
    decode (encode i ++ rest) = .ok (i, rest) ∧
    (encode i).length = 4 + i.payload.length ∧
    beNat ((encode i).take 4) = i.opcode.toNat * 2 ^ 24 + i.arg.toNat * 2 ^ 16 + i.payload.length

/-- R51, R52: the decoder drops and invents no byte: what it reads is an encodable command whose encoding
stands at the front of the bytes. -/
def Obligations.DecodedBytesAreTheEncoding : Prop :=
  ∀ (bs rest : Bytes) (i : Instr), decode bs = .ok (i, rest) →
    i.encodable = true ∧ bs = encode i ++ rest

/-- One word for each OPC of R53, written out, decodes to the command it stands for. -/
def Obligations.SpecWordsDecode : Prop :=
  decode [0x00, 0x00, 0x00, 0x00] = .ok (.nop 0x00 [], []) ∧
  decode [0x01, 0x00, 0x00, 0x02, 0x00, 0x01] = .ok (.ldbk 0x00 [0x00, 0x01], []) ∧
  decode [0x02, 0x00, 0x00, 0x01, 0xD0] = .ok (.ldak 0x00 [0xD0], []) ∧
  decode [0x03, 0x00, 0x00, 0x02, 0x41, 0x42] = .ok (.ldst 0x00 [0x41, 0x42], []) ∧
  decode [0x04, 0x00, 0x00, 0x04, 0x01, 0x23, 0x45, 0x67] =
    .ok (.ldfc 0x00 [0x01, 0x23, 0x45, 0x67], []) ∧
  decode [0x05, 0x30, 0x00, 0x00] = .ok (.ldsp 0x30 [], []) ∧
  decode [0x06, 0x01, 0x00, 0x00] = .ok (.ldctrl 0x01 [], []) ∧
  decode [0x07, 0x01, 0x00, 0x00] = .ok (.rdreg 0x01 [], []) ∧
  decode [0x0F, 0x00, 0x00, 0x00] = .ok (.reset 0x00 [], []) ∧
  decode [0x10, 0x00, 0x00, 0x01, 0xFF] = .ok (.aesenc 0x00 [0xFF], []) ∧
  decode [0x11, 0x00, 0x00, 0x02, 0xAB, 0xCD, 0xEF] = .ok (.ghash 0x00 [0xAB, 0xCD], [0xEF]) ∧
  decode [0x20, 0x30, 0x00, 0x01, 0x0A] = .ok (.gcminitE 0x30 [0x0A], []) ∧
  decode [0x21, 0x20, 0x00, 0x01, 0x0B] = .ok (.gcminitD 0x20 [0x0B], []) ∧
  decode [0x22, 0x00, 0x00, 0x01, 0x0C] = .ok (.gcmwrite 0x00 [0x0C], []) ∧
  decode [0x23, 0x00, 0x00, 0x00] = .ok (.gcmfinal 0x00 [], []) ∧
  decode [0x24, 0x00, 0x00, 0x00] = .ok (.gcmabort 0x00 [], []) ∧
  decode [0x40, 0xC8, 0x00, 0x05, 0x48, 0x65, 0x6C, 0x6C, 0x6F] =
    .ok (.cipherPacket 0xC8 [0x48, 0x65, 0x6C, 0x6C, 0x6F], []) ∧
  decode [0x41, 0x00, 0x00, 0x01, 0x48] = .ok (.cipherTag 0x00 [0x48], []) ∧
  decode [0x42, 0x00, 0x00, 0x01, 0x48] = .ok (.cipherData 0x00 [0x48], []) ∧
  decode [0x43, 0x00, 0x00, 0x01, 0x48] = .ok (.cipherDatatag 0x00 [0x48], []) ∧
  decode [0x44, 0x60, 0x00, 0x00] = .ok (.secenc 0x60 [], []) ∧
  decode [0x48, 0x00, 0x00, 0x01, 0xC7] = .ok (.decipher 0x00 [0xC7], [])

/-- R54: an OPC that R53 does not list is `IllegalCommand`, its payload is consumed and discarded and
nothing else changes; so is a listed OPC whose ARG violates R53's ARG column. -/
def Obligations.IllegalCommandsChangeNothing : Prop :=
  (∀ (opc arg : Byte) (p : Bytes) (rest : List Input) (s : State),
    opc ∉ ([0x00, 0x01, 0x02, 0x03, 0x04, 0x05, 0x06, 0x07, 0x0F, 0x10, 0x11, 0x20, 0x21, 0x22, 0x23,
      0x24, 0x40, 0x41, 0x42, 0x43, 0x44, 0x48] : Bytes) →
    p.length ≤ 65535 → rest.head? ≠ some .reset →
    step { s with port := (opc :: arg :: (beBytes 2 p.length ++ p)).map .byte ++ rest } =
      .next (({ s with port := rest }).complete .illegalCommand [])) ∧
  (∀ (i : Instr) (s : State), i.argAccepted = false →
    exec i s = .next (s.complete .illegalCommand []))

/-- R53: a well-formed command never ends in an error of its form. -/
def Obligations.WellFormedCommandsHaveNoFormatError : Prop :=
  ∀ (i : Instr) (s : State), i.wellFormed = true →
    ∃ t : State, exec i s = .next t ∧ t.err ≠ .illegalCommand ∧ t.err ≠ .invalidKeyLength ∧
      t.err ≠ .badOperandLength

/-- R56: `CountDec` reads back what `CountEnc` writes, wherever it stands; it accepts the forms 81 to 84,
minimal or not, and nothing else; counts that are cut off are rejected. -/
def Obligations.CountEncodingRoundTrip : Prop :=
  (∀ (n : Nat) (before after : Bytes), n < 2 ^ 32 →
    countDec (before ++ countEnc n ++ after) before.length =
      some (n, before.length + (countEnc n).length)) ∧
  (∀ n : Nat, n < 2 ^ 32 → (countEnc n).length =
    if n < 0x80 then 1 else if n < 0x100 then 2 else if n < 0x10000 then 3 else 5) ∧
  (∀ (c : Byte) (before after : Bytes), c.toNat < 0x80 →
    countDec (before ++ c :: after) before.length = some (c.toNat, before.length + 1)) ∧
  (∀ (c : Byte) (before digits after : Bytes), 0x81 ≤ c.toNat → c.toNat ≤ 0x84 →
    digits.length = c.toNat - 0x80 →
    countDec (before ++ c :: (digits ++ after)) before.length =
      some (beNat digits, before.length + 1 + digits.length)) ∧
  (∀ (c : Byte) (before after : Bytes), 0x81 ≤ c.toNat → c.toNat ≤ 0x84 →
    after.length < c.toNat - 0x80 → countDec (before ++ c :: after) before.length = none) ∧
  (∀ (c : Byte) (before after : Bytes), c.toNat = 0x80 ∨ 0x85 ≤ c.toNat →
    countDec (before ++ c :: after) before.length = none) ∧
  (∀ (b : Bytes) (i : Nat), b.length ≤ i → countDec b i = none)

/-! ### The engine's step -/

/-- R35, R45: when a whole command stands at the front of the command port and no reset meets it, one step
is that command's meaning, its bytes being consumed. That the port is a list in State is the model's
reading (log 2). -/
def Obligations.StepRunsTheDecodedCommand : Prop :=
  ∀ (i : Instr) (s : State) (rest : List Input), i.encodable = true → rest.head? ≠ some .reset →
    step { s with port := (encode i).map .byte ++ rest } = exec i { s with port := rest }

/-- R138: the engine never stops on its own; it waits, its state unchanged, exactly while the bytes of a
command have not all arrived; and a whole command that no reset meets gets one response. That the wait is
a step that changes nothing is the model's reading of "the engine making no step" (log 2). -/
def Obligations.EngineNeverStops : Prop :=
  (∀ s : State, s.Safe) ∧
  (∀ (opc arg : Byte) (p : Bytes) (n : Nat) (s : State), p.length ≤ 65535 → n < 4 + p.length →
    s.port = ((opc :: arg :: (beBytes 2 p.length ++ p)).take n).map .byte → step s = .next s) ∧
  (∀ (opc arg : Byte) (p : Bytes) (rest : List Input) (s : State), p.length ≤ 65535 →
    rest.head? ≠ some .reset →
    s.port = (opc :: arg :: (beBytes 2 p.length ++ p)).map .byte ++ rest →
    ∃ t r, step s = .next t ∧ t.port = rest ∧ t.responses = s.responses ++ [r])

/-- R146 and R32: a hardware reset in place of the command being received discards it without a response
and leaves every piece of state at its reset value; one that meets a whole command, of a listed or of an
undefined opcode, lets it complete or discards it as a whole. That delivered responses stay delivered and
that the model's own race counter keeps counting are the model's choices (logs 3 and 5). -/
def Obligations.HardwareResetIsWholeOrNothing : Prop :=
  (∀ (opc arg : Byte) (p : Bytes) (n : Nat) (rest : List Input) (s : State),
    p.length ≤ 65535 → n < 4 + p.length →
    step { s with
      port := ((opc :: arg :: (beBytes 2 p.length ++ p)).take n).map .byte ++ .reset :: rest } =
      .next { State.reset with
        port := rest, responses := s.responses, resetRaces := s.resetRaces }) ∧
  (∀ (i : Instr) (rest : List Input) (s : State), i.encodable = true →
    step { s with port := (encode i).map .byte ++ .reset :: rest } =
      .next { State.reset with
        port := rest, responses := s.responses, resetRaces := s.resetRaces + 1 } ∨
    step { s with port := (encode i).map .byte ++ .reset :: rest } =
      exec i { s with port := .reset :: rest, resetRaces := s.resetRaces + 1 }) ∧
  (∀ (opc arg : Byte) (p : Bytes) (rest : List Input) (s : State),
    opc ∉ ([0x00, 0x01, 0x02, 0x03, 0x04, 0x05, 0x06, 0x07, 0x0F, 0x10, 0x11, 0x20, 0x21, 0x22, 0x23,
      0x24, 0x40, 0x41, 0x42, 0x43, 0x44, 0x48] : Bytes) → p.length ≤ 65535 →
    step { s with
      port := (opc :: arg :: (beBytes 2 p.length ++ p)).map .byte ++ .reset :: rest } =
      .next { State.reset with
        port := rest, responses := s.responses, resetRaces := s.resetRaces + 1 } ∨
    step { s with
      port := (opc :: arg :: (beBytes 2 p.length ++ p)).map .byte ++ .reset :: rest } =
      .next (({ s with
        port := .reset :: rest, resetRaces := s.resetRaces + 1 }).complete .illegalCommand []))

/-- R32: the values right after a hardware reset, and what a host then reads (V60). -/
def Obligations.ResetValuesReadBack : Prop :=
  State.reset.key = none ∧ State.reset.ak = none ∧ State.reset.st = none ∧
  State.reset.stream = none ∧ State.reset.port = [] ∧
  exec (.rdreg 0x00 []) State.reset = .next (State.reset.complete .ok [0x00]) ∧
  exec (.rdreg 0x01 []) State.reset = .next (State.reset.complete .ok [0x00, 0x00, 0x00, 0x00]) ∧
  exec (.rdreg 0x02 []) State.reset = .next (State.reset.complete .ok [0x00, 0x00]) ∧
  exec (.rdreg 0x03 []) State.reset = .next (State.reset.complete .ok [0x00]) ∧
  exec (.rdreg 0x04 []) State.reset = .next (State.reset.complete .ok [0x00]) ∧
  exec (.rdreg 0x05 []) State.reset = .next (State.reset.complete .ok [0x00, 0x00, 0x00, 0x00]) ∧
  exec (.rdreg 0x06 []) State.reset = .next (State.reset.complete .keyNotLoaded [])

/-- The core's invariants hold right after a hardware reset. -/
def Obligations.ResetMeetsTheInvariants : Prop := coreInvariant State.reset

/-- R160: no command's effects depend on when its response is read: with other responses standing on the
port, a step is the same but for them. That responses queue without bound is the model's choice (log 3). -/
def Obligations.UnreadResponsesChangeNothing : Prop :=
  ∀ s : State, ∃ (t : State) (new : List Response), step s = .next t ∧
    t.responses = s.responses ++ new ∧
    ∀ old : List Response,
      step { s with responses := old } = .next { t with responses := old ++ new }

/-! ### Every command -/

/-- R36: each completed command produces exactly one response (ERR, OUT), ERR being the outcome that
STATUS.ERR then holds and OUT empty on any error; responses come after those before. That the queue keeps
every earlier response is the model's choice (log 3), and the last clause is about the model's own counter
(log 5). -/
def Obligations.OneResponsePerCommand : Prop :=
  ∀ (i : Instr) (s : State), ∃ (t : State) (r : Response), exec i s = .next t ∧
    t.responses = s.responses ++ [r] ∧ t.err = r.err ∧ (r.err ≠ .ok → r.out = []) ∧
    t.port = s.port ∧ t.resetRaces = s.resetRaces

/-- R123 and R124: a failed command changes STATUS.ERR alone and emits nothing, except that GCMWRITE with
LengthLimit ends the stream, GCMFINAL with InvalidTag has ended it and clears TAGMM, and DECIPHER with
InvalidTag clears TAGMM. -/
def Obligations.FailedCommandsChangeOnlyErr : Prop :=
  ∀ (i : Instr) (s t : State), exec i s = .next t → t.err ≠ .ok →
    (∀ a p, i = .gcmwrite a p → t.err = .lengthLimit →
      t = ({ s with stream := none }).complete .lengthLimit []) ∧
    (∀ a p, i = .gcmfinal a p → t.err = .invalidTag →
      t = ({ s with stream := none, tagmm := false }).complete .invalidTag []) ∧
    (∀ a p, i = .decipher a p → t.err = .invalidTag →
      t = ({ s with tagmm := false }).complete .invalidTag []) ∧
    (t.err ≠ .lengthLimit → t.err ≠ .invalidTag → t = s.complete t.err []) ∧
    (t.err = .lengthLimit → ∃ a p, i = .gcmwrite a p) ∧
    (t.err = .invalidTag → (∃ a p, i = .gcmfinal a p) ∨ ∃ a p, i = .decipher a p)

/-- R21: FC is written by LDFC, by RESET (to 0) and by SECENC (plus exactly 1 after a successful ciphered
encrypt), and by no other command; big-endian, it is the low 4 bytes of the 12-byte nonce under the
SystemTitle. -/
def Obligations.FrameCounterHasThreeWriters : Prop :=
  (∀ (i : Instr) (s t : State), exec i s = .next t →
    (∀ a p, i = .ldfc a p → t.err = .ok → beBytes 4 t.fc.toNat = p) ∧
    (∀ a p, i = .reset a p → t.err = .ok → t.fc = 0) ∧
    (∀ a p, i = .secenc a p → t.err = .ok → ciphersWith s a → t.fc = s.fc + 1) ∧
    (t.fc ≠ s.fc → t.err = .ok ∧ ((∃ a p, i = .ldfc a p) ∨ (∃ a p, i = .reset a p) ∨
      ∃ a p, i = .secenc a p ∧ ciphersWith s a))) ∧
  (∀ (st : Title) (fc : BitVec 32),
    beBytes 12 (formatterNonce st fc).toNat = beBytes 8 st.toNat ++ beBytes 4 fc.toNat)

/-- R100 (which the spec marks as derived): over any run of commands without LDFC and RESET, FC grows by
the number of ciphered SECENCs that ended with ERR = 0, modulo 2^32; with FC_OVERFLOW = Fault the modulus
never applies. -/
def Obligations.FrameCounterCountsSuccessfulSends : Prop :=
  ∀ (is : List Instr) (s : State),
    (∀ i ∈ is, ∀ a p, i ≠ .ldfc a p ∧ i ≠ .reset a p) →
    ∃ t : State, execAll is s = .next t ∧
      t.fc.toNat = (s.fc.toNat + cipheredSends is s) % 2 ^ 32 ∧
      (Config.fcOverflow = .fault → t.fc.toNat = s.fc.toNat + cipheredSends is s)

/-- R29: the other commands neither read nor change an ACTIVE stream; in IDLE, GCMWRITE and GCMFINAL raise
StreamState, and only GCMINIT starts a stream; after reset the stream is IDLE. -/
def Obligations.StreamIsIndependentOfOtherCommands : Prop :=
  (∀ (a : Byte) (p : Bytes) (i : Instr) (s : State),
    i ∈ ([.ldbk a p, .ldak a p, .ldst a p, .ldfc a p, .ldsp a p, .reset a p, .aesenc a p, .ghash a p,
      .cipherPacket a p, .cipherTag a p, .cipherData a p, .cipherDatatag a p, .secenc a p,
      .decipher a p] : List Instr) →
    ∃ t : State, exec i s = .next t ∧ t.stream = s.stream ∧
      ∀ x : Option Stream, exec i { s with stream := x } = .next { t with stream := x }) ∧
  (∀ (p : Bytes) (s : State), s.stream = none →
    exec (.gcmwrite 0x00 p) s = .next (s.complete .streamState []) ∧
    exec (.gcmfinal 0x00 p) s = .next (s.complete .streamState [])) ∧
  (∀ (i : Instr) (s t : State), exec i s = .next t → s.stream = none → t.stream ≠ none →
    (∃ a p, i = .gcminitE a p) ∨ ∃ a p, i = .gcminitD a p) ∧
  State.reset.stream = none

/-- R152 (which the spec marks as derived): a stream does not follow the registers: with other keys,
title, policy, counter and receive registers, GCMWRITE and GCMFINAL do the same to the stream and answer
the same. -/
def Obligations.StreamIgnoresTheRegisters : Prop :=
  ∀ (a : Byte) (p : Bytes) (i : Instr) (s : State),
    i ∈ ([.gcmwrite a p, .gcmfinal a p] : List Instr) →
    ∃ t : State, exec i s = .next t ∧
      ∀ (k : Option CipherKey) (ak : Option Block) (st : Option Title) (sp rxsp : Byte)
        (fc rxfc : BitVec 32),
        exec i { s with
          key := k, ak := ak, st := st, sp := sp, fc := fc, rxsp := rxsp, rxfc := rxfc } =
        .next { t with
          key := k, ak := ak, st := st, sp := sp, fc := fc, rxsp := rxsp, rxfc := rxfc }

/-- R31: BK, AK, RK, H, M and the stream's contents cannot be read back. Two states that agree on all but
them answer the same to every command other than those whose output R31 names (GCMFINAL, AESENC, GHASH,
CIPHER, SECENC, DECIPHER), and still agree on all but them afterwards. What two streams must agree on is
what GCMWRITE and STATUS show: direction, policy, S.LENC, S.NBLK and how full S.BUF is. -/
def Obligations.SecretsAreNotReadBack : Prop :=
  ∀ (a : Byte) (p : Bytes) (i : Instr) (s u : State), sameButSecrets s u →
    i ∈ ([.nop a p, .ldbk a p, .ldak a p, .ldst a p, .ldfc a p, .ldsp a p, .ldctrl a p, .rdreg a p,
      .reset a p, .gcminitE a p, .gcminitD a p, .gcmwrite a p, .gcmabort a p] : List Instr) →
    ∃ (t v : State) (r : Response), exec i s = .next t ∧ exec i u = .next v ∧
      t.responses = s.responses ++ [r] ∧ v.responses = u.responses ++ [r] ∧ sameButSecrets t v

/-- R131 (which the spec marks as derived): TAGMM is written by NOP (cleared), by GCMFINAL of a decrypt
stream that authenticates and by DECIPHER of an envelope that authenticates, and left by every other
command. -/
def Obligations.TagMismatchFlagLifetime : Prop :=
  (∀ (i : Instr) (s t : State), exec i s = .next t → t.tagmm ≠ s.tagmm →
    (∃ a p, i = .nop a p ∧ t.tagmm = false) ∨
    (∃ a p x, i = .gcmfinal a p ∧ s.stream = some x ∧ x.dir = .decrypt ∧ x.pol ≠ .encryption) ∨
    ∃ a p v, i = .decipher a p ∧ parseEnvelope p = .ok v ∧ (v.sp = 0x10 ∨ v.sp = 0x30)) ∧
  State.reset.tagmm = false

/-- R130: with DIAG = 1 a command does what it does with DIAG = 0, except that a tag mismatch is no
`InvalidTag`: it completes with OK and TAGMM = 1. (LDCTRL and RDREG write and read CTRL itself.) -/
def Obligations.TraceModeChangesOnlyTagMismatches : Prop :=
  ∀ (i : Instr) (s : State), (∀ a p, i ≠ .ldctrl a p) → (∀ a p, i ≠ .rdreg a p) →
    ∃ t u : State, exec i { s with ctrl := 0x00 } = .next t ∧ exec i { s with ctrl := 0x01 } = .next u ∧
      (t.err ≠ .invalidTag → u = { t with ctrl := 0x01 }) ∧
      (t.err = .invalidTag → t.tagmm = false ∧ u.err = .ok ∧ u.tagmm = true)

/-! ### Invariants of every step -/

/-- R22: the reserved bits 7:1 of CTRL read as 0 in every state a step answers from one where they do. -/
def Obligations.ReservedControlBitsStayZero : Prop :=
  ∀ s t : State, ctrlReservedZero s → step s = .next t → ctrlReservedZero t

/-- R26, R50: RK, H and M are at every step those of the loaded BK: no step leaves a stale one. -/
def Obligations.DerivedKeyMaterialIsNeverStale : Prop :=
  ∀ s t : State, keyDerived s → step s = .next t → keyDerived t

/-- R30 (which the spec marks as derived), R28, R85: every step keeps the stream's invariants. The premise
about RK and H is the invariant `DerivedKeyMaterialIsNeverStale`. That the counter bound includes the short
last block is the model's reading of R85 (log 21). -/
def Obligations.StreamInvariantsHoldAfterEveryStep : Prop :=
  ∀ s t : State, keyDerived s → streamInvariant s → step s = .next t → streamInvariant t

/-! ### Registers -/

/-- R23: the fields of the STATUS word, with the twelve codes of R121. -/
def Obligations.StatusWordFields : Prop :=
  (errCode .ok = 0 ∧ errCode .invalidKeyLength = 1 ∧ errCode .invalidTag = 2 ∧
    errCode .unknownCommand = 3 ∧ errCode .unsupportedSecurityPolicy = 4 ∧ errCode .keyNotLoaded = 5 ∧
    errCode .malformedEnvelope = 6 ∧ errCode .streamState = 7 ∧ errCode .illegalCommand = 8 ∧
    errCode .lengthLimit = 9 ∧ errCode .badOperandLength = 10 ∧ errCode .counterExhausted = 11) ∧
  ∀ s : State,
    (statusWord s).extractLsb' 0 4 = errCode s.err ∧
    (statusWord s).getLsbD 4 = s.tagmm ∧
    ((statusWord s).getLsbD 5 = true ↔ s.sp ≠ 0x00) ∧
    (statusWord s).extractLsb' 6 2 = (if s.stream = none then 0 else 1) ∧
    (statusWord s).getLsbD 8 = s.key.isSome ∧
    (statusWord s).getLsbD 9 = s.ak.isSome ∧
    (statusWord s).getLsbD 10 = s.st.isSome ∧
    ((statusWord s).getLsbD 11 = true ↔ ∃ x, s.stream = some x ∧ x.dir = .decrypt) ∧
    (statusWord s).extractLsb' 12 4 = 0

/-- R58: a response is one byte with the code in bits 3:0 and bits 7:4 zero, four bytes of output length,
and the output (for outputs below 2^32 bytes); on any error the output is empty. -/
def Obligations.ResponseByteFormat : Prop :=
  (∀ (e : ErrCode) (out : Bytes), out.length < 2 ^ 32 →
    ∃ b : Byte, responseBytes ⟨e, out⟩ = b :: (beBytes 4 out.length ++ out) ∧
      b.extractLsb' 0 4 = errCode e ∧ b.extractLsb' 4 4 = 0) ∧
  (∀ (i : Instr) (s : State), ∃ (t : State) (r : Response), exec i s = .next t ∧
    t.responses = s.responses ++ [r] ∧
    (r.err ≠ .ok → ∃ b : Byte, responseBytes r = [b, 0x00, 0x00, 0x00, 0x00]))

/-- R106: NOP clears TAGMM; ARG and then LEN are checked. -/
def Obligations.NopClearsTheTagMismatchFlag : Prop :=
  ∀ (a : Byte) (p : Bytes) (s : State),
    (a ≠ 0x00 → exec (.nop a p) s = .next (s.complete .illegalCommand [])) ∧
    (p ≠ [] → exec (.nop 0x00 p) s = .next (s.complete .badOperandLength [])) ∧
    exec (.nop 0x00 []) s = .next (({ s with tagmm := false }).complete .ok [])

/-- R107, R108: LDAK and LDST hold exactly the payload's bytes, of exactly 16 and 8 bytes; every other
length keeps what was loaded. -/
def Obligations.AuthenticationKeyAndTitleLoad : Prop :=
  ∀ (a : Byte) (p : Bytes) (s : State),
    (a ≠ 0x00 → exec (.ldak a p) s = .next (s.complete .illegalCommand []) ∧
      exec (.ldst a p) s = .next (s.complete .illegalCommand [])) ∧
    (p.length ≠ 16 → exec (.ldak 0x00 p) s = .next (s.complete .invalidKeyLength [])) ∧
    (p.length ≠ 8 → exec (.ldst 0x00 p) s = .next (s.complete .invalidKeyLength [])) ∧
    (p.length = 16 → ∃ k : Block, blockBytes k = p ∧
      exec (.ldak 0x00 p) s = .next (({ s with ak := some k }).complete .ok [])) ∧
    (p.length = 8 → ∃ t : Title, beBytes 8 t.toNat = p ∧
      exec (.ldst 0x00 p) s = .next (({ s with st := some t }).complete .ok []))

/-- R109: LDFC sets FC to the 4-byte big-endian payload; RDREG 1 then answers those bytes. -/
def Obligations.FrameCounterLoadsAndReadsBack : Prop :=
  ∀ (a : Byte) (p : Bytes) (s : State),
    (a ≠ 0x00 → exec (.ldfc a p) s = .next (s.complete .illegalCommand [])) ∧
    (p.length ≠ 4 → exec (.ldfc 0x00 p) s = .next (s.complete .badOperandLength [])) ∧
    (p.length = 4 → ∃ fc : BitVec 32, fc.toNat = beNat p ∧
      exec (.ldfc 0x00 p) s = .next (({ s with fc := fc }).complete .ok []) ∧
      exec (.rdreg 0x01 []) (({ s with fc := fc }).complete .ok []) =
        .next ((({ s with fc := fc }).complete .ok []).complete .ok p))

/-- R110: LDSP stores every byte, and RDREG 0 answers it unchanged; CIPHERED then reads (ARG ≠ 0x00). -/
def Obligations.PolicyByteRoundTrips : Prop :=
  ∀ (a : Byte) (p : Bytes) (s : State),
    (p ≠ [] → exec (.ldsp a p) s = .next (s.complete .badOperandLength [])) ∧
    ∃ t : State, t = ({ s with sp := a }).complete .ok [] ∧ exec (.ldsp a []) s = .next t ∧
      ((statusWord t).getLsbD 5 = true ↔ a ≠ 0x00) ∧
      exec (.rdreg 0x00 []) t = .next (t.complete .ok [a])

/-- R111: LDCTRL writes CTRL when bits 7:1 of ARG are 0 and refuses otherwise; ARG is checked before LEN. -/
def Obligations.ControlLoadRefusesReservedBits : Prop :=
  ∀ (a : Byte) (p : Bytes) (s : State),
    (a &&& 0xFE ≠ 0x00 → exec (.ldctrl a p) s = .next (s.complete .illegalCommand [])) ∧
    (a &&& 0xFE = 0x00 → p ≠ [] → exec (.ldctrl a p) s = .next (s.complete .badOperandLength [])) ∧
    (a &&& 0xFE = 0x00 → exec (.ldctrl a []) s = .next (({ s with ctrl := a }).complete .ok []))

/-- R112, R27: RDREG answers the register's bytes, big-endian, as they stood before the command, and
changes nothing but ERR. -/
def Obligations.RegisterReads : Prop :=
  ∀ (n : Byte) (p : Bytes) (s : State),
    (6 < n.toNat → exec (.rdreg n p) s = .next (s.complete .illegalCommand [])) ∧
    (n.toNat ≤ 6 → p ≠ [] → exec (.rdreg n p) s = .next (s.complete .badOperandLength [])) ∧
    exec (.rdreg 0x00 []) s = .next (s.complete .ok [s.sp]) ∧
    exec (.rdreg 0x01 []) s = .next (s.complete .ok (beBytes 4 s.fc.toNat)) ∧
    exec (.rdreg 0x02 []) s = .next (s.complete .ok (beBytes 2 (statusWord s).toNat)) ∧
    exec (.rdreg 0x03 []) s = .next (s.complete .ok [s.ctrl]) ∧
    exec (.rdreg 0x04 []) s = .next (s.complete .ok [s.rxsp]) ∧
    exec (.rdreg 0x05 []) s = .next (s.complete .ok (beBytes 4 s.rxfc.toNat)) ∧
    (∀ t, s.st = some t → exec (.rdreg 0x06 []) s = .next (s.complete .ok (beBytes 8 t.toNat))) ∧
    (s.st = none → exec (.rdreg 0x06 []) s = .next (s.complete .keyNotLoaded []))

/-- R42 (which the spec marks as derived): a read has no side effect but ERR, and two reads of a register
give the same, except that RDREG 2 the second time shows the first read's own outcome. -/
def Obligations.ReadsAreIdempotent : Prop :=
  ∀ (n : Byte) (s : State), ∃ (t u : State) (r : Response),
    exec (.rdreg n []) s = .next t ∧ t = s.complete r.err r.out ∧ exec (.rdreg n []) t = .next u ∧
    (n ≠ 0x02 → u.responses = t.responses ++ [r]) ∧
    (n = 0x02 → ∃ w : BitVec 16, u.responses = t.responses ++ [⟨.ok, beBytes 2 w.toNat⟩] ∧
      w.extractLsb' 0 4 = errCode .ok ∧ w.extractLsb' 4 12 = (statusWord s).extractLsb' 4 12)

/-- R113, R147: RESET sets SP to None and FC to 0 and keeps everything else, the keys and an ACTIVE stream
among it. -/
def Obligations.SoftResetKeepsKeysAndStream : Prop :=
  ∀ (a : Byte) (p : Bytes) (s : State),
    (a ≠ 0x00 → exec (.reset a p) s = .next (s.complete .illegalCommand [])) ∧
    (p ≠ [] → exec (.reset 0x00 p) s = .next (s.complete .badOperandLength [])) ∧
    exec (.reset 0x00 []) s = .next (({ s with sp := 0x00, fc := 0 }).complete .ok [])

/-! ### AES and GHASH -/

/-- R68: LDBK writes BK and, in the same command, RK, H and M; any other form keeps the old ones. -/
def Obligations.BlockKeyLoadRederives : Prop :=
  ∀ (a : Byte) (p : Bytes) (s : State),
    (a ≠ 0x00 → exec (.ldbk a p) s = .next (s.complete .illegalCommand [])) ∧
    (p.length ≠ 16 → exec (.ldbk 0x00 p) s = .next (s.complete .invalidKeyLength [])) ∧
    (p.length = 16 → ∃ k : CipherKey, blockBytes k.bk = p ∧ k.rk = keyExpansion k.bk ∧
      k.h = aesEncrypt k.rk 0 ∧ k.m = shoupTables k.h ∧
      exec (.ldbk 0x00 p) s = .next (({ s with key := some k }).complete .ok []))

/-- R69: AESENC answers the forward transform of its block under the loaded round keys; its errors in
order. -/
def Obligations.AesencEncryptsOneBlock : Prop :=
  ∀ (a : Byte) (p : Bytes) (s : State),
    (a ≠ 0x00 → exec (.aesenc a p) s = .next (s.complete .illegalCommand [])) ∧
    (p.length ≠ 16 → exec (.aesenc 0x00 p) s = .next (s.complete .badOperandLength [])) ∧
    (p.length = 16 → s.key = none → exec (.aesenc 0x00 p) s = .next (s.complete .keyNotLoaded [])) ∧
    (∀ (k : CipherKey) (b : Block), s.key = some k →
      exec (.aesenc 0x00 (blockBytes b)) s = .next (s.complete .ok (blockBytes (aesEncrypt k.rk b))))

/-- R77: GHASH answers the hash of its payload under the loaded H, with no length block; its errors in
order. -/
def Obligations.GhashHashesThePayload : Prop :=
  ∀ (a : Byte) (p : Bytes) (s : State),
    (a ≠ 0x00 → exec (.ghash a p) s = .next (s.complete .illegalCommand [])) ∧
    (s.key = none → exec (.ghash 0x00 p) s = .next (s.complete .keyNotLoaded [])) ∧
    (∀ k : CipherKey, s.key = some k →
      exec (.ghash 0x00 p) s = .next (s.complete .ok (blockBytes (ghashOf k.h p)))) ∧
    (∀ k : CipherKey, s.key = some k →
      exec (.ghash 0x00 []) s = .next (s.complete .ok (zeros 16)) ∧
      exec (.ghash 0x00 (0x80 :: zeros 15)) s = .next (s.complete .ok (blockBytes k.h)))

/-- R61: the round keys are the words `w[0..43]` of the key expansion's recurrence. -/
def Obligations.KeyScheduleRecurrence : Prop :=
  (∀ (k : Block) (w : Nat → Word32), (∀ i, w i = wordAt (roundKey k (i / 4)) (i % 4)) →
    (∀ i : Fin 11, (keyExpansion k)[i] = roundKey k i.val) ∧
    blockBytes k = beBytes 4 (w 0).toNat ++ beBytes 4 (w 1).toNat ++ beBytes 4 (w 2).toNat ++
      beBytes 4 (w 3).toNat ∧
    (∀ i, 4 ≤ i → i ≤ 43 → i % 4 = 0 →
      w i = w (i - 4) ^^^ (subWord (rotWord (w (i - 1))) ^^^ (rcon (i / 4) ++ 0#24))) ∧
    (∀ i, 4 ≤ i → i ≤ 43 → i % 4 ≠ 0 → w i = w (i - 4) ^^^ w (i - 1)) ∧
    (∀ i, i ≤ 10 → roundKey k i = w (4 * i) ++ w (4 * i + 1) ++ w (4 * i + 2) ++ w (4 * i + 3))) ∧
  (∀ a b c d : Byte, rotWord (a ++ b ++ c ++ d) = b ++ c ++ d ++ a ∧
    subWord (a ++ b ++ c ++ d) = sbox a ++ sbox b ++ sbox c ++ sbox d) ∧
  ((List.range 10).map fun i => rcon (i + 1)) =
    [0x01, 0x02, 0x04, 0x08, 0x10, 0x20, 0x40, 0x80, 0x1B, 0x36]

/-- R63: SubBytes applies the S-box to each byte, and each S-box entry is the affine map of the inverse in
GF(2^8), with 0 mapped to 0. -/
def Obligations.SboxIsInverseThenAffine : Prop :=
  (∀ (s : Block) (i : Nat), i < 16 → byteAt (subBytes s) i = sbox (byteAt s i)) ∧
  sbox 0x00 = sboxAffine 0x00 ∧
  (∀ b : Byte, b ≠ 0x00 → ∃ c : Byte, gf256Mul b c = 0x01 ∧ sbox b = sboxAffine c) ∧
  (∀ (b : Byte) (i : Nat), i < 8 → (sboxAffine b).getLsbD i =
    (b.getLsbD i ^^ b.getLsbD ((i + 4) % 8) ^^ b.getLsbD ((i + 5) % 8) ^^ b.getLsbD ((i + 6) % 8) ^^
      b.getLsbD ((i + 7) % 8) ^^ (0x63#8).getLsbD i))

/-- R66 (which the spec marks as derived): the table-driven form computes exactly `AES_Encrypt`, for every
round-key set and block. -/
def Obligations.TableDrivenFormIsAes : Prop :=
  ∀ (rk : RoundKeys) (b : Block), aesEncryptTable rk b = aesEncrypt rk b

/-- R73 (which the spec marks as derived): the Shoup tables hold the products by their definition, and the
table form gives the product of R71 for every block. -/
def Obligations.ShoupTablesGiveTheProduct : Prop :=
  ∀ h : Block,
    (∀ (k : Fin 32) (n : Fin 16), ((shoupTables h)[k])[n] = gfMul (nib k.val (BitVec.ofFin n)) h) ∧
    (∀ x : Block, tableProduct (shoupTables h) x = gfMul x h) ∧
    (∀ k : Fin 32, ((shoupTables h)[k])[(0 : Fin 16)] = 0) ∧
    ((shoupTables h)[(0 : Fin 32)])[(8 : Fin 16)] = h

/-- R72 (which the spec marks as derived), without the existence of inverses: GF_Mul is commutative,
associative, distributive over ⊕ in each argument, has the unit `80 00 … 00` and the zero block. -/
def Obligations.GfMulIsACommutativeRingProduct : Prop :=
  (∀ x y, gfMul x y = gfMul y x) ∧
  (∀ x y z, gfMul (gfMul x y) z = gfMul x (gfMul y z)) ∧
  (∀ x y z, gfMul (x ^^^ y) z = gfMul x z ^^^ gfMul y z) ∧
  (∀ x y z, gfMul x (y ^^^ z) = gfMul x y ^^^ gfMul x z) ∧
  (∀ x, gfMul x (0x80#8 ++ 0#120) = x) ∧
  (∀ x, gfMul x 0 = 0)

/-- R75 (which the spec marks as derived): GHASH is GHASH_Update from the zero block, and zero bytes that
do not reach a new 16-byte block do not change it. -/
def Obligations.GhashIgnoresZeroPadding : Prop :=
  ∀ (h : Block) (d : Bytes),
    ghashOf h d = ghashUpdate 0 h d ∧
    ∀ j : Nat, (d.length + j + 15) / 16 = (d.length + 15) / 16 → ghashOf h (d ++ zeros j) = ghashOf h d

/-! ### The GCM stream -/

/-- R81: GCMINIT.E starts an encrypt stream keyed by copies of RK and H, with the nonce's counter block and
the hash of the AAD; its errors in order. -/
def Obligations.EncryptStreamStarts : Prop :=
  ∀ (a : Byte) (p : Bytes) (s : State),
    (∀ x, s.stream = some x → exec (.gcminitE a p) s = .next (s.complete .streamState [])) ∧
    (s.stream = none → a ∉ ([0x10, 0x20, 0x30] : Bytes) →
      exec (.gcminitE a p) s = .next (s.complete .unsupportedSecurityPolicy [])) ∧
    (s.stream = none → a ∈ ([0x10, 0x20, 0x30] : Bytes) → p.length < 12 →
      exec (.gcminitE a p) s = .next (s.complete .badOperandLength [])) ∧
    (s.stream = none → a ∈ ([0x10, 0x20, 0x30] : Bytes) → 12 ≤ p.length → s.key = none →
      exec (.gcminitE a p) s = .next (s.complete .keyNotLoaded [])) ∧
    (∀ (pol : Policy) (nonce : Nonce) (aad : Bytes) (k : CipherKey), s.stream = none → s.key = some k →
      ∃ x : Stream, x = ⟨.encrypt, pol, k.rk, k.h, nonce ++ 1#32, nonce ++ 1#32, ghashUpdate 0 k.h aad,
          [], [], aad.length, 0, 0, none⟩ ∧
        exec (.gcminitE (policyByte pol) (beBytes 12 nonce.toNat ++ aad)) s =
          .next (({ s with stream := some x }).complete .ok []))

/-- R82: GCMINIT.D starts a decrypt stream; where the policy authenticates, the payload carries the
expected 12-byte tag after the nonce; its errors in order. -/
def Obligations.DecryptStreamStarts : Prop :=
  ∀ (a : Byte) (p : Bytes) (s : State),
    (∀ x, s.stream = some x → exec (.gcminitD a p) s = .next (s.complete .streamState [])) ∧
    (s.stream = none → a ∉ ([0x10, 0x20, 0x30] : Bytes) →
      exec (.gcminitD a p) s = .next (s.complete .unsupportedSecurityPolicy [])) ∧
    (s.stream = none → a ∈ ([0x10, 0x20, 0x30] : Bytes) →
      p.length < (if a = 0x20 then 12 else 24) →
      exec (.gcminitD a p) s = .next (s.complete .badOperandLength [])) ∧
    (s.stream = none → a ∈ ([0x10, 0x20, 0x30] : Bytes) →
      (if a = 0x20 then 12 else 24) ≤ p.length → s.key = none →
      exec (.gcminitD a p) s = .next (s.complete .keyNotLoaded [])) ∧
    (∀ (pol : Policy) (nonce : Nonce) (tag : Tag) (aad : Bytes) (k : CipherKey), s.stream = none →
      s.key = some k →
      ∃ x : Stream, x = ⟨.decrypt, pol, k.rk, k.h, nonce ++ 1#32, nonce ++ 1#32, ghashUpdate 0 k.h aad,
          [], [], aad.length, 0, 0, if pol = .encryption then none else some tag⟩ ∧
        exec (.gcminitD (policyByte pol)
          (beBytes 12 nonce.toNat ++ (if pol = .encryption then [] else beBytes 12 tag.toNat) ++ aad)) s =
          .next (({ s with stream := some x }).complete .ok []))

/-- R84, R85: GCMWRITE processes the whole blocks of BUF ‖ P in order and keeps the rest; a message over
OUTBUF_CAP or over 2^32 - 2 counter blocks ends the stream with LengthLimit; its errors in order. That a
short last block counts (R85, R121, 92 D14) where the pseudocode of R84 counts whole blocks only is the
model's reading of the two (log 21); it matters at 2^32 - 2 whole blocks with a tail. -/
def Obligations.StreamWriteProcessesWholeBlocks : Prop :=
  ∀ (a : Byte) (p : Bytes) (s : State),
    (a ≠ 0x00 → exec (.gcmwrite a p) s = .next (s.complete .illegalCommand [])) ∧
    (s.stream = none → exec (.gcmwrite 0x00 p) s = .next (s.complete .streamState [])) ∧
    (∀ x, s.stream = some x →
      (Config.outbufCap < x.lenC + p.length ∨
        (x.pol ≠ .authentication ∧ 2 ^ 32 - 2 < x.nblk + ((x.buf ++ p).length + 15) / 16) →
        exec (.gcmwrite 0x00 p) s = .next (({ s with stream := none }).complete .lengthLimit [])) ∧
      (∀ (blocks : List Bytes) (tail : Bytes), (∀ b ∈ blocks, b.length = 16) → tail.length < 16 →
        x.buf ++ p = blocks.flatten ++ tail → x.lenC + p.length ≤ Config.outbufCap →
        (x.pol = .authentication ∨
          x.nblk + blocks.length + (if tail = [] then 0 else 1) ≤ 2 ^ 32 - 2) →
        ∃ y : Stream, y = { blocks.foldl processBlock x with buf := tail, lenC := x.lenC + p.length } ∧
          exec (.gcmwrite 0x00 p) s = .next (({ s with stream := some y }).complete .ok [])))

/-- R88, R89: GCMFINAL flushes the last block, ends the stream and emits the output: alone under 0x20, with
the tag appended when encrypting, verified against the expected tag when decrypting; its errors in
order. -/
def Obligations.StreamFinalEmitsOrVerifies : Prop :=
  ∀ (a : Byte) (p : Bytes) (s : State),
    (a ≠ 0x00 → exec (.gcmfinal a p) s = .next (s.complete .illegalCommand [])) ∧
    (s.stream = none → exec (.gcmfinal 0x00 p) s = .next (s.complete .streamState [])) ∧
    (∀ x, s.stream = some x →
      (p ≠ [] → exec (.gcmfinal 0x00 p) s = .next (s.complete .badOperandLength [])) ∧
      ∀ f : Stream, f = (if x.buf = [] then x else { processBlock x x.buf with buf := [] }) →
        (x.pol = .encryption →
          exec (.gcmfinal 0x00 []) s = .next (({ s with stream := none }).complete .ok f.out)) ∧
        (x.pol ≠ .encryption → x.dir = .encrypt →
          exec (.gcmfinal 0x00 []) s = .next (({ s with stream := none }).complete .ok
            (f.out ++ beBytes 12 (streamTag f).toNat))) ∧
        (x.pol ≠ .encryption → x.dir = .decrypt → x.tagIn = some (streamTag f) →
          exec (.gcmfinal 0x00 []) s =
            .next (({ s with stream := none, tagmm := false }).complete .ok f.out)) ∧
        (∀ tin : Tag, x.pol ≠ .encryption → x.dir = .decrypt → x.tagIn = some tin → tin ≠ streamTag f →
          s.ctrl.getLsbD 0 = true →
          exec (.gcmfinal 0x00 []) s =
            .next (({ s with stream := none, tagmm := true }).complete .ok f.out)) ∧
        (∀ tin : Tag, x.pol ≠ .encryption → x.dir = .decrypt → x.tagIn = some tin → tin ≠ streamTag f →
          s.ctrl.getLsbD 0 = false →
          exec (.gcmfinal 0x00 []) s =
            .next (({ s with stream := none, tagmm := false }).complete .invalidTag [])))

/-- R90: GCMABORT discards the stream, and is legal with none. -/
def Obligations.StreamAbortDiscards : Prop :=
  ∀ (a : Byte) (p : Bytes) (s : State),
    (a ≠ 0x00 → exec (.gcmabort a p) s = .next (s.complete .illegalCommand [])) ∧
    (p ≠ [] → exec (.gcmabort 0x00 p) s = .next (s.complete .badOperandLength [])) ∧
    exec (.gcmabort 0x00 []) s = .next (({ s with stream := none }).complete .ok [])

/-- R84 (corner cases), L1-2: any split of data into GCMWRITEs leaves the stream that one GCMWRITE of all
of it leaves. The bytes `p ++ q` may be more than one GCMWRITE of the decoder can carry; what `exec` does
with such a command is the model's choice (log 15). -/
def Obligations.SplitWritesAreOneWrite : Prop :=
  ∀ (p q : Bytes) (s t u : State), exec (.gcmwrite 0x00 p) s = .next t → t.err = .ok →
    exec (.gcmwrite 0x00 q) t = .next u → u.err = .ok →
    ∃ v : State, exec (.gcmwrite 0x00 (p ++ q)) s = .next v ∧ v.err = .ok ∧ v.stream = u.stream

/-- R78, R83, R79, R80: the output of a message is as long as its data; under 0x10 it is the data
unchanged; under the policies that encrypt, output byte `n` is input byte `n` XOR byte `n mod 16` of the
AES of counter block `J0 + n/16 + 1`; in either direction. -/
def Obligations.StreamIsCounterMode : Prop :=
  ∀ (dir : Direction) (pol : Policy) (rk : RoundKeys) (h : Block) (nonce : Nonce) (aad data : Bytes)
    (tagIn : Option Tag),
    let out := (flushStream (writeStream (startStream dir pol rk h nonce aad tagIn) data)).out
    out.length = data.length ∧
    (pol = .authentication → out = data) ∧
    (pol ≠ .authentication → ∀ (n : Nat) (hn : n < data.length), out[n]? = some (data[n] ^^^
      byteAt (aesEncrypt rk (nonce ++ (1#32 + BitVec.ofNat 32 (n / 16 + 1)))) (n % 16)))

/-- R86, R87, R74: the tag of a message is the first 12 bytes of AES(J0) XOR the GHASH of the padded AAD,
the padded ciphertext and the two 64-bit bit counts. -/
def Obligations.TagIsGhashOfTheWholeMessage : Prop :=
  ∀ (dir : Direction) (pol : Policy) (rk : RoundKeys) (h : Block) (nonce : Nonce) (aad data : Bytes)
    (tagIn : Option Tag),
    let t := flushStream (writeStream (startStream dir pol rk h nonce aad tagIn) data)
    let c := if dir = .encrypt then t.out else data
    streamTag t = (aesEncrypt rk (nonce ++ 1#32) ^^^
      ghashOf h (padded aad ++ padded c ++ beBytes 8 (8 * aad.length) ++
        beBytes 8 (8 * data.length))).extractLsb' 32 96

/-! ### The formatter -/

/-- R91 (which the spec marks as derived), R98: the formatter computes what the stream commands compute.
CIPHER.DATATAG emits what the pseudo-instruction GCM.E emits for the nonce ST ‖ FC and the policy's AAD and
data; DECIPHER of an envelope ends with the outcome, TAGMM and output of GCM.D. Under 0x10 the body is
authenticated as AAD and passes beside the stream. Under 0x10 with more than 65494 bytes of `p`, and wherever
else a payload here is over 65535 bytes (or an AAD over the 65523 of R85), the decoder gives no such command,
and what `exec` does with it is the model's choice (log 15). -/
def Obligations.FormatterIsTheStream : Prop :=
  ∀ (pol : Policy) (k : CipherKey) (ak : Block) (st : Title) (s : State) (p aad data pass : Bytes),
    s.key = some k → s.ak = some ak → s.st = some st → s.stream = none → p.length ≤ 65520 →
    aad = (match pol with
      | .authentication => [0x10] ++ blockBytes ak ++ p
      | .encryption => blockBytes ak
      | .authenticatedEncryption => [0x30] ++ blockBytes ak) →
    data = (if pol = .authentication then [] else p) →
    pass = (if pol = .authentication then p else []) →
    (s.sp = policyByte pol → ∃ out : Bytes,
      exec (.cipherDatatag 0x00 p) s = .next (s.complete .ok (pass ++ out)) ∧
      execAll (expandPseudo (.gcmE (policyByte pol) (beBytes 12 (st ++ s.fc).toNat) aad data)) s =
        .next { s with
          err := .ok, responses := s.responses ++ [⟨.ok, []⟩, ⟨.ok, []⟩, ⟨.ok, out⟩] }) ∧
    (∀ (ct : Byte) (fc : BitVec 32) (tag : Tag) (tagB : Bytes), ct ∈ cipheredTags →
      tagB = (if pol = .encryption then [] else beBytes 12 tag.toNat) →
      ∃ (t u : State) (out : Bytes),
        exec (.decipher 0x00 (envelope ct (policyByte pol) fc p tagB)) s = .next t ∧
        execAll (expandPseudo (.gcmD (policyByte pol) (beBytes 12 (st ++ fc).toNat)
          (beBytes 12 tag.toNat) aad data)) s = .next u ∧
        t.err = u.err ∧ t.tagmm = u.tagmm ∧ (t.err = .ok ∨ t.err = .invalidTag) ∧
        u.responses = s.responses ++ [⟨.ok, []⟩, ⟨.ok, []⟩, ⟨u.err, out⟩] ∧
        t.responses = s.responses ++ [⟨t.err, if t.err = .ok then pass ++ out else []⟩])

/-- R93 (with R91, R57): CIPHER.PACKET emits `ct ‖ CountEnc(|body|) ‖ SP ‖ be_4(FC) ‖ D ‖ T` and changes
nothing but ERR; its errors in order. -/
def Obligations.PacketIsTheEnvelope : Prop :=
  ∀ (ct : Byte) (p : Bytes) (s : State),
    (s.sp ∉ ([0x10, 0x20, 0x30] : Bytes) →
      exec (.cipherPacket ct p) s = .next (s.complete .unsupportedSecurityPolicy [])) ∧
    (s.sp ∈ ([0x10, 0x20, 0x30] : Bytes) → s.key = none ∨ s.ak = none ∨ s.st = none →
      exec (.cipherPacket ct p) s = .next (s.complete .keyNotLoaded [])) ∧
    (∀ (pol : Policy) (k : CipherKey) (ak : Block) (st : Title) (d : Bytes) (t : Option Tag)
      (body : Bytes),
      s.sp = policyByte pol → s.key = some k → s.ak = some ak → s.st = some st →
      (d, t) = formatterCore .encrypt pol k ak (st ++ s.fc) p →
      body = [s.sp] ++ beBytes 4 s.fc.toNat ++ d ++ tagBytes t →
      exec (.cipherPacket ct p) s = .next (s.complete .ok ([ct] ++ countEnc body.length ++ body)))

/-- R92, R94, R95, R96: CIPHER.TAG, CIPHER.DATA and CIPHER.DATATAG emit T, D and D ‖ T of the same
computation and change nothing but ERR; their errors in order. D is as long as the plaintext, and is the
plaintext under 0x10; T is 12 bytes, and absent under 0x20. -/
def Obligations.ShapesEmitDataAndTag : Prop :=
  ∀ (a : Byte) (p : Bytes) (s : State),
    (a ≠ 0x00 →
      exec (.cipherTag a p) s = .next (s.complete .illegalCommand []) ∧
      exec (.cipherData a p) s = .next (s.complete .illegalCommand []) ∧
      exec (.cipherDatatag a p) s = .next (s.complete .illegalCommand [])) ∧
    (s.sp ∉ ([0x10, 0x20, 0x30] : Bytes) →
      exec (.cipherTag 0x00 p) s = .next (s.complete .unsupportedSecurityPolicy []) ∧
      exec (.cipherData 0x00 p) s = .next (s.complete .unsupportedSecurityPolicy []) ∧
      exec (.cipherDatatag 0x00 p) s = .next (s.complete .unsupportedSecurityPolicy [])) ∧
    (s.sp ∈ ([0x10, 0x20, 0x30] : Bytes) → s.key = none ∨ s.ak = none ∨ s.st = none →
      exec (.cipherTag 0x00 p) s = .next (s.complete .keyNotLoaded []) ∧
      exec (.cipherData 0x00 p) s = .next (s.complete .keyNotLoaded []) ∧
      exec (.cipherDatatag 0x00 p) s = .next (s.complete .keyNotLoaded [])) ∧
    (∀ (pol : Policy) (k : CipherKey) (ak : Block) (st : Title) (d : Bytes) (t : Option Tag),
      s.sp = policyByte pol → s.key = some k → s.ak = some ak → s.st = some st →
      (d, t) = formatterCore .encrypt pol k ak (st ++ s.fc) p →
      d.length = p.length ∧ (tagBytes t).length = (if pol = .encryption then 0 else 12) ∧
      (pol = .authentication → d = p) ∧
      exec (.cipherTag 0x00 p) s = .next (s.complete .ok (tagBytes t)) ∧
      exec (.cipherData 0x00 p) s = .next (s.complete .ok d) ∧
      exec (.cipherDatatag 0x00 p) s = .next (s.complete .ok (d ++ tagBytes t)))

/-- R97: SECENC passes the payload through for SP = 0x00 and for AARQ and AARE; otherwise it emits what
CIPHER.PACKET emits with the current FC and leaves FC + 1, except that with FC_OVERFLOW = Fault it raises
CounterExhausted at 0xFFFFFFFF; its errors in order. -/
def Obligations.SecencCiphersThenIncrements : Prop :=
  ∀ (ct : Byte) (p : Bytes) (s : State),
    (s.sp = 0x00 ∨ ct = 0x60 ∨ ct = 0x61 → exec (.secenc ct p) s = .next (s.complete .ok p)) ∧
    (s.sp ≠ 0x00 → ct ≠ 0x60 → ct ≠ 0x61 →
      (s.sp ∉ ([0x10, 0x20, 0x30] : Bytes) →
        exec (.secenc ct p) s = .next (s.complete .unsupportedSecurityPolicy [])) ∧
      (s.sp ∈ ([0x10, 0x20, 0x30] : Bytes) → s.key = none ∨ s.ak = none ∨ s.st = none →
        exec (.secenc ct p) s = .next (s.complete .keyNotLoaded [])) ∧
      (s.sp ∈ ([0x10, 0x20, 0x30] : Bytes) → s.key ≠ none → s.ak ≠ none → s.st ≠ none →
        (s.fc = 0xFFFFFFFF → Config.fcOverflow = .fault →
          exec (.secenc ct p) s = .next (s.complete .counterExhausted [])) ∧
        (s.fc ≠ 0xFFFFFFFF ∨ Config.fcOverflow = .wrap →
          ∃ out : Bytes, exec (.cipherPacket ct p) s = .next (s.complete .ok out) ∧
            exec (.secenc ct p) s = .next (({ s with fc := s.fc + 1 }).complete .ok out))))

/-- R98, the rejections in order: ARG, empty payload, leading tag (R55's eight), count form, count against
length and body of 5 bytes, policy, keys, room for the tag. -/
def Obligations.DecipherRejectsInOrder : Prop :=
  cipheredTags = [0x21, 0x28, 0xC8, 0xC9, 0xCB, 0xCC, 0xCD, 0xCF] ∧
  ∀ (a : Byte) (p : Bytes) (s : State),
    (a ≠ 0x00 → exec (.decipher a p) s = .next (s.complete .illegalCommand [])) ∧
    exec (.decipher 0x00 []) s = .next (s.complete .malformedEnvelope []) ∧
    (∀ (ct : Byte) (q : Bytes), p = ct :: q →
      ct ∉ ([0x21, 0x28, 0xC8, 0xC9, 0xCB, 0xCC, 0xCD, 0xCF] : Bytes) →
      exec (.decipher 0x00 p) s = .next (s.complete .unknownCommand [])) ∧
    (∀ (ct : Byte) (q : Bytes), p = ct :: q →
      ct ∈ ([0x21, 0x28, 0xC8, 0xC9, 0xCB, 0xCC, 0xCD, 0xCF] : Bytes) →
      (countDec p 1 = none → exec (.decipher 0x00 p) s = .next (s.complete .malformedEnvelope [])) ∧
      (∀ n i, countDec p 1 = some (n, i) → n ≠ p.length - i ∨ n < 5 →
        exec (.decipher 0x00 p) s = .next (s.complete .malformedEnvelope [])) ∧
      (∀ n i (sp : Byte), countDec p 1 = some (n, i) → n = p.length - i → 5 ≤ n → p[i]? = some sp →
        (sp ∉ ([0x10, 0x20, 0x30] : Bytes) →
          exec (.decipher 0x00 p) s = .next (s.complete .unsupportedSecurityPolicy [])) ∧
        (sp ∈ ([0x10, 0x20, 0x30] : Bytes) → s.key = none ∨ s.ak = none ∨ s.st = none →
          exec (.decipher 0x00 p) s = .next (s.complete .keyNotLoaded [])) ∧
        (sp = 0x10 ∨ sp = 0x30 → s.key ≠ none → s.ak ≠ none → s.st ≠ none → n - 5 < 12 →
          exec (.decipher 0x00 p) s = .next (s.complete .malformedEnvelope []))))

/-- R98 with R89: what DECIPHER does with an envelope whose form is right and whose keys are loaded: it
emits the body decrypted under the envelope's own policy and counter, records both in RXSP and RXFC, and
verifies the trailing tag where the policy has one. FC is neither read nor changed. -/
def Obligations.DecipherVerifiesAndRecords : Prop :=
  ∀ (ct : Byte) (count body : Bytes) (fc : BitVec 32) (tin : Tag) (pol : Policy) (s : State)
    (k : CipherKey) (ak : Block) (st : Title) (d : Bytes) (t : Option Tag) (p after : Bytes),
    ct ∈ cipheredTags → s.key = some k → s.ak = some ak → s.st = some st →
    after = [policyByte pol] ++ beBytes 4 fc.toNat ++ body ++
      (if pol = .encryption then [] else beBytes 12 tin.toNat) →
    p = [ct] ++ count ++ after → countDec p 1 = some (after.length, 1 + count.length) →
    (d, t) = formatterCore .decrypt pol k ak (st ++ fc) body →
    (pol = .encryption → exec (.decipher 0x00 p) s =
      .next (({ s with rxsp := policyByte pol, rxfc := fc }).complete .ok d)) ∧
    (pol ≠ .encryption → t = some tin → exec (.decipher 0x00 p) s =
      .next (({ s with tagmm := false, rxsp := policyByte pol, rxfc := fc }).complete .ok d)) ∧
    (pol ≠ .encryption → t ≠ some tin → s.ctrl.getLsbD 0 = true → exec (.decipher 0x00 p) s =
      .next (({ s with tagmm := true, rxsp := policyByte pol, rxfc := fc }).complete .ok d)) ∧
    (pol ≠ .encryption → t ≠ some tin → s.ctrl.getLsbD 0 = false → exec (.decipher 0x00 p) s =
      .next (({ s with tagmm := false }).complete .invalidTag []))

/-- R99 (which the spec marks as derived): for every policy, every ciphered command tag and every
plaintext that fits, CIPHER.PACKET emits an envelope that DECIPHER, with the same ST, BK and AK, opens to
the plaintext with ERR = 0. -/
def Obligations.DecipherOpensWhatPacketSeals : Prop :=
  ∀ (ct : Byte) (p : Bytes) (pol : Policy) (s r : State), ct ∈ cipheredTags → s.sp = policyByte pol →
    s.key ≠ none → s.ak ≠ none → s.st ≠ none → p.length ≤ 65535 - 23 →
    r.key = s.key → r.ak = s.ak → r.st = s.st →
    ∃ (e : Bytes) (t : State), exec (.cipherPacket ct p) s = .next (s.complete .ok e) ∧
      e.length ≤ 65535 ∧ exec (.decipher 0x00 e) r = .next (t.complete .ok p) ∧
      t = { r with
        rxsp := s.sp, rxfc := s.fc, tagmm := if pol = .encryption then r.tagmm else false }

/-- R101 (which the spec marks as derived): an envelope with a tag other than the computed one is rejected
with DIAG = 0 and its plaintext withheld; an envelope of policy 0x20 carries no tag, and whatever it holds
is accepted (the downgrade). Where the envelope is over 65535 bytes, what `exec` does with it is the model's
choice (log 15). -/
def Obligations.ForgedTagsFailAndUntaggedEnvelopesPass : Prop :=
  ∀ (ct : Byte) (rest : Bytes) (fc : BitVec 32) (s : State) (k : CipherKey) (ak : Block) (st : Title),
    ct ∈ cipheredTags → s.key = some k → s.ak = some ak → s.st = some st → rest.length ≤ 65520 →
    (∀ (pol : Policy) (tag tag' : Tag) (d : Bytes), pol ≠ .encryption → s.ctrl.getLsbD 0 = false →
      (d, some tag) = formatterCore .decrypt pol k ak (st ++ fc) rest → tag' ≠ tag →
      exec (.decipher 0x00 (envelope ct (policyByte pol) fc rest (beBytes 12 tag'.toNat))) s =
        .next (({ s with tagmm := false }).complete .invalidTag [])) ∧
    (∃ out : Bytes, out.length = rest.length ∧
      exec (.decipher 0x00 (envelope ct 0x20 fc rest [])) s =
        .next (({ s with rxsp := 0x20, rxfc := fc }).complete .ok out))

/-- R155 (a): two CIPHER.DATA with the same ST, FC and keys under a policy that encrypts reuse the
keystream: the XOR of the ciphertexts is the XOR of the plaintexts. -/
def Obligations.NonceReuseLeaksThePlaintextXor : Prop :=
  ∀ (p q : Bytes) (pol : Policy) (s : State), s.sp = policyByte pol → pol ≠ .authentication →
    s.key ≠ none → s.ak ≠ none → s.st ≠ none → p.length = q.length →
    ∃ c d : Bytes, exec (.cipherData 0x00 p) s = .next (s.complete .ok c) ∧
      exec (.cipherData 0x00 q) (s.complete .ok c) =
        .next ((s.complete .ok c).complete .ok d) ∧
      xorBytes c d = xorBytes p q
end

