-- ==== Sys2Proof/Laws/Bytes.lean ====
section
/-! SUPPORT. Byte strings and blocks: `be_n` and `int` are inverse, blocks are their bytes, pieces of a
string (00_scope R7, R8, R10; 41_ghash R74). -/

namespace Sys2Proof.Machine

@[simp] theorem length_beBytes (n v : Nat) : (beBytes n v).length = n := by
  induction n with
  | zero => rfl
  | succ n ih => simp [beBytes, ih]

@[simp] theorem length_zeros (n : Nat) : (zeros n).length = n := by simp [zeros]

@[simp] theorem length_xorBytes (a b : Bytes) : (xorBytes a b).length = min a.length b.length := by
  simp [xorBytes]

@[simp] theorem length_blockBytes (b : Block) : (blockBytes b).length = 16 := by simp [blockBytes]

theorem beNat_foldl (b : Bytes) (a : Nat) :
    b.foldl (fun a x => a * 256 + x.toNat) a = a * 256 ^ b.length + beNat b := by
  induction b generalizing a with
  | nil => simp [beNat]
  | cons x b ih =>
    have h0 := ih (0 * 256 + x.toNat)
    simp only [beNat, List.foldl_cons, List.length_cons] at *
    rw [ih, h0, pow_succ]
    ring

@[simp] theorem beNat_nil : beNat [] = 0 := rfl

theorem beNat_cons (x : Byte) (b : Bytes) : beNat (x :: b) = x.toNat * 256 ^ b.length + beNat b := by
  have h := beNat_foldl b (0 * 256 + x.toNat)
  simpa [beNat] using h

theorem beNat_append (a b : Bytes) : beNat (a ++ b) = beNat a * 256 ^ b.length + beNat b := by
  have h := beNat_foldl b (beNat a)
  simpa [beNat, List.foldl_append] using h

theorem beNat_lt (b : Bytes) : beNat b < 256 ^ b.length := by
  induction b with
  | nil => simp
  | cons x b ih =>
    rw [beNat_cons, List.length_cons, pow_succ]
    have hx : x.toNat ≤ 255 := by have := x.isLt; omega
    have hm : x.toNat * 256 ^ b.length ≤ 255 * 256 ^ b.length := Nat.mul_le_mul_right _ hx
    omega

theorem two_pow_eight_mul (n : Nat) : (2 : Nat) ^ (8 * n) = 256 ^ n := by
  rw [pow_mul]; norm_num

/-- `int(be_n(v)) = v mod 2^(8n)` (R8). -/
theorem beNat_beBytes (n v : Nat) : beNat (beBytes n v) = v % 256 ^ n := by
  induction n with
  | zero => simp [beBytes, Nat.mod_one]
  | succ n ih =>
    have h := Nat.mod_mul (x := v) (a := 256 ^ n) (b := 256)
    rw [beBytes, beNat_cons, length_beBytes, ih, BitVec.toNat_ofNat, Nat.shiftRight_eq_div_pow,
      two_pow_eight_mul, pow_succ 256 n, h, Nat.mul_comm, Nat.add_comm]

/-- `be_n(int(b)) = b` for a string of `n` bytes (R8). -/
theorem beBytes_beNat (b : Bytes) : beBytes b.length (beNat b) = b := by
  induction b with
  | nil => rfl
  | cons x b ih =>
    have hp := two_pow_eight_mul b.length
    have hlt := beNat_lt b
    have hpos : 0 < 256 ^ b.length := by positivity
    have hdiv : beNat (x :: b) / 256 ^ b.length = x.toNat := by
      rw [beNat_cons, mul_comm, Nat.mul_add_div hpos, Nat.div_eq_of_lt hlt, Nat.add_zero]
    have htail : beBytes b.length (beNat (x :: b)) = beBytes b.length (beNat b) := by
      rw [beNat_cons, mul_comm]
      exact beBytes_add_mul b.length x.toNat (beNat b)
    rw [List.length_cons, beBytes, Nat.shiftRight_eq_div_pow, hp, hdiv, htail, ih]
    simp
where
  /-- Only the low `n` bytes count. -/
  beBytes_add_mul (n a v : Nat) : beBytes n (256 ^ n * a + v) = beBytes n v := by
    suffices h : ∀ m, m ≤ n → beBytes m (256 ^ n * a + v) = beBytes m v from h n le_rfl
    intro m hm
    induction m with
    | zero => rfl
    | succ m ih =>
      rw [beBytes, beBytes, ih (by omega)]
      congr 1
      apply BitVec.eq_of_toNat_eq
      have hp := two_pow_eight_mul m
      rw [BitVec.toNat_ofNat, BitVec.toNat_ofNat, Nat.shiftRight_eq_div_pow,
        Nat.shiftRight_eq_div_pow, hp]
      obtain ⟨k, rfl⟩ : ∃ k, n = m + 1 + k := ⟨n - (m + 1), by omega⟩
      have : 256 ^ (m + 1 + k) * a + v = 256 ^ m * (256 * (256 ^ k * a)) + v := by ring
      rw [this, Nat.mul_add_div (by positivity)]
      omega

theorem beBytes_beNat_of_length {b : Bytes} {n : Nat} (h : b.length = n) : beBytes n (beNat b) = b := by
  subst h; exact beBytes_beNat b

@[simp] theorem beNat_blockBytes (b : Block) : beNat (blockBytes b) = b.toNat := by
  have h := b.isLt
  rw [blockBytes, beNat_beBytes]
  exact Nat.mod_eq_of_lt (by simpa using h)

/-- A 16-byte string is the bytes of the block it spells (R10). -/
theorem blockBytes_ofNat_beNat {b : Bytes} (h : b.length = 16) :
    blockBytes (BitVec.ofNat 128 (beNat b)) = b := by
  have hlt := beNat_lt b
  rw [h] at hlt
  rw [blockBytes, BitVec.toNat_ofNat, Nat.mod_eq_of_lt (by norm_num at hlt ⊢; exact hlt)]
  exact beBytes_beNat_of_length h

@[simp] theorem blockOf_blockBytes (b : Block) : blockOf (blockBytes b) = b := by
  simp [blockOf, zeros]

theorem beBytes_append (m n a b : Nat) (hb : b < 256 ^ n) :
    beBytes (m + n) (a * 256 ^ n + b) = beBytes m a ++ beBytes n b := by
  have h1 : (beBytes m a ++ beBytes n b).length = m + n := by simp
  have h2 : beNat (beBytes m a ++ beBytes n b) = a % 256 ^ m * 256 ^ n + b := by
    rw [beNat_append, beNat_beBytes, beNat_beBytes, length_beBytes, Nat.mod_eq_of_lt hb]
  have h3 := beBytes_beNat_of_length h1
  rw [h2] at h3
  rw [← h3]
  have h4 : a * 256 ^ n + b = 256 ^ (m + n) * (a / 256 ^ m) + (a % 256 ^ m * 256 ^ n + b) := by
    conv_lhs => rw [← Nat.div_add_mod a (256 ^ m)]
    rw [pow_add]; ring
  rw [h4]
  exact beBytes_beNat.beBytes_add_mul (m + n) _ _

/-- Byte `i` of the block that 16 bytes spell (R10). -/
theorem byteAt_ofNat_beNat (b : Bytes) (i : Nat) (h : b.length = 16) (hi : i < 16) :
    byteAt (BitVec.ofNat 128 (beNat b)) i = b[i]'(by omega) := by
  have hlt := beNat_lt b
  rw [h] at hlt
  have hsplit : beNat b = (beNat (b.take i) * 256 + (b[i]'(by omega)).toNat) * 256 ^ (15 - i) +
      beNat (b.drop (i + 1)) := by
    conv_lhs => rw [← List.take_append_drop i b, List.drop_eq_getElem_cons (by omega : i < b.length)]
    rw [beNat_append, beNat_cons]
    have hl : (b.drop (i + 1)).length = 15 - i := by simp; omega
    rw [List.length_cons, hl, pow_succ]
    ring
  have hd := beNat_lt (b.drop (i + 1))
  rw [show (b.drop (i + 1)).length = 15 - i by simp; omega] at hd
  apply BitVec.eq_of_toNat_eq
  have hmod : beNat b % 2 ^ 128 = beNat b := Nat.mod_eq_of_lt (by norm_num at hlt ⊢; exact hlt)
  rw [byteAt, BitVec.extractLsb'_toNat, BitVec.toNat_ofNat, hmod, Nat.shiftRight_eq_div_pow,
    two_pow_eight_mul, hsplit, Nat.mul_comm _ (256 ^ (15 - i)), Nat.mul_add_div (by positivity), Nat.div_eq_of_lt hd]
  have := (b[i]'(by omega)).isLt
  omega

/-- Byte `i` of a block built from its bytes (R10). -/
theorem byteAt_blockOfFn (f : Nat → Byte) (i : Nat) (h : i < 16) : byteAt (blockOfFn f) i = f i := by
  rw [blockOfFn, byteAt_ofNat_beNat _ _ (by simp) h]
  simp

/-- Blocks with the same bytes are equal (R10). -/
theorem block_ext {a b : Block} (h : ∀ i, i < 16 → byteAt a i = byteAt b i) : a = b := by
  ext j hj
  have hi := h (15 - j / 8) (by omega)
  have hb := congrArg (fun x : Byte => x.getLsbD (j % 8)) hi
  have e : 8 * (15 - (15 - j / 8)) + j % 8 = j := by omega
  simpa [byteAt, BitVec.getLsbD_extractLsb', e, Nat.mod_lt j (by decide : 8 > 0),
    BitVec.getLsbD_eq_getElem hj] using hb

@[simp] theorem length_pieces (n : Nat) (b : Bytes) : (pieces n b).length = n := by
  induction n generalizing b with
  | zero => rfl
  | succ n ih => simp [pieces, ih]

/-- The pieces of whole blocks followed by more are the blocks and the pieces of the rest (R84). -/
theorem pieces_flatten (bs : List Bytes) (h : ∀ b ∈ bs, b.length = 16) (n : Nat) (rest : Bytes) :
    pieces (bs.length + n) (bs.flatten ++ rest) = bs ++ pieces n rest := by
  induction bs with
  | nil => simp
  | cons b bs ih =>
    have hb : b.length = 16 := h b (by simp)
    have e : (b :: bs).length + n = (bs.length + n) + 1 := by simp; omega
    rw [e, pieces, List.flatten_cons, List.append_assoc]
    simp [← hb, ih fun x hx => h x (by simp [hx])]

/-- `n` whole blocks at the front of a string are its pieces (R84). -/
theorem flatten_pieces (n : Nat) (b : Bytes) : (pieces n b).flatten = b.take (16 * n) := by
  induction n generalizing b with
  | zero => simp [pieces]
  | succ n ih =>
    rw [pieces, List.flatten_cons, ih, show 16 * (n + 1) = 16 + 16 * n by ring, List.take_add]

theorem length_of_mem_pieces {n : Nat} {b x : Bytes} (h : 16 * n ≤ b.length) (hx : x ∈ pieces n b) :
    x.length = 16 := by
  induction n generalizing b with
  | zero => simp [pieces] at hx
  | succ n ih =>
    rcases List.mem_cons.1 hx with rfl | hx
    · simp; omega
    · exact ih (by simp; omega) hx

/-- The pieces of a string, cut at a whole block (R84: chunks are joined before blocking). -/
theorem pieces_add (m n : Nat) (b : Bytes) :
    pieces (m + n) b = pieces m b ++ pieces n (b.drop (16 * m)) := by
  induction m generalizing b with
  | zero => simp [pieces]
  | succ m ih =>
    rw [show m + 1 + n = (m + n) + 1 by omega, pieces, ih, pieces, List.cons_append, List.drop_drop,
      show 16 + 16 * m = 16 * (m + 1) by ring]

/-- XOR with the same key stream twice gives the string back (R83). -/
theorem xorBytes_xorBytes (a k : Bytes) (h : a.length ≤ k.length) : xorBytes (xorBytes a k) k = a := by
  induction a generalizing k with
  | nil => simp [xorBytes]
  | cons x a ih =>
    cases k with
    | nil => simp at h
    | cons y k =>
      have := ih k (by simpa using h)
      simp only [xorBytes, List.zipWith_cons_cons] at this ⊢
      rw [this, BitVec.xor_assoc]
      simp

end Sys2Proof.Machine
end

