-- ==== Sys2Proof/Laws/State.lean ====
section
/-! SUPPORT. One lemma for each field and each shared update of the state. -/

namespace Sys2Proof.Machine

section Complete
variable (s : State) (e : ErrCode) (out : Bytes)

@[simp] theorem complete_key : (s.complete e out).key = s.key := rfl
@[simp] theorem complete_ak : (s.complete e out).ak = s.ak := rfl
@[simp] theorem complete_st : (s.complete e out).st = s.st := rfl
@[simp] theorem complete_sp : (s.complete e out).sp = s.sp := rfl
@[simp] theorem complete_fc : (s.complete e out).fc = s.fc := rfl
@[simp] theorem complete_ctrl : (s.complete e out).ctrl = s.ctrl := rfl
@[simp] theorem complete_err : (s.complete e out).err = e := rfl
@[simp] theorem complete_tagmm : (s.complete e out).tagmm = s.tagmm := rfl
@[simp] theorem complete_rxsp : (s.complete e out).rxsp = s.rxsp := rfl
@[simp] theorem complete_rxfc : (s.complete e out).rxfc = s.rxfc := rfl
@[simp] theorem complete_stream : (s.complete e out).stream = s.stream := rfl
@[simp] theorem complete_port : (s.complete e out).port = s.port := rfl
@[simp] theorem complete_responses :
    (s.complete e out).responses = s.responses ++ [⟨e, out⟩] := rfl
@[simp] theorem complete_resetRaces : (s.complete e out).resetRaces = s.resetRaces := rfl
@[simp] theorem complete_diag : diag (s.complete e out) = diag s := rfl

end Complete

section EndStream
variable (s : State)

@[simp] theorem endStream_key : (endStream s).key = s.key := rfl
@[simp] theorem endStream_ak : (endStream s).ak = s.ak := rfl
@[simp] theorem endStream_st : (endStream s).st = s.st := rfl
@[simp] theorem endStream_sp : (endStream s).sp = s.sp := rfl
@[simp] theorem endStream_fc : (endStream s).fc = s.fc := rfl
@[simp] theorem endStream_ctrl : (endStream s).ctrl = s.ctrl := rfl
@[simp] theorem endStream_err : (endStream s).err = s.err := rfl
@[simp] theorem endStream_tagmm : (endStream s).tagmm = s.tagmm := rfl
@[simp] theorem endStream_rxsp : (endStream s).rxsp = s.rxsp := rfl
@[simp] theorem endStream_rxfc : (endStream s).rxfc = s.rxfc := rfl
@[simp] theorem endStream_stream : (endStream s).stream = none := rfl
@[simp] theorem endStream_port : (endStream s).port = s.port := rfl
@[simp] theorem endStream_responses : (endStream s).responses = s.responses := rfl
@[simp] theorem endStream_resetRaces : (endStream s).resetRaces = s.resetRaces := rfl

end EndStream

section SoftReset
variable (s : State)

@[simp] theorem softReset_key : (softReset s).key = s.key := rfl
@[simp] theorem softReset_ak : (softReset s).ak = s.ak := rfl
@[simp] theorem softReset_st : (softReset s).st = s.st := rfl
@[simp] theorem softReset_sp : (softReset s).sp = 0x00 := rfl
@[simp] theorem softReset_fc : (softReset s).fc = 0 := rfl
@[simp] theorem softReset_ctrl : (softReset s).ctrl = s.ctrl := rfl
@[simp] theorem softReset_err : (softReset s).err = s.err := rfl
@[simp] theorem softReset_tagmm : (softReset s).tagmm = s.tagmm := rfl
@[simp] theorem softReset_rxsp : (softReset s).rxsp = s.rxsp := rfl
@[simp] theorem softReset_rxfc : (softReset s).rxfc = s.rxfc := rfl
@[simp] theorem softReset_stream : (softReset s).stream = s.stream := rfl
@[simp] theorem softReset_port : (softReset s).port = s.port := rfl
@[simp] theorem softReset_responses : (softReset s).responses = s.responses := rfl
@[simp] theorem softReset_resetRaces : (softReset s).resetRaces = s.resetRaces := rfl

end SoftReset

section HardwareReset
variable (s : State) (rest : List Input)

@[simp] theorem hardwareReset_key : (hardwareReset s rest).key = none := rfl
@[simp] theorem hardwareReset_ak : (hardwareReset s rest).ak = none := rfl
@[simp] theorem hardwareReset_st : (hardwareReset s rest).st = none := rfl
@[simp] theorem hardwareReset_sp : (hardwareReset s rest).sp = 0x00 := rfl
@[simp] theorem hardwareReset_fc : (hardwareReset s rest).fc = 0 := rfl
@[simp] theorem hardwareReset_ctrl : (hardwareReset s rest).ctrl = 0x00 := rfl
@[simp] theorem hardwareReset_err : (hardwareReset s rest).err = .ok := rfl
@[simp] theorem hardwareReset_tagmm : (hardwareReset s rest).tagmm = false := rfl
@[simp] theorem hardwareReset_rxsp : (hardwareReset s rest).rxsp = 0x00 := rfl
@[simp] theorem hardwareReset_rxfc : (hardwareReset s rest).rxfc = 0 := rfl
@[simp] theorem hardwareReset_stream : (hardwareReset s rest).stream = none := rfl
@[simp] theorem hardwareReset_port : (hardwareReset s rest).port = rest := rfl
@[simp] theorem hardwareReset_responses : (hardwareReset s rest).responses = s.responses := rfl
@[simp] theorem hardwareReset_resetRaces :
    (hardwareReset s rest).resetRaces = s.resetRaces := rfl

end HardwareReset

section HostInterface
variable (s : State) (bs : Bytes) (kept : Nat)

@[simp] theorem hostSends_port : (hostSends bs s).port = s.port ++ bs.map .byte := rfl
@[simp] theorem hostSends_responses : (hostSends bs s).responses = s.responses := rfl
@[simp] theorem hostSends_stream : (hostSends bs s).stream = s.stream := rfl
@[simp] theorem hostSends_key : (hostSends bs s).key = s.key := rfl
@[simp] theorem hostResets_port : (hostResets kept s).port = s.port.take kept ++ [.reset] := rfl
@[simp] theorem hostResets_responses : (hostResets kept s).responses = s.responses := rfl
@[simp] theorem hostTakes_responses : (hostTakes s).2.responses = s.responses.tail := rfl
@[simp] theorem hostTakes_port : (hostTakes s).2.port = s.port := rfl

end HostInterface

end Sys2Proof.Machine
end

