-- ==== Sys2Proof/Laws/Ops.lean ====
section
/-! SUPPORT. What each shared operation of the machine can answer, said once. -/

namespace Sys2Proof.Machine

theorem emit_next (out : Bytes) (s : State) : emit out s = .next (s.complete .ok out) := rfl

theorem raise_next (e : ErrCode) (s : State) : raise e s = .next (s.complete e []) := rfl

@[simp] theorem withKey_some {s : State} {k : CipherKey} (h : s.key = some k)
    (f : CipherKey → Result) : withKey s f = f k := by simp [withKey, h]

@[simp] theorem withKey_none {s : State} (h : s.key = none) (f : CipherKey → Result) :
    withKey s f = raise .keyNotLoaded s := by simp [withKey, h]

/-- A command that needs the block key either raises `KeyNotLoaded` or runs with it. -/
theorem withKey_cases (s : State) (f : CipherKey → Result) :
    (s.key = none ∧ withKey s f = raise .keyNotLoaded s) ∨ ∃ k, s.key = some k ∧ withKey s f = f k := by
  cases h : s.key with
  | none => exact .inl ⟨rfl, withKey_none h f⟩
  | some k => exact .inr ⟨k, rfl, withKey_some h f⟩

@[simp] theorem withKeys_some {s : State} {k : CipherKey} {a : Block} {t : Title}
    (hk : s.key = some k) (ha : s.ak = some a) (ht : s.st = some t)
    (f : CipherKey → Block → Title → Result) : withKeys s f = f k a t := by
  simp [withKeys, hk, ha, ht]

/-- A command that needs BK, AK and ST either raises `KeyNotLoaded` or runs with the three. -/
theorem withKeys_cases (s : State) (f : CipherKey → Block → Title → Result) :
    ((s.key = none ∨ s.ak = none ∨ s.st = none) ∧ withKeys s f = raise .keyNotLoaded s) ∨
      ∃ k a t, s.key = some k ∧ s.ak = some a ∧ s.st = some t ∧ withKeys s f = f k a t := by
  cases hk : s.key <;> cases ha : s.ak <;> cases ht : s.st <;> simp [withKeys, hk, ha, ht]

@[simp] theorem policyOf_policyByte (pol : Policy) : policyOf (policyByte pol) = some pol := by
  cases pol <;> rfl

theorem policyOf_eq_some {b : Byte} {pol : Policy} : policyOf b = some pol ↔ b = policyByte pol := by
  constructor
  · intro h
    unfold policyOf at h
    split at h
    · cases h; assumption
    · split at h
      · cases h; assumption
      · split at h
        · cases h; assumption
        · cases h
  · rintro rfl
    exact policyOf_policyByte pol

theorem policyOf_eq_none {b : Byte} : policyOf b = none ↔ b ≠ 0x10 ∧ b ≠ 0x20 ∧ b ≠ 0x30 := by
  unfold policyOf
  split <;> rename_i h1
  · simp [h1]
  · split <;> rename_i h2
    · simp [h2]
    · split <;> rename_i h3
      · simp [h3]
      · exact iff_of_true rfl ⟨h1, h2, h3⟩

/-- The formatter's common checks end in one of the two errors or hand over the data part and the tag. -/
theorem withCipherCore_cases (s : State) (p : Bytes) (f : Bytes → Option Tag → Result) :
    (policyOf s.sp = none ∧ withCipherCore s p f = raise .unsupportedSecurityPolicy s) ∨
      (∃ pol, policyOf s.sp = some pol ∧ (s.key = none ∨ s.ak = none ∨ s.st = none) ∧
        withCipherCore s p f = raise .keyNotLoaded s) ∨
      ∃ pol k a t, policyOf s.sp = some pol ∧ s.key = some k ∧ s.ak = some a ∧ s.st = some t ∧
        withCipherCore s p f =
          f (formatterCore .encrypt pol k a (formatterNonce t s.fc) p).1
            (formatterCore .encrypt pol k a (formatterNonce t s.fc) p).2 := by
  cases hp : policyOf s.sp with
  | none => exact .inl ⟨rfl, by simp [withCipherCore, hp]⟩
  | some pol =>
    refine .inr ?_
    rcases withKeys_cases s fun k ak st =>
        let dt := formatterCore .encrypt pol k ak (formatterNonce st s.fc) p
        f dt.1 dt.2 with ⟨hn, h⟩ | ⟨k, a, t, hk, ha, ht, h⟩
    · exact .inl ⟨pol, rfl, hn, by simpa [withCipherCore, hp] using h⟩
    · exact .inr ⟨pol, k, a, t, rfl, hk, ha, ht, by simpa [withCipherCore, hp] using h⟩

/-- The capacity test is the comparison with OUTBUF_CAP (R84, R6). -/
@[simp] theorem exceedsOutbuf_iff (n : Nat) : exceedsOutbuf n = true ↔ Config.outbufCap < n := by
  unfold exceedsOutbuf Config.outbufCap
  simp
  omega

theorem outbufCap_ge : 65536 ≤ Config.outbufCap := by unfold Config.outbufCap; omega

theorem outbufCap_lt : Config.outbufCap < 2 ^ 61 := by
  have := Config.outbufExtra.isLt
  unfold Config.outbufCap
  omega

/-- The counter test bounds all blocks of the message (R85). -/
@[simp] theorem exceedsCounterLimit_iff (t : Stream) (p : Bytes) :
    exceedsCounterLimit t p = true ↔
      t.pol ≠ .authentication ∧ 2 ^ 32 - 2 < t.nblk + ((t.buf ++ p).length + 15) / 16 := by
  simp [exceedsCounterLimit]

/-- The three verdicts on a tag (R89). -/
theorem tagVerdict_cases (t : Tag) (expected : Option Tag) (d : Bool) :
    (expected = some t ∧ tagVerdict t expected d = some false) ∨
      (expected ≠ some t ∧ d = true ∧ tagVerdict t expected d = some true) ∨
      (expected ≠ some t ∧ d = false ∧ tagVerdict t expected d = none) := by
  unfold tagVerdict
  by_cases h : expected = some t
  · exact .inl ⟨h, by simp [h]⟩
  · cases d
    · exact .inr (.inr ⟨h, rfl, by simp [h]⟩)
    · exact .inr (.inl ⟨h, rfl, by simp [h]⟩)

theorem errCode_injective : Function.Injective errCode := by
  intro a b h
  cases a <;> cases b <;> first | rfl | simp [errCode] at h

theorem errCode_lt (e : ErrCode) : (errCode e).toNat < 12 := by cases e <;> decide

end Sys2Proof.Machine
end

