-- ==== Sys2Proof/Laws/Port.lean ====
section
/-! SUPPORT. What stands on the command port and what the engine takes from it (20_memory R35, 30_encoding
R51). -/

namespace Sys2Proof.Machine

/-- Bytes that are there are taken in order (R35). -/
theorem takeBytes_map_byte (bs taken : Bytes) (rest : List Input) :
    takeBytes taken bs.length (bs.map .byte ++ rest) = .bytes (taken.reverse ++ bs) rest := by
  induction bs generalizing taken with
  | nil => simp [takeBytes]
  | cons b bs ih => simp [takeBytes, ih]

/-- Too few bytes with nothing behind them: the engine waits (R35). -/
theorem takeBytes_waiting (bs taken : Bytes) (n : Nat) (h : bs.length < n) :
    takeBytes taken n (bs.map .byte) = .waiting := by
  induction bs generalizing taken n with
  | nil => cases n with
    | zero => simp at h
    | succ n => rfl
  | cons b bs ih => cases n with
    | zero => simp at h
    | succ n => simp [takeBytes, ih _ n (by simpa using h)]

/-- A reset before the bytes are whole discards them (R146). -/
theorem takeBytes_reset (bs taken : Bytes) (n : Nat) (rest : List Input) (h : bs.length < n) :
    takeBytes taken n (bs.map .byte ++ .reset :: rest) = .reset rest := by
  induction bs generalizing taken n with
  | nil => cases n with
    | zero => simp at h
    | succ n => rfl
  | cons b bs ih => cases n with
    | zero => simp at h
    | succ n => simp [takeBytes, ih _ n (by simpa using h)]

/-- A whole command at the front of the port is what the engine finds (R51). -/
theorem nextArrival_command (opc arg hi lo : Byte) (p : Bytes) (rest : List Input)
    (h : beNat [hi, lo] = p.length) :
    nextArrival ((opc :: arg :: hi :: lo :: p).map .byte ++ rest) =
      .bytes (opc :: arg :: hi :: lo :: p) rest := by
  have h4 := takeBytes_map_byte [opc, arg, hi, lo] [] (p.map .byte ++ rest)
  have hp := takeBytes_map_byte p [] rest
  simp only [List.length_cons, List.length_nil, List.map_cons, List.map_nil, List.cons_append,
    List.nil_append, List.reverse_nil, Nat.zero_add] at h4 hp
  have h4' : takeBytes [] 4 (Input.byte opc :: Input.byte arg :: Input.byte hi :: Input.byte lo ::
      (p.map .byte ++ rest)) = .bytes [opc, arg, hi, lo] (p.map .byte ++ rest) := h4
  simp only [nextArrival, List.map_cons, List.cons_append]
  rw [h4']
  simp only [List.drop_succ_cons, List.drop_zero, h, hp, List.cons_append, List.nil_append]

@[simp] theorem instrOf_opcode (i : Instr) : instrOf i.opcode i.arg i.payload = some i := by
  cases i <;> rfl

/-- A command found by its opcode has that opcode, ARG and payload (R53). -/
theorem instrOf_eq_some {opc arg : Byte} {p : Bytes} {i : Instr} (h : instrOf opc arg p = some i) :
    i.opcode = opc ∧ i.arg = arg ∧ i.payload = p := by
  unfold instrOf at h
  split at h <;> first | (cases h; exact ⟨rfl, rfl, rfl⟩) | cases h

/-- The LEN field of an encodable command (R51). -/
theorem beNat_lengthField {i : Instr} (h : i.encodable = true) :
    beNat (beBytes 2 i.payload.length) = i.payload.length := by
  have h' : i.payload.length ≤ 65535 := by simpa [Instr.encodable] using h
  rw [beNat_beBytes]
  exact Nat.mod_eq_of_lt (by omega)

end Sys2Proof.Machine
end

