-- ==== Sys2Proof/Laws/Stream.lean ====
section
/-! SUPPORT. What processing a block changes in a GCM stream, and what it leaves (42_gcm_stream R83). -/

namespace Sys2Proof.Machine

section ProcessBlock
variable (t : Stream) (blk : Bytes)

/-- What a block becomes on the output (R83). -/
def blockOutput (t : Stream) (blk : Bytes) : Bytes :=
  if t.pol = .authentication then blk else xorBytes blk (blockBytes (aesEncrypt t.rk (inc32 t.cb)))

/-- `ProcessBlock` in one equation (R83). -/
theorem processBlock_eq :
    processBlock t blk =
      { t with
        nblk := if t.pol = .authentication then t.nblk else t.nblk + 1
        cb := if t.pol = .authentication then t.cb else inc32 t.cb
        acc := gfMul (t.acc ^^^ blockOf (cipherSide t.dir blk (blockOutput t blk))) t.h
        out := t.out ++ blockOutput t blk } := by
  cases h : t.pol <;> simp [processBlock, absorbBlock, blockOutput, h]

@[simp] theorem processBlock_dir : (processBlock t blk).dir = t.dir := by rw [processBlock_eq]
@[simp] theorem processBlock_pol : (processBlock t blk).pol = t.pol := by rw [processBlock_eq]
@[simp] theorem processBlock_rk : (processBlock t blk).rk = t.rk := by rw [processBlock_eq]
@[simp] theorem processBlock_h : (processBlock t blk).h = t.h := by rw [processBlock_eq]
@[simp] theorem processBlock_j0 : (processBlock t blk).j0 = t.j0 := by rw [processBlock_eq]
@[simp] theorem processBlock_buf : (processBlock t blk).buf = t.buf := by rw [processBlock_eq]
@[simp] theorem processBlock_lenA : (processBlock t blk).lenA = t.lenA := by rw [processBlock_eq]
@[simp] theorem processBlock_lenC : (processBlock t blk).lenC = t.lenC := by rw [processBlock_eq]
@[simp] theorem processBlock_tagIn : (processBlock t blk).tagIn = t.tagIn := by rw [processBlock_eq]
@[simp] theorem processBlock_nblk : (processBlock t blk).nblk =
    if t.pol = .authentication then t.nblk else t.nblk + 1 := by rw [processBlock_eq]
@[simp] theorem processBlock_cb : (processBlock t blk).cb =
    if t.pol = .authentication then t.cb else inc32 t.cb := by rw [processBlock_eq]
@[simp] theorem processBlock_out : (processBlock t blk).out = t.out ++ blockOutput t blk := by
  rw [processBlock_eq]

/-- The output of a block of at most 16 bytes is as long as the block (R83). -/
theorem length_blockOutput (h : blk.length ≤ 16) : (blockOutput t blk).length = blk.length := by
  unfold blockOutput
  split
  · rfl
  · simp [h]

end ProcessBlock

/-- Processing blocks leaves what one block leaves (R83). -/
theorem foldl_processBlock_frame (bs : List Bytes) (t : Stream) :
    (bs.foldl processBlock t).dir = t.dir ∧ (bs.foldl processBlock t).pol = t.pol ∧
      (bs.foldl processBlock t).rk = t.rk ∧ (bs.foldl processBlock t).h = t.h ∧
      (bs.foldl processBlock t).j0 = t.j0 ∧ (bs.foldl processBlock t).buf = t.buf ∧
      (bs.foldl processBlock t).lenA = t.lenA ∧ (bs.foldl processBlock t).lenC = t.lenC ∧
      (bs.foldl processBlock t).tagIn = t.tagIn := by
  induction bs generalizing t with
  | nil => simp
  | cons b bs ih => simpa using ih (processBlock t b)

/-- The counter-block count after whole blocks (R30, R83). -/
theorem foldl_processBlock_nblk (bs : List Bytes) (t : Stream) :
    (bs.foldl processBlock t).nblk =
      if t.pol = .authentication then t.nblk else t.nblk + bs.length := by
  induction bs generalizing t with
  | nil => simp
  | cons b bs ih =>
    rw [List.foldl_cons, ih]
    simp only [processBlock_pol, processBlock_nblk, List.length_cons]
    split <;> omega

/-- BUF and LENC are no inputs of `ProcessBlock` (R83). -/
theorem processBlock_with (t : Stream) (blk buf : Bytes) (n : Nat) :
    processBlock { t with buf := buf, lenC := n } blk =
      { processBlock t blk with buf := buf, lenC := n } := by
  cases h : t.pol <;> simp [processBlock, absorbBlock, h]

/-- BUF and LENC are no inputs of a run of blocks (R83). -/
theorem foldl_processBlock_with (bs : List Bytes) (t : Stream) (buf : Bytes) (n : Nat) :
    bs.foldl processBlock { t with buf := buf, lenC := n } =
      { bs.foldl processBlock t with buf := buf, lenC := n } := by
  induction bs generalizing t with
  | nil => rfl
  | cons b bs ih => rw [List.foldl_cons, processBlock_with, ih, List.foldl_cons]

end Sys2Proof.Machine
end

