-- ==== Sys2Proof/Laws/Exec.lean ====
section
/-! SUPPORT. What each command can do to the state, said once for all commands. -/

namespace Sys2Proof.Machine

/-- What a command that ends with outcome `e` leaves, before its outcome and response are recorded. -/
def Effect (i : Instr) (s : State) (e : ErrCode) (s' : State) : Prop :=
  match i with
  | .nop _ _ => e = .ok ∧ s' = { s with tagmm := false }
  | .ldbk _ p => e = .ok ∧ s' = { s with key := some (deriveKey (BitVec.ofNat 128 (beNat p))) }
  | .ldak _ p => e = .ok ∧ s' = { s with ak := some (BitVec.ofNat 128 (beNat p)) }
  | .ldst _ p => e = .ok ∧ s' = { s with st := some (BitVec.ofNat 64 (beNat p)) }
  | .ldfc _ p => e = .ok ∧ p.length = 4 ∧ s' = { s with fc := BitVec.ofNat 32 (beNat p) }
  | .ldsp a _ => e = .ok ∧ s' = { s with sp := a }
  | .ldctrl a _ => e = .ok ∧ a &&& 0xFE = 0x00 ∧ s' = { s with ctrl := a }
  | .reset _ _ => e = .ok ∧ s' = softReset s
  | .rdreg _ _ | .aesenc _ _ | .ghash _ _ | .cipherPacket _ _ | .cipherTag _ _ | .cipherData _ _
  | .cipherDatatag _ _ => e = .ok ∧ s' = s
  | .gcminitE a p => e = .ok ∧ s.stream = none ∧ ∃ pol k, a = policyByte pol ∧ s.key = some k ∧
      12 ≤ p.length ∧
      s' = { s with stream := some (startStream .encrypt pol k.rk k.h (nonceOf p) (p.drop 12) none) }
  | .gcminitD a p => e = .ok ∧ s.stream = none ∧ ∃ pol k, a = policyByte pol ∧ s.key = some k ∧
      12 + tagFieldLength pol ≤ p.length ∧
      s' = { s with stream := some (startStream .decrypt pol k.rk k.h (nonceOf p)
        (p.drop (12 + tagFieldLength pol))
        (if authenticates pol then some (tagOf ((p.drop 12).take 12)) else none)) }
  | .gcmwrite _ p => ∃ x, s.stream = some x ∧
      ((e = .lengthLimit ∧ s' = endStream s) ∨
        (e = .ok ∧ x.lenC + p.length ≤ Config.outbufCap ∧
          (x.pol ≠ .authentication → x.nblk + ((x.buf ++ p).length + 15) / 16 ≤ 2 ^ 32 - 2) ∧
          s' = { s with stream := some (writeStream x p) }))
  | .gcmfinal _ _ => ∃ x, s.stream = some x ∧
      ((e = .ok ∧ (authenticates x.pol = false ∨ x.dir = .encrypt) ∧ s' = endStream s) ∨
        (authenticates x.pol = true ∧ x.dir = .decrypt ∧
          ((e = .ok ∧ x.tagIn = some (streamTag (flushStream x)) ∧
              s' = { endStream s with tagmm := false }) ∨
            (e = .ok ∧ x.tagIn ≠ some (streamTag (flushStream x)) ∧ diag s = true ∧
              s' = { endStream s with tagmm := true }) ∨
            (e = .invalidTag ∧ x.tagIn ≠ some (streamTag (flushStream x)) ∧ diag s = false ∧
              s' = { endStream s with tagmm := false }))))
  | .gcmabort _ _ => e = .ok ∧ s' = endStream s
  | .secenc a _ => e = .ok ∧ ((¬ ciphersWith s a ∧ s' = s) ∨
      (ciphersWith s a ∧ ¬ (s.fc = 0xFFFFFFFF ∧ Config.fcOverflow = .fault) ∧
        s' = { s with fc := s.fc + 1 }))
  | .decipher _ p => ∃ v pol, parseEnvelope p = .ok v ∧ v.sp = policyByte pol ∧
      ((e = .ok ∧ authenticates pol = false ∧ s' = { s with rxsp := v.sp, rxfc := v.fc }) ∨
        (authenticates pol = true ∧
          ((e = .ok ∧ s' = { s with tagmm := false, rxsp := v.sp, rxfc := v.fc }) ∨
            (e = .ok ∧ diag s = true ∧ s' = { s with tagmm := true, rxsp := v.sp, rxfc := v.fc }) ∨
            (e = .invalidTag ∧ diag s = false ∧ s' = { s with tagmm := false }))))

/-- The outcomes that change nothing but STATUS.ERR (R123). -/
def CleanFailure (e : ErrCode) : Prop := e ≠ .ok ∧ e ≠ .lengthLimit ∧ e ≠ .invalidTag

section Flush
variable (x : Stream)

@[simp] theorem flushStream_pol : (flushStream x).pol = x.pol := by unfold flushStream; split <;> simp
@[simp] theorem flushStream_dir : (flushStream x).dir = x.dir := by unfold flushStream; split <;> simp
@[simp] theorem flushStream_tagIn : (flushStream x).tagIn = x.tagIn := by
  unfold flushStream; split <;> simp

end Flush

/-- The formatter computes a tag exactly where the policy has one (R91). -/
theorem formatterCore_tag (dir : Direction) (pol : Policy) (k : CipherKey) (ak : Block) (nonce : Nonce)
    (body : Bytes) :
    ∃ t : Tag, (formatterCore dir pol k ak nonce body).2 = if authenticates pol then some t else none := by
  cases pol
  · exact ⟨_, rfl⟩
  · exact ⟨0, rfl⟩
  · exact ⟨_, rfl⟩

/-- The errors of an envelope's form change nothing (R98, R123). -/
theorem parseEnvelope_error {p : Bytes} {e : ErrCode} (h : parseEnvelope p = .error e) :
    CleanFailure e := by
  unfold parseEnvelope at h
  repeat' split at h
  all_goals first | (cases h; exact ⟨nofun, nofun, nofun⟩) | cases h

/-- What a run of the formatter's common checks answers, for a continuation that fails cleanly or has an
effect. -/
theorem withCipherCore_effect (i : Instr) (s : State) (p : Bytes) (f : Bytes → Option Tag → Result)
    (h : ∀ d t, ∃ (e : ErrCode) (out : Bytes) (s' : State), f d t = .next (s'.complete e out) ∧
      (e ≠ .ok → out = []) ∧ ((CleanFailure e ∧ s' = s) ∨ Effect i s e s')) :
    ∃ (e : ErrCode) (out : Bytes) (s' : State), withCipherCore s p f = .next (s'.complete e out) ∧
      (e ≠ .ok → out = []) ∧ ((CleanFailure e ∧ s' = s) ∨ Effect i s e s') := by
  rcases withCipherCore_cases s p f with ⟨-, hf⟩ | ⟨_, -, -, hf⟩ | ⟨_, _, _, _, -, -, -, -, hf⟩
  · exact ⟨_, [], s, hf, fun _ => rfl, .inl ⟨⟨nofun, nofun, nofun⟩, rfl⟩⟩
  · exact ⟨_, [], s, hf, fun _ => rfl, .inl ⟨⟨nofun, nofun, nofun⟩, rfl⟩⟩
  · rw [hf]; exact h _ _

/-- Every command completes: with a failure that changes nothing else (R123), or with its effect (R36,
R41, R138). -/
theorem exec_effect (i : Instr) (s : State) : ∃ (e : ErrCode) (out : Bytes) (s' : State),
    exec i s = .next (s'.complete e out) ∧ (e ≠ .ok → out = []) ∧
      ((CleanFailure e ∧ s' = s) ∨ Effect i s e s') := by
  have fail (e : ErrCode) (h : CleanFailure e) :
      ∃ (e' : ErrCode) (out : Bytes) (s' : State),
        raise e s = .next (s'.complete e' out) ∧ (e' ≠ .ok → out = []) ∧
          ((CleanFailure e' ∧ s' = s) ∨ Effect i s e' s') :=
    ⟨e, [], s, rfl, fun _ => rfl, .inl ⟨h, rfl⟩⟩
  have done (e : ErrCode) (out : Bytes) (s' : State) (ho : e ≠ .ok → out = []) (h : Effect i s e s') :
      ∃ (e' : ErrCode) (out' : Bytes) (t : State),
        (Host.Outcome.next (s'.complete e out) : Result) = .next (t.complete e' out') ∧
          (e' ≠ .ok → out' = []) ∧ ((CleanFailure e' ∧ t = s) ∨ Effect i s e' t) :=
    ⟨e, out, s', rfl, ho, .inr h⟩
  cases i with
  | nop a p | ldbk a p | ldak a p | ldst a p | ldsp a p | reset a p | gcmabort a p =>
    simp only [exec, execNop, execLdbk, execLdak, execLdst, execLdsp, execReset, execGcmabort]
    repeat' split
    all_goals first
      | exact fail _ ⟨nofun, nofun, nofun⟩
      | exact done .ok [] _ (fun _ => rfl) ⟨rfl, rfl⟩
  | ldfc a p =>
    simp only [exec, execLdfc]
    split
    · exact fail _ ⟨nofun, nofun, nofun⟩
    split
    · exact fail _ ⟨nofun, nofun, nofun⟩
    · exact done .ok [] _ (fun _ => rfl) ⟨rfl, by omega, rfl⟩
  | ldctrl a p =>
    simp only [exec, execLdctrl]
    split
    · exact fail _ ⟨nofun, nofun, nofun⟩
    split
    · exact fail _ ⟨nofun, nofun, nofun⟩
    · exact done .ok [] _ (fun _ => rfl) ⟨rfl, by simp_all, rfl⟩
  | rdreg a p =>
    simp only [exec, execRdreg]
    repeat' split
    all_goals first
      | exact fail _ ⟨nofun, nofun, nofun⟩
      | exact done .ok _ s (fun h => absurd rfl h) ⟨rfl, rfl⟩
  | aesenc a p | ghash a p =>
    simp only [exec, execAesenc, execGhash, withKey]
    repeat' split
    all_goals first
      | exact fail _ ⟨nofun, nofun, nofun⟩
      | exact done .ok _ s (fun h => absurd rfl h) ⟨rfl, rfl⟩
  | gcminitE a p =>
    simp only [exec, execGcminitE, initStream, withKey, reduceCtorEq, if_false, Nat.add_zero]
    split
    · exact fail _ ⟨nofun, nofun, nofun⟩
    rename_i hs
    split
    · exact fail _ ⟨nofun, nofun, nofun⟩
    rename_i pol hp
    split
    · exact fail _ ⟨nofun, nofun, nofun⟩
    rename_i hl
    split
    · rename_i k hk
      exact done .ok [] _ (fun _ => rfl)
        ⟨rfl, hs, pol, k, policyOf_eq_some.1 hp, hk, by omega, by simp⟩
    · exact fail _ ⟨nofun, nofun, nofun⟩
  | gcminitD a p =>
    simp only [exec, execGcminitD, initStream, withKey, if_true]
    split
    · exact fail _ ⟨nofun, nofun, nofun⟩
    rename_i hs
    split
    · exact fail _ ⟨nofun, nofun, nofun⟩
    rename_i pol hp
    split
    · exact fail _ ⟨nofun, nofun, nofun⟩
    rename_i hl
    split
    · rename_i k hk
      exact done .ok [] _ (fun _ => rfl)
        ⟨rfl, hs, pol, k, policyOf_eq_some.1 hp, hk, by omega, by
          cases pol <;> simp [tagFieldLength, authenticates]⟩
    · exact fail _ ⟨nofun, nofun, nofun⟩
  | gcmwrite a p =>
    simp only [exec, execGcmwrite]
    split
    · exact fail _ ⟨nofun, nofun, nofun⟩
    split
    · exact fail _ ⟨nofun, nofun, nofun⟩
    rename_i x hx
    split
    · exact done .lengthLimit [] _ (fun _ => rfl) ⟨x, hx, .inl ⟨rfl, rfl⟩⟩
    rename_i h1
    split
    · exact done .lengthLimit [] _ (fun _ => rfl) ⟨x, hx, .inl ⟨rfl, rfl⟩⟩
    rename_i h2
    exact done .ok [] _ (fun _ => rfl) ⟨x, hx, .inr ⟨rfl, by simpa using h1, by simpa using h2, rfl⟩⟩
  | gcmfinal a p =>
    simp only [exec, execGcmfinal]
    split
    · exact fail _ ⟨nofun, nofun, nofun⟩
    split
    · exact fail _ ⟨nofun, nofun, nofun⟩
    rename_i x hx
    split
    · exact fail _ ⟨nofun, nofun, nofun⟩
    rw [flushStream_pol, flushStream_dir, flushStream_tagIn]
    split
    · rename_i h
      exact done .ok _ _ (fun h => absurd rfl h) ⟨x, hx, .inl ⟨rfl, .inl h, rfl⟩⟩
    · rename_i h
      exact done .ok _ _ (fun h => absurd rfl h) ⟨x, hx, .inl ⟨rfl, .inr h, rfl⟩⟩
    · rename_i ha hd
      rcases tagVerdict_cases (streamTag (flushStream x)) x.tagIn (diag s) with
        ⟨h1, h⟩ | ⟨h1, h2, h⟩ | ⟨h1, h2, h⟩ <;> rw [h]
      · exact done .ok _ _ (fun h => absurd rfl h) ⟨x, hx, .inr ⟨ha, hd, .inl ⟨rfl, h1, rfl⟩⟩⟩
      · exact done .ok _ _ (fun h => absurd rfl h)
          ⟨x, hx, .inr ⟨ha, hd, .inr (.inl ⟨rfl, h1, h2, rfl⟩)⟩⟩
      · exact done .invalidTag [] _ (fun _ => rfl)
          ⟨x, hx, .inr ⟨ha, hd, .inr (.inr ⟨rfl, h1, h2, rfl⟩)⟩⟩
  | cipherPacket a p =>
    exact withCipherCore_effect _ s p _ fun d t => done .ok _ s (fun h => absurd rfl h) ⟨rfl, rfl⟩
  | cipherTag a p | cipherData a p | cipherDatatag a p =>
    simp only [exec, execCipherTag, execCipherData, execCipherDatatag]
    split
    · exact fail _ ⟨nofun, nofun, nofun⟩
    · exact withCipherCore_effect _ s p _ fun d t => done .ok _ s (fun h => absurd rfl h) ⟨rfl, rfl⟩
  | secenc a p =>
    simp only [exec, execSecenc]
    split
    · rename_i h
      exact done .ok p s (fun h => absurd rfl h)
        ⟨rfl, .inl ⟨by simp only [ciphersWith]; tauto, rfl⟩⟩
    rename_i h
    refine withCipherCore_effect _ s p _ fun d t => ?_
    split
    · exact fail _ ⟨nofun, nofun, nofun⟩
    · rename_i hf
      exact done .ok _ _ (fun h => absurd rfl h)
        ⟨rfl, .inr ⟨by simp only [ciphersWith]; tauto, hf, rfl⟩⟩
  | decipher a p =>
    simp only [exec, execDecipher]
    split
    · exact fail _ ⟨nofun, nofun, nofun⟩
    split
    · rename_i e he
      exact fail e (parseEnvelope_error he)
    rename_i v hv
    split
    · exact fail _ ⟨nofun, nofun, nofun⟩
    rename_i pol hp
    have hp' := policyOf_eq_some.1 hp
    simp only [withKeys]
    split
    swap
    · exact fail _ ⟨nofun, nofun, nofun⟩
    rename_i k ak st _ _ _
    cases hsp : splitTag pol v.rest with
    | none => exact fail _ ⟨nofun, nofun, nofun⟩
    | some bt =>
      obtain ⟨body, tin⟩ := bt
      dsimp only
      obtain ⟨t, ht⟩ := formatterCore_tag .decrypt pol k ak (formatterNonce st v.fc) body
      rw [ht]
      cases ha : authenticates pol with
      | false =>
        exact done .ok _ _ (fun h => absurd rfl h) ⟨v, pol, hv, hp', .inl ⟨rfl, ha, rfl⟩⟩
      | true =>
        simp only [if_true]
        rcases tagVerdict_cases t tin (diag s) with ⟨-, h⟩ | ⟨-, h2, h⟩ | ⟨-, h2, h⟩ <;> rw [h]
        · exact done .ok _ _ (fun h => absurd rfl h) ⟨v, pol, hv, hp', .inr ⟨ha, .inl ⟨rfl, rfl⟩⟩⟩
        · exact done .ok _ _ (fun h => absurd rfl h)
            ⟨v, pol, hv, hp', .inr ⟨ha, .inr (.inl ⟨rfl, h2, rfl⟩)⟩⟩
        · exact done .invalidTag [] _ (fun _ => rfl)
            ⟨v, pol, hv, hp', .inr ⟨ha, .inr (.inr ⟨rfl, h2, rfl⟩)⟩⟩

end Sys2Proof.Machine
end

