-- ==== Sys2Proof/Laws/Field.lean ====
section
/-! SUPPORT. The loop of R71 is additive in every argument and commutes with multiplication by `x`
(41_ghash R70 to R73). -/

namespace Sys2Proof.Machine

theorem xor_swap (a b c : Block) : a ^^^ (b ^^^ c) = b ^^^ (a ^^^ c) := by
  rw [← BitVec.xor_assoc, BitVec.xor_comm a b, BitVec.xor_assoc]

@[simp] theorem timesX_zero : timesX 0 = 0 := by decide

/-- Multiplication by `x` is additive. -/
theorem timesX_xor (a b : Block) : timesX (a ^^^ b) = timesX a ^^^ timesX b := by
  unfold timesX
  rw [BitVec.getMsbD_xor, BitVec.ushiftRight_xor_distrib]
  cases a.getMsbD 127 <;> cases b.getMsbD 127 <;>
    simp [BitVec.xor_assoc, BitVec.xor_comm (b >>> 1)]

/-- The loop is additive in its accumulator and in `V`. -/
theorem gfLoop_xor (x : Block) (n : Nat) (z z' v v' : Block) :
    gfLoop x n (z ^^^ z') (v ^^^ v') = gfLoop x n z v ^^^ gfLoop x n z' v' := by
  induction n generalizing z z' v v' with
  | zero => rfl
  | succ n ih =>
    simp only [gfLoop, timesX_xor]
    rw [← ih]
    congr 1
    split
    · simp only [BitVec.xor_assoc, xor_swap z' v v']
    · rfl

/-- The loop is additive in `X` and in its accumulator. -/
theorem gfLoop_xor_left (x x' : Block) (n : Nat) (z z' v : Block) :
    gfLoop (x ^^^ x') n (z ^^^ z') v = gfLoop x n z v ^^^ gfLoop x' n z' v := by
  induction n generalizing z z' v with
  | zero => rfl
  | succ n ih =>
    simp only [gfLoop, BitVec.getMsbD_xor]
    rw [← ih]
    congr 1
    cases x.getMsbD (127 - n) <;> cases x'.getMsbD (127 - n) <;> simp
    · rw [BitVec.xor_assoc]
    · rw [BitVec.xor_assoc, BitVec.xor_comm z' v, ← BitVec.xor_assoc]
    · rw [BitVec.xor_assoc, xor_swap v, BitVec.xor_self, BitVec.xor_zero]

/-- Any additive map that commutes with multiplication by `x` passes through the loop. -/
theorem map_gfLoop (f : Block → Block) (hadd : ∀ a b, f (a ^^^ b) = f a ^^^ f b)
    (hx : ∀ a, f (timesX a) = timesX (f a)) (x : Block) (n : Nat) (z v : Block) :
    f (gfLoop x n z v) = gfLoop x n (f z) (f v) := by
  induction n generalizing z v with
  | zero => rfl
  | succ n ih =>
    simp only [gfLoop]
    rw [ih, hx]
    congr 1
    split <;> simp [hadd]

/-- The loop skips the bits of `X` that are 0. -/
theorem gfLoop_of_bits_zero (x : Block) (n : Nat) (z v : Block)
    (h : ∀ i, 128 - n ≤ i → i < 128 → x.getMsbD i = false) (hn : n ≤ 128) : gfLoop x n z v = z := by
  induction n generalizing z v with
  | zero => rfl
  | succ n ih =>
    rw [gfLoop, h (127 - n) (by omega) (by omega)]
    exact ih _ _ (fun i h1 h2 => h i (by omega) h2) (by omega)

theorem timesX_iterate_zero (n : Nat) : timesX^[n] 0 = 0 := by
  induction n with
  | zero => rfl
  | succ n ih => rw [Function.iterate_succ_apply', ih, timesX_zero]

theorem timesX_iterate_xor (n : Nat) (a b : Block) :
    timesX^[n] (a ^^^ b) = timesX^[n] a ^^^ timesX^[n] b := by
  induction n generalizing a b with
  | zero => rfl
  | succ n ih => simp only [Function.iterate_succ_apply, timesX_xor, ih]

/-- An entry of the Shoup tables (R73). -/
theorem shoupTables_getElem (h : Block) (k : Fin 32) (n : Fin 16) :
    ((shoupTables h)[k])[n] = gfMul (nib k.val (BitVec.ofFin n)) h := by simp [shoupTables]

/-- The product read from the tables of `h`, as products by `h` (R73). -/
theorem tableProduct_shoupTables (h x : Block) :
    tableProduct (shoupTables h) x =
      (List.finRange 32).foldl (fun z k => z ^^^ gfMul (nib k.val (nibble x k.val)) h) 0 := by
  have e : (fun (z : Block) (k : Fin 32) => z ^^^ ((shoupTables h)[k])[(nibble x k.val).toFin]) =
      fun z k => z ^^^ gfMul (nib k.val (nibble x k.val)) h := by
    funext z k
    exact congrArg (z ^^^ ·) (shoupTables_getElem h k (nibble x k.val).toFin)
  exact congrArg (fun f => (List.finRange 32).foldl f 0) e

/-- A block is the sum of its nibbles (R73). -/
theorem foldl_nib (x : Block) :
    (List.finRange 32).foldl (fun z k => z ^^^ nib k.val (nibble x k.val)) 0 = x := by
  apply BitVec.eq_of_getLsbD_eq
  intro i hi
  have step (l : List (Fin 32)) (z : Block) :
      (l.foldl (fun z k => z ^^^ nib k.val (nibble x k.val)) z).getLsbD i =
        l.foldl (fun b k => b ^^ (nib k.val (nibble x k.val)).getLsbD i) (z.getLsbD i) := by
    induction l generalizing z with
    | nil => rfl
    | cons k l ih => simp only [List.foldl_cons, ih, BitVec.getLsbD_xor]
  have bit (k : Fin 32) : (nib k.val (nibble x k.val)).getLsbD i =
      (decide (k.val = 31 - i / 4) && x.getLsbD i) := by
    have hk := k.isLt
    by_cases e : k.val = 31 - i / 4
    · rw [e]
      have h1 : 4 * (31 - (31 - i / 4)) = 4 * (i / 4) := by omega
      have h2 : 4 * (i / 4) + (i - 4 * (i / 4)) = i := by omega
      have h3 : i - 4 * (i / 4) < 4 := by omega
      have h4 : ¬ i < 4 * (i / 4) := by omega
      simp [nib, nibble, h1, h2, h3, h4, hi]
    · have h4 : i < 4 * (31 - k.val) ∨ 4 ≤ i - 4 * (31 - k.val) := by omega
      rcases h4 with h4 | h4
      · simp [nib, h4, e]
      · simp [nib, e, BitVec.getLsbD_of_ge _ _ h4]
  rw [step]
  simp only [bit]
  have hk : ∃ k : Fin 32, k.val = 31 - i / 4 := ⟨⟨31 - i / 4, by omega⟩, rfl⟩
  obtain ⟨k, hk⟩ := hk
  rw [← hk]
  simp only [Fin.val_inj]
  rw [show (0 : Block).getLsbD i = false by simp]
  generalize x.getLsbD i = b
  clear hk bit step hi
  revert b k
  decide +kernel

end Sys2Proof.Machine
end

