-- ==== Sys2Proof/Laws/Invariant.lean ====
section
/-! SUPPORT. The GCM stream's operations keep its invariants (10_state R30). -/

namespace Sys2Proof.Machine

@[simp] theorem inc32_counterAfter (j : Block) (n : Nat) :
    inc32 (counterAfter j n) = counterAfter j (n + 1) := by
  have h1 : (counterAfter j n).extractLsb' 32 96 = j.extractLsb' 32 96 := by
    apply BitVec.eq_of_getLsbD_eq
    intro i hi
    simp only [counterAfter, BitVec.getLsbD_extractLsb', BitVec.getLsbD_append]
    simp [hi]
  have h2 : (counterAfter j n).extractLsb' 0 32 = j.extractLsb' 0 32 + BitVec.ofNat 32 n := by
    apply BitVec.eq_of_getLsbD_eq
    intro i hi
    simp only [counterAfter, BitVec.getLsbD_extractLsb', BitVec.getLsbD_append]
    simp [hi]
  rw [inc32, h1, h2, counterAfter, BitVec.add_assoc]
  congr 2
  apply BitVec.eq_of_toNat_eq
  simp [BitVec.toNat_add]

@[simp] theorem initialCounter_low (nonce : Nonce) :
    (initialCounter nonce).extractLsb' 0 32 = 1#32 := by
  apply BitVec.eq_of_getLsbD_eq
  intro i hi
  simp only [initialCounter, BitVec.getLsbD_extractLsb', BitVec.getLsbD_append]
  simp [hi]

@[simp] theorem counterAfter_zero (j : Block) : counterAfter j 0 = j := by
  apply BitVec.eq_of_getLsbD_eq
  intro i hi
  simp only [counterAfter, BitVec.add_zero, BitVec.getLsbD_append, BitVec.getLsbD_extractLsb']
  split <;> rename_i h
  · simp [h]
  · have : i - 32 < 96 := by omega
    simp [this, show 32 + (i - 32) = i by omega]

/-- Whole blocks keep the counts of R30. -/
theorem foldl_processBlock_counts (bs : List Bytes) (hb : ∀ b ∈ bs, b.length = 16) (t : Stream)
    (h1 : t.nblk = if t.pol = .authentication then 0 else t.out.length / 16)
    (h2 : t.cb = counterAfter t.j0 t.nblk) (h3 : t.out.length % 16 = 0) :
    ((bs.foldl processBlock t).nblk =
        if (bs.foldl processBlock t).pol = .authentication then 0
        else (bs.foldl processBlock t).out.length / 16) ∧
      (bs.foldl processBlock t).cb =
        counterAfter (bs.foldl processBlock t).j0 (bs.foldl processBlock t).nblk ∧
      (bs.foldl processBlock t).out.length % 16 = 0 ∧
      (bs.foldl processBlock t).out.length = t.out.length + 16 * bs.length := by
  induction bs generalizing t with
  | nil => exact ⟨h1, h2, h3, rfl⟩
  | cons b bs ih =>
    have hb16 := hb b (by simp)
    have hl := length_blockOutput t b (by omega)
    obtain ⟨g1, g2, g3, g4⟩ := ih (fun x hx => hb x (by simp [hx])) (processBlock t b)
      (by rw [processBlock_nblk, processBlock_pol, processBlock_out, List.length_append, hl, hb16, h1]
          split <;> omega)
      (by rw [processBlock_nblk, processBlock_cb, processBlock_j0, h2]
          split
          · rfl
          · exact inc32_counterAfter _ _)
      (by rw [processBlock_out, List.length_append, hl, hb16]; omega)
    refine ⟨g1, g2, g3, ?_⟩
    rw [List.foldl_cons, g4, processBlock_out, List.length_append, hl, hb16, List.length_cons]
    ring

/-- A write within the limits keeps the stream sound (R30, R85). -/
theorem writeStream_sound {t : Stream} (h : streamSound t) (p : Bytes)
    (hc : t.lenC + p.length ≤ Config.outbufCap)
    (hn : t.pol ≠ .authentication → t.nblk + ((t.buf ++ p).length + 15) / 16 ≤ 2 ^ 32 - 2) :
    streamSound (writeStream t p) := by
  have hp : ∀ b ∈ pieces ((t.buf ++ p).length / 16) (t.buf ++ p), b.length = 16 := fun b hb =>
    length_of_mem_pieces (by omega) hb
  obtain ⟨g1, g2, g3, g4⟩ := foldl_processBlock_counts _ hp t h.nblk_counts h.cb_counts h.out_whole
  obtain ⟨f1, f2, f3, f4, f5, -, f7, -, f9⟩ :=
    foldl_processBlock_frame (pieces ((t.buf ++ p).length / 16) (t.buf ++ p)) t
  have hnb := foldl_processBlock_nblk (pieces ((t.buf ++ p).length / 16) (t.buf ++ p)) t
  have hlen := h.lenC_counts
  simp only [length_pieces] at g4 hnb
  constructor <;> simp only [writeStream]
  · simp only [List.length_drop]; omega
  · rw [g4]; simp only [List.length_drop, List.length_append] at *; omega
  · exact g3
  · exact g1
  · exact g2
  · have hk := h.nblk_counts
    rw [hnb]
    simp only [List.length_drop]
    split
    · rw [if_pos ‹_›] at hk
      omega
    · have := hn ‹_›
      omega
  · exact hc
  · rw [f7]; exact h.lenA_limit
  · rw [f5]; exact h.j0_form
  · rw [f3, f4]; exact h.h_keyed
  · rw [f9, f1, f2]; exact h.tag_expected

/-- A stream that starts is sound (R30, R79, R81, R82). -/
theorem startStream_sound (dir : Direction) (pol : Policy) (k : CipherKey) (hk : derivedFromKey k)
    (nonce : Nonce) (aad : Bytes) (tagIn : Option Tag) (ha : aad.length ≤ 65523)
    (ht : tagIn.isSome = (dir == .decrypt && authenticates pol)) :
    streamSound (startStream dir pol k.rk k.h nonce aad tagIn) := by
  constructor <;> simp only [startStream]
  · decide
  · rfl
  · rfl
  · simp
  · exact (counterAfter_zero _).symm
  · decide
  · exact Nat.zero_le _
  · exact ha
  · exact initialCounter_low nonce
  · exact hk.2.1
  · exact ht

end Sys2Proof.Machine
end

