-- ==== Sys2Proof/Laws/Message.lean ====
section
/-! SUPPORT. A whole message through the GCM stream: one write and the flush are the processing of its
16-byte pieces, the last of which may be shorter (42_gcm_stream R83, R84, R88). -/

namespace Sys2Proof.Machine

/-- One write and the flush process the pieces of the data in order (R84, R88). -/
theorem flushStream_writeStream (t : Stream) (d : Bytes) (h : t.buf = []) :
    flushStream (writeStream t d) =
      { (pieces ((d.length + 15) / 16) d).foldl processBlock t with
        buf := [], lenC := t.lenC + d.length } := by
  have hw : writeStream t d = { (pieces (d.length / 16) d).foldl processBlock t with
      buf := d.drop (16 * (d.length / 16)), lenC := t.lenC + d.length } := by
    simp [writeStream, h]
  by_cases hr : d.length % 16 = 0
  · have e : (d.length + 15) / 16 = d.length / 16 := by omega
    have e0 : d.drop (16 * (d.length / 16)) = [] := List.drop_eq_nil_of_le (by omega)
    rw [hw, e, e0]
    simp [flushStream]
  · have e : (d.length + 15) / 16 = d.length / 16 + 1 := by omega
    have e0 : d.drop (16 * (d.length / 16)) ≠ [] := by
      intro hn
      have := congrArg List.length hn
      simp at this
      omega
    have e1 : pieces 1 (d.drop (16 * (d.length / 16))) = [d.drop (16 * (d.length / 16))] := by
      simp only [pieces]
      rw [List.take_of_length_le (by simp; omega)]
    rw [hw, e, pieces_add, List.foldl_append, e1]
    simp only [flushStream, e0, if_false, List.foldl_cons, List.foldl_nil]
    rw [processBlock_with]

/-- The accumulator of a decrypt stream hashes the received data (R83). -/
theorem foldl_processBlock_acc_decrypt (bs : List Bytes) (t : Stream) (h : t.dir = .decrypt) :
    (bs.foldl processBlock t).acc = bs.foldl (fun a b => gfMul (a ^^^ blockOf b) t.h) t.acc := by
  induction bs generalizing t with
  | nil => rfl
  | cons b bs ih =>
    rw [List.foldl_cons, ih _ (by simp [h]), List.foldl_cons, processBlock_h, processBlock_eq]
    simp [h, cipherSide]

/-- The outputs of the blocks of a message, block by block (R83). -/
def blockOutputs : List Bytes → Stream → List Bytes
  | [], _ => []
  | b :: bs, t => blockOutput t b :: blockOutputs bs (processBlock t b)

/-- The output is the outputs of the blocks, one after the other (R83). -/
theorem foldl_processBlock_out (bs : List Bytes) (t : Stream) :
    (bs.foldl processBlock t).out = t.out ++ (blockOutputs bs t).flatten := by
  induction bs generalizing t with
  | nil => simp [blockOutputs]
  | cons b bs ih => rw [List.foldl_cons, ih, processBlock_out]; simp [blockOutputs]

/-- The accumulator of an encrypt stream hashes the outputs of its blocks (R83). -/
theorem foldl_processBlock_acc_encrypt (bs : List Bytes) (t : Stream) (h : t.dir = .encrypt) :
    (bs.foldl processBlock t).acc =
      (blockOutputs bs t).foldl (fun a b => gfMul (a ^^^ blockOf b) t.h) t.acc := by
  induction bs generalizing t with
  | nil => rfl
  | cons b bs ih =>
    rw [List.foldl_cons, ih _ (by simp [h]), blockOutputs, List.foldl_cons, processBlock_h]
    rw [show (processBlock t b).acc = gfMul (t.acc ^^^ blockOf (blockOutput t b)) t.h by
      rw [processBlock_eq]; simp [h, cipherSide]]

@[simp] theorem length_blockOutputs (bs : List Bytes) (t : Stream) :
    (blockOutputs bs t).length = bs.length := by
  induction bs generalizing t with
  | nil => rfl
  | cons b bs ih => simp [blockOutputs, ih]

/-- Blocks of at most 16 bytes keep their lengths (R83). -/
theorem length_of_blockOutputs (bs : List Bytes) (t : Stream) (h : ∀ b ∈ bs, b.length ≤ 16) :
    (blockOutputs bs t).map List.length = bs.map List.length := by
  induction bs generalizing t with
  | nil => rfl
  | cons b bs ih =>
    simp [blockOutputs, ih _ fun x hx => h x (by simp [hx]), length_blockOutput t b (h b (by simp))]

/-- Every piece has at most 16 bytes (R84). -/
theorem length_le_of_mem_pieces {n : Nat} {b x : Bytes} (hx : x ∈ pieces n b) : x.length ≤ 16 := by
  induction n generalizing b with
  | zero => simp [pieces] at hx
  | succ n ih =>
    rcases List.mem_cons.1 hx with rfl | hx
    · simp
    · exact ih hx

/-- Pieces that are whole but for the last are the pieces of their concatenation (R84). -/
theorem pieces_of_lengths (d : Bytes) (n : Nat) (cs : List Bytes)
    (h : cs.map List.length = (pieces n d).map List.length) (hn : d.length ≤ 16 * n) :
    pieces n cs.flatten = cs := by
  induction n generalizing d cs with
  | zero => simp [pieces] at h ⊢; exact h
  | succ n ih =>
    cases cs with
    | nil => simp [pieces] at h
    | cons c cs =>
      simp only [pieces, List.map_cons, List.cons.injEq] at h
      have hc : c.length ≤ 16 := by rw [h.1]; simp
      have htail := ih (d.drop 16) cs h.2 (by simp; omega)
      by_cases h16 : c.length = 16
      · rw [pieces, List.flatten_cons, List.take_append_of_le_length (by omega),
          List.drop_append_of_le_length (by omega), List.take_of_length_le (by omega),
          List.drop_eq_nil_of_le (by omega), List.nil_append, htail]
      · have hd : d.length < 16 := by
          have := h.1
          simp at this
          omega
        have he : cs.flatten = [] := by
          have hz : ∀ m, (pieces m ([] : Bytes)).map List.length = List.replicate m 0 := by
            intro m
            induction m with
            | zero => rfl
            | succ m ihm => simp [pieces, ihm, List.replicate_succ]
          have h2 := h.2
          rw [List.drop_eq_nil_of_le (by omega), hz] at h2
          rw [List.flatten_eq_nil_iff]
          intro x hx
          have : x.length ∈ cs.map List.length := List.mem_map_of_mem hx
          rw [h2] at this
          exact List.length_eq_zero_iff.1 (List.eq_of_mem_replicate this)
        rw [pieces, List.flatten_cons, he, List.append_nil, List.take_of_length_le hc,
          List.drop_eq_nil_of_le hc]
        rw [he] at htail
        rw [htail]

/-- The stream at the end of a message written whole (R84, R88, R91). -/
def message (t : Stream) (d : Bytes) : Stream := flushStream (writeStream t d)

section Message
variable (t : Stream) (d : Bytes) (h : t.buf = [])
include h

/-- The output of a message is the outputs of its pieces (R83). -/
theorem message_out : (message t d).out =
    t.out ++ (blockOutputs (pieces ((d.length + 15) / 16) d) t).flatten := by
  rw [message, flushStream_writeStream t d h]
  exact foldl_processBlock_out _ _

/-- Under policy 0x10 the output of a message is its data (R78, R83). -/
theorem message_out_authentication (hp : t.pol = .authentication) :
    (message t d).out = t.out ++ d := by
  have hb : ∀ (bs : List Bytes) (x : Stream), x.pol = .authentication → blockOutputs bs x = bs := by
    intro bs
    induction bs with
    | nil => intros; rfl
    | cons b bs ih =>
      intro x hx
      rw [blockOutputs, ih _ (by simp [hx]), blockOutput, if_pos hx]
  rw [message_out t d h, hb _ _ hp, flatten_pieces, List.take_of_length_le (by omega)]

/-- The output of a message is as long as its data (R83, R92). -/
theorem length_message_out : (message t d).out.length = t.out.length + d.length := by
  rw [message_out t d h, List.length_append, List.length_flatten,
    length_of_blockOutputs _ _ (fun b hb => length_le_of_mem_pieces hb), ← List.length_flatten,
    flatten_pieces]
  simp
  omega

/-- What a message leaves as its stream started (R83). -/
theorem message_frame : (message t d).dir = t.dir ∧ (message t d).pol = t.pol ∧ (message t d).rk = t.rk ∧
    (message t d).h = t.h ∧ (message t d).j0 = t.j0 ∧ (message t d).lenA = t.lenA ∧
    (message t d).lenC = t.lenC + d.length ∧ (message t d).tagIn = t.tagIn := by
  obtain ⟨f1, f2, f3, f4, f5, -, f7, -, f9⟩ :=
    foldl_processBlock_frame (pieces ((d.length + 15) / 16) d) t
  rw [message, flushStream_writeStream t d h]
  exact ⟨f1, f2, f3, f4, f5, f7, rfl, f9⟩

/-- The accumulator of a message hashes its ciphertext, whichever side that is (R83, R86). -/
theorem message_acc (ho : t.out = []) : (message t d).acc =
    ghashUpdate t.acc t.h (if t.dir = .encrypt then (message t d).out else d) := by
  have hl := length_message_out t d h
  have hout := message_out t d h
  rw [ho, List.nil_append] at hout
  have hacc : (message t d).acc = ((pieces ((d.length + 15) / 16) d).foldl processBlock t).acc := by
    rw [message, flushStream_writeStream t d h]
  rw [hacc]
  cases hd : t.dir with
  | decrypt => rw [foldl_processBlock_acc_decrypt _ _ hd]; rfl
  | encrypt =>
    rw [foldl_processBlock_acc_encrypt _ _ hd, if_pos rfl, ghashUpdate, hl, ho, List.length_nil,
      Nat.zero_add, hout, pieces_of_lengths d _ _
        (length_of_blockOutputs _ _ fun b hb => length_le_of_mem_pieces hb) (by omega)]

end Message

/-- Folding whole blocks and then more is folding their concatenation (R74). -/
theorem ghashUpdate_append (acc h : Block) (a b : Bytes) (ha : a.length % 16 = 0) :
    ghashUpdate acc h (a ++ b) = ghashUpdate (ghashUpdate acc h a) h b := by
  have e : ((a ++ b).length + 15) / 16 = a.length / 16 + (b.length + 15) / 16 := by simp; omega
  have e1 : (a.length + 15) / 16 = a.length / 16 := by omega
  have hp : pieces (a.length / 16) (a ++ b) = pieces (a.length / 16) a := by
    have h1 := pieces_flatten (pieces (a.length / 16) a)
      (fun x hx => length_of_mem_pieces (by omega) hx) 0 b
    rw [flatten_pieces, List.take_of_length_le (by omega)] at h1
    simpa [pieces] using h1
  rw [ghashUpdate, e, pieces_add, List.foldl_append, hp, ghashUpdate, ghashUpdate, e1]
  congr 2
  rw [List.drop_append_of_le_length (by omega), List.drop_eq_nil_of_le (by omega), List.nil_append]

end Sys2Proof.Machine
end

