-- ==== Sys2Proof/Laws/PerInstr.lean ====
section
/-! SUPPORT. Per-instruction families: the rows of `spec/opcode_table.json`. -/

namespace Sys2Proof.Laws

/-- The match and mask of a command's row of `spec/opcode_table.json`. -/
def rowOf : Instr → BitVec 32 × BitVec 32
  | .nop _ _ => (0x00000000, 0xFFFF0000)
  | .ldbk _ _ => (0x01000000, 0xFFFF0000)
  | .ldak _ _ => (0x02000000, 0xFFFF0000)
  | .ldst _ _ => (0x03000000, 0xFFFF0000)
  | .ldfc _ _ => (0x04000000, 0xFFFF0000)
  | .ldsp _ _ => (0x05000000, 0xFF000000)
  | .ldctrl _ _ => (0x06000000, 0xFFFE0000)
  | .rdreg _ _ => (0x07000000, 0xFF000000)
  | .reset _ _ => (0x0F000000, 0xFFFF0000)
  | .aesenc _ _ => (0x10000000, 0xFFFF0000)
  | .ghash _ _ => (0x11000000, 0xFFFF0000)
  | .gcminitE _ _ => (0x20000000, 0xFF000000)
  | .gcminitD _ _ => (0x21000000, 0xFF000000)
  | .gcmwrite _ _ => (0x22000000, 0xFFFF0000)
  | .gcmfinal _ _ => (0x23000000, 0xFFFF0000)
  | .gcmabort _ _ => (0x24000000, 0xFFFF0000)
  | .cipherPacket _ _ => (0x40000000, 0xFF000000)
  | .cipherTag _ _ => (0x41000000, 0xFFFF0000)
  | .cipherData _ _ => (0x42000000, 0xFFFF0000)
  | .cipherDatatag _ _ => (0x43000000, 0xFFFF0000)
  | .secenc _ _ => (0x44000000, 0xFF000000)
  | .decipher _ _ => (0x48000000, 0xFFFF0000)

/-- The header word of a command whose ARG its rule accepts is one of its row's words. -/
def TableRow.Statement (i : Instr) : Prop :=
  i.argAccepted = true → headerWord i &&& (rowOf i).2 = (rowOf i).1

/-- The header word's parts, where the row fixes OPC alone. -/
theorem headerWord_opcode (i : Instr) : headerWord i &&& 0xFF000000 = i.opcode ++ 0#24 := by
  apply BitVec.eq_of_getLsbD_eq
  intro j hj
  rw [headerWord, BitVec.getLsbD_and]
  simp only [BitVec.getLsbD_append]
  interval_cases j <;> simp

/-- The header word's parts, where the row fixes OPC and ARG. -/
theorem headerWord_opcode_arg (i : Instr) : headerWord i &&& 0xFFFF0000 = i.opcode ++ i.arg ++ 0#16 := by
  apply BitVec.eq_of_getLsbD_eq
  intro j hj
  rw [headerWord, BitVec.getLsbD_and]
  simp only [BitVec.getLsbD_append]
  interval_cases j <;> simp

/-- The header word's parts, where the row fixes OPC and the upper seven bits of ARG. -/
theorem headerWord_opcode_arg7 (i : Instr) :
    headerWord i &&& 0xFFFE0000 = i.opcode ++ (i.arg &&& 0xFE : Byte) ++ 0#16 := by
  apply BitVec.eq_of_getLsbD_eq
  intro j hj
  rw [headerWord, BitVec.getLsbD_and]
  simp only [BitVec.getLsbD_append]
  interval_cases j <;> simp

theorem TableRow.nop (arg : Byte) (p : Bytes) : TableRow.Statement (.nop arg p) := by
  intro h
  have h0 : arg = 0x00 := by simpa [Instr.argAccepted] using h
  subst h0
  refine (headerWord_opcode_arg (.nop 0x00 p)).trans ?_
  simp only [Instr.opcode, Instr.arg, rowOf]
  decide

theorem TableRow.ldbk (arg : Byte) (p : Bytes) : TableRow.Statement (.ldbk arg p) := by
  intro h
  have h0 : arg = 0x00 := by simpa [Instr.argAccepted] using h
  subst h0
  refine (headerWord_opcode_arg (.ldbk 0x00 p)).trans ?_
  simp only [Instr.opcode, Instr.arg, rowOf]
  decide

theorem TableRow.ldak (arg : Byte) (p : Bytes) : TableRow.Statement (.ldak arg p) := by
  intro h
  have h0 : arg = 0x00 := by simpa [Instr.argAccepted] using h
  subst h0
  refine (headerWord_opcode_arg (.ldak 0x00 p)).trans ?_
  simp only [Instr.opcode, Instr.arg, rowOf]
  decide

theorem TableRow.ldst (arg : Byte) (p : Bytes) : TableRow.Statement (.ldst arg p) := by
  intro h
  have h0 : arg = 0x00 := by simpa [Instr.argAccepted] using h
  subst h0
  refine (headerWord_opcode_arg (.ldst 0x00 p)).trans ?_
  simp only [Instr.opcode, Instr.arg, rowOf]
  decide

theorem TableRow.ldfc (arg : Byte) (p : Bytes) : TableRow.Statement (.ldfc arg p) := by
  intro h
  have h0 : arg = 0x00 := by simpa [Instr.argAccepted] using h
  subst h0
  refine (headerWord_opcode_arg (.ldfc 0x00 p)).trans ?_
  simp only [Instr.opcode, Instr.arg, rowOf]
  decide

theorem TableRow.ldsp (arg : Byte) (p : Bytes) : TableRow.Statement (.ldsp arg p) := by
  intro _
  refine (headerWord_opcode (.ldsp arg p)).trans ?_
  simp only [Instr.opcode, rowOf]
  decide

theorem TableRow.ldctrl (arg : Byte) (p : Bytes) : TableRow.Statement (.ldctrl arg p) := by
  intro h
  have h0 : arg &&& 0xFE = 0x00 := by simpa [Instr.argAccepted] using h
  refine (headerWord_opcode_arg7 _).trans ?_
  simp only [Instr.opcode, Instr.arg, rowOf, h0]
  decide

theorem TableRow.rdreg (arg : Byte) (p : Bytes) : TableRow.Statement (.rdreg arg p) := by
  intro _
  refine (headerWord_opcode (.rdreg arg p)).trans ?_
  simp only [Instr.opcode, rowOf]
  decide

theorem TableRow.reset (arg : Byte) (p : Bytes) : TableRow.Statement (.reset arg p) := by
  intro h
  have h0 : arg = 0x00 := by simpa [Instr.argAccepted] using h
  subst h0
  refine (headerWord_opcode_arg (.reset 0x00 p)).trans ?_
  simp only [Instr.opcode, Instr.arg, rowOf]
  decide

theorem TableRow.aesenc (arg : Byte) (p : Bytes) : TableRow.Statement (.aesenc arg p) := by
  intro h
  have h0 : arg = 0x00 := by simpa [Instr.argAccepted] using h
  subst h0
  refine (headerWord_opcode_arg (.aesenc 0x00 p)).trans ?_
  simp only [Instr.opcode, Instr.arg, rowOf]
  decide

theorem TableRow.ghash (arg : Byte) (p : Bytes) : TableRow.Statement (.ghash arg p) := by
  intro h
  have h0 : arg = 0x00 := by simpa [Instr.argAccepted] using h
  subst h0
  refine (headerWord_opcode_arg (.ghash 0x00 p)).trans ?_
  simp only [Instr.opcode, Instr.arg, rowOf]
  decide

theorem TableRow.gcminitE (arg : Byte) (p : Bytes) : TableRow.Statement (.gcminitE arg p) := by
  intro _
  refine (headerWord_opcode (.gcminitE arg p)).trans ?_
  simp only [Instr.opcode, rowOf]
  decide

theorem TableRow.gcminitD (arg : Byte) (p : Bytes) : TableRow.Statement (.gcminitD arg p) := by
  intro _
  refine (headerWord_opcode (.gcminitD arg p)).trans ?_
  simp only [Instr.opcode, rowOf]
  decide

theorem TableRow.gcmwrite (arg : Byte) (p : Bytes) : TableRow.Statement (.gcmwrite arg p) := by
  intro h
  have h0 : arg = 0x00 := by simpa [Instr.argAccepted] using h
  subst h0
  refine (headerWord_opcode_arg (.gcmwrite 0x00 p)).trans ?_
  simp only [Instr.opcode, Instr.arg, rowOf]
  decide

theorem TableRow.gcmfinal (arg : Byte) (p : Bytes) : TableRow.Statement (.gcmfinal arg p) := by
  intro h
  have h0 : arg = 0x00 := by simpa [Instr.argAccepted] using h
  subst h0
  refine (headerWord_opcode_arg (.gcmfinal 0x00 p)).trans ?_
  simp only [Instr.opcode, Instr.arg, rowOf]
  decide

theorem TableRow.gcmabort (arg : Byte) (p : Bytes) : TableRow.Statement (.gcmabort arg p) := by
  intro h
  have h0 : arg = 0x00 := by simpa [Instr.argAccepted] using h
  subst h0
  refine (headerWord_opcode_arg (.gcmabort 0x00 p)).trans ?_
  simp only [Instr.opcode, Instr.arg, rowOf]
  decide

theorem TableRow.cipherPacket (arg : Byte) (p : Bytes) : TableRow.Statement (.cipherPacket arg p) := by
  intro _
  refine (headerWord_opcode (.cipherPacket arg p)).trans ?_
  simp only [Instr.opcode, rowOf]
  decide

theorem TableRow.cipherTag (arg : Byte) (p : Bytes) : TableRow.Statement (.cipherTag arg p) := by
  intro h
  have h0 : arg = 0x00 := by simpa [Instr.argAccepted] using h
  subst h0
  refine (headerWord_opcode_arg (.cipherTag 0x00 p)).trans ?_
  simp only [Instr.opcode, Instr.arg, rowOf]
  decide

theorem TableRow.cipherData (arg : Byte) (p : Bytes) : TableRow.Statement (.cipherData arg p) := by
  intro h
  have h0 : arg = 0x00 := by simpa [Instr.argAccepted] using h
  subst h0
  refine (headerWord_opcode_arg (.cipherData 0x00 p)).trans ?_
  simp only [Instr.opcode, Instr.arg, rowOf]
  decide

theorem TableRow.cipherDatatag (arg : Byte) (p : Bytes) : TableRow.Statement (.cipherDatatag arg p) := by
  intro h
  have h0 : arg = 0x00 := by simpa [Instr.argAccepted] using h
  subst h0
  refine (headerWord_opcode_arg (.cipherDatatag 0x00 p)).trans ?_
  simp only [Instr.opcode, Instr.arg, rowOf]
  decide

theorem TableRow.secenc (arg : Byte) (p : Bytes) : TableRow.Statement (.secenc arg p) := by
  intro _
  refine (headerWord_opcode (.secenc arg p)).trans ?_
  simp only [Instr.opcode, rowOf]
  decide

theorem TableRow.decipher (arg : Byte) (p : Bytes) : TableRow.Statement (.decipher arg p) := by
  intro h
  have h0 : arg = 0x00 := by simpa [Instr.argAccepted] using h
  subst h0
  refine (headerWord_opcode_arg (.decipher 0x00 p)).trans ?_
  simp only [Instr.opcode, Instr.arg, rowOf]
  decide

end Sys2Proof.Laws
end

