-- ==== Sys2Proof/Laws/Step.lean ====
section
/-! SUPPORT. What one step does with a whole command on the port, said once (20_memory R35, R45; 30_encoding
R54; 70_reset_and_hazards R146). -/

namespace Sys2Proof.Machine

/-- The engine finds a whole command, of a listed or an undefined opcode, at the front of the port (R51). -/
theorem nextArrival_whole (opc arg : Byte) (p : Bytes) (rest : List Input) (h : p.length ≤ 65535) :
    nextArrival ((opc :: arg :: (beBytes 2 p.length ++ p)).map .byte ++ rest) =
      .bytes (opc :: arg :: (beBytes 2 p.length ++ p)) rest := by
  have hl : beNat (beBytes 2 p.length) = p.length := by
    rw [beNat_beBytes]
    exact Nat.mod_eq_of_lt (by omega)
  obtain ⟨hi, lo, e⟩ : ∃ hi lo, beBytes 2 p.length = [hi, lo] := ⟨_, _, rfl⟩
  rw [e] at hl ⊢
  exact nextArrival_command opc arg hi lo p rest hl

/-- With no reset behind it a whole command just runs (R45). -/
theorem runArrived_of_no_reset (bs : Bytes) (rest : List Input) (s : State)
    (h : rest.head? ≠ some .reset) : runArrived bs rest s = runCommand bs { s with port := rest } := by
  match rest with
  | [] => rfl
  | .byte _ :: _ => rfl
  | .reset :: _ => simp at h

/-- A whole command's bytes have the effect of the command they name, or `IllegalCommand` (R54). -/
theorem runCommand_whole (opc arg : Byte) (p : Bytes) (s : State) (h : p.length ≤ 65535) :
    runCommand (opc :: arg :: (beBytes 2 p.length ++ p)) s =
      match instrOf opc arg p with
      | some i => exec i s
      | none => raise .illegalCommand s := by
  have hl : beNat (beBytes 2 p.length) = p.length := by
    rw [beNat_beBytes]
    exact Nat.mod_eq_of_lt (by omega)
  obtain ⟨hi, lo, e⟩ : ∃ hi lo, beBytes 2 p.length = [hi, lo] := ⟨_, _, rfl⟩
  rw [e] at hl ⊢
  simp [runCommand, decode, hl]
  cases instrOf opc arg p <;> simp

/-- A step with a whole command on the port and no reset behind it runs the command (R35, R45). -/
theorem step_whole (opc arg : Byte) (p : Bytes) (rest : List Input) (s : State) (h : p.length ≤ 65535)
    (hr : rest.head? ≠ some .reset)
    (hp : s.port = (opc :: arg :: (beBytes 2 p.length ++ p)).map .byte ++ rest) :
    step s = runCommand (opc :: arg :: (beBytes 2 p.length ++ p)) { s with port := rest } := by
  rw [step, hp, nextArrival_whole opc arg p rest h]
  exact runArrived_of_no_reset _ _ _ hr

/-- A step with a reset right behind a whole command: discarded with the reset taken, or run (R146). -/
theorem step_whole_reset (opc arg : Byte) (p : Bytes) (rest : List Input) (s : State)
    (h : p.length ≤ 65535)
    (hp : s.port = (opc :: arg :: (beBytes 2 p.length ++ p)).map .byte ++ .reset :: rest) :
    step s =
      if Config.resetDiscards s.resetRaces then
        .next (hardwareReset { s with resetRaces := s.resetRaces + 1 } rest)
      else runCommand (opc :: arg :: (beBytes 2 p.length ++ p))
        { s with port := .reset :: rest, resetRaces := s.resetRaces + 1 } := by
  rw [step, hp, nextArrival_whole opc arg p _ h]
  rfl

/-- The opcodes R53 does not list name no command. -/
theorem instrOf_unlisted (opc arg : Byte) (p : Bytes)
    (h : opc ∉ ([0x00, 0x01, 0x02, 0x03, 0x04, 0x05, 0x06, 0x07, 0x0F, 0x10, 0x11, 0x20, 0x21, 0x22, 0x23,
      0x24, 0x40, 0x41, 0x42, 0x43, 0x44, 0x48] : Bytes)) : instrOf opc arg p = none := by
  unfold instrOf
  split <;> first | rfl | simp at h

end Sys2Proof.Machine
end

