-- ==== Sys2Proof/Tests/Slice0.lean ====
section
/-! SUPPORT. Tests and witnesses. Expected results come from `spec/95_test_vectors.md` (V<n>), from the
examples of the rules named, or from R53; the `witness_` theorems show for each obligation with hypotheses a
state and operands that meet them, each clause at a boundary value. -/

namespace Sys2Proof.Tests

open Sys2Proof Sys2Proof.Machine

-- The kernel evaluations below run one after the other: at once they need more threads than a check has.
set_option Elab.async false

/-- A run of hexadecimal digits as bytes. -/
def hx (t : String) : Bytes := (hexBytes t.toList).getD []

/-- The last response of a result. -/
def answer : Result → Option Response
  | .next t => t.responses.getLast?
  | .fault _ => none
  | .refused _ => none

/-- What `f` reads in the state a result answers. -/
def after {α : Type} (f : State → α) : Result → Option α
  | .next t => some (f t)
  | .fault _ => none
  | .refused _ => none

/-- The answer after a run of commands from `s`. -/
def run (is : List Instr) (s : State) : Option Response := answer (execAll is s)

def ok (t : String) : Option Response := some ⟨.ok, hx t⟩

def err (e : ErrCode) : Option Response := some ⟨e, []⟩

def bk0 : String := "000102030405060708090A0B0C0D0E0F"
def ak0 : String := "D0D1D2D3D4D5D6D7D8D9DADBDCDDDEDF"
def stg : String := "4D4D4D0000BC614E"
def pg : String := "C0010000080000010000FF0200"
def v40 : String := "C81E3001234567411312FF935A47566827C467BC7D825C3BE4A77C3FCC056B6B"

/-- The key `BK0` loaded. -/
def keyed : State := { State.reset with key := some (deriveKey 0x000102030405060708090A0B0C0D0E0F) }

/-- The Green Book settings with policy byte `sp` (95 section 0). -/
def green (sp : Byte) : State :=
  { keyed with
    ak := some 0xD0D1D2D3D4D5D6D7D8D9DADBDCDDDEDF, st := some 0x4D4D4D0000BC614E, sp := sp
    fc := 0x01234567 }

/-- The zero key loaded. -/
def zeroKeyed : State := { State.reset with key := some (deriveKey 0) }

/-- A state whose stream started with policy `pol` under the zero key and has no data yet. -/
def streaming (dir : Direction) (pol : Policy) (tagIn : Option Tag) : State :=
  { zeroKeyed with
    stream := some (startStream dir pol (deriveKey 0).rk (deriveKey 0).h 0 [] tagIn) }

/-! ### Well-formedness: each check refuses an ill-formed term -/

theorem test_wellFormed_accepts :
    (Instr.gcminitD 0x30 (zeros 24)).wellFormed = true ∧ (Instr.ldbk 0x00 (zeros 16)).wellFormed = true := by
  decide

theorem test_encodable_refuses_long_payload :
    (Instr.ghash 0x00 (zeros 65536)).encodable = false ∧
      (Instr.ghash 0x00 (zeros 65536)).wellFormed = false := by
  simp [Instr.wellFormed, Instr.encodable, Instr.payload]

theorem test_argAccepted_refuses :
    (Instr.nop 0x01 []).argAccepted = false ∧ (Instr.rdreg 0x07 []).argAccepted = false ∧
      (Instr.ldctrl 0x02 []).argAccepted = false ∧ (Instr.nop 0x01 []).wellFormed = false := by decide

theorem test_policyAccepted_refuses :
    (Instr.gcminitE 0x40 (zeros 12)).policyAccepted = false ∧
      (Instr.gcminitE 0x40 (zeros 12)).wellFormed = false := by decide

theorem test_lengthAccepted_refuses :
    (Instr.ldbk 0x00 (zeros 15)).lengthAccepted = false ∧ (Instr.ldst 0x00 (zeros 7)).lengthAccepted = false ∧
      (Instr.ldfc 0x00 (zeros 3)).lengthAccepted = false ∧
      (Instr.gcminitD 0x30 (zeros 23)).lengthAccepted = false ∧
      (Instr.ldbk 0x00 (zeros 15)).wellFormed = false := by decide

/-! ### Decoding: each command's word of R53 written out -/

theorem test_decode_configuration :
    decode [0x00, 0x00, 0x00, 0x00] = .ok (.nop 0x00 [], []) ∧
    decode [0x02, 0x00, 0x00, 0x01, 0xD0] = .ok (.ldak 0x00 [0xD0], []) ∧
    decode [0x03, 0x00, 0x00, 0x02, 0x41, 0x42] = .ok (.ldst 0x00 [0x41, 0x42], []) ∧
    decode [0x04, 0x00, 0x00, 0x04, 0x01, 0x23, 0x45, 0x67] =
      .ok (.ldfc 0x00 [0x01, 0x23, 0x45, 0x67], []) ∧
    decode [0x05, 0x30, 0x00, 0x00] = .ok (.ldsp 0x30 [], []) ∧
    decode [0x06, 0x01, 0x00, 0x00] = .ok (.ldctrl 0x01 [], []) ∧
    decode [0x07, 0x01, 0x00, 0x00] = .ok (.rdreg 0x01 [], []) ∧
    decode [0x0F, 0x00, 0x00, 0x00] = .ok (.reset 0x00 [], []) := by decide +kernel

theorem test_decode_primitives :
    decode [0x01, 0x00, 0x00, 0x01, 0xAA] = .ok (.ldbk 0x00 [0xAA], []) ∧
    decode [0x10, 0x00, 0x00, 0x00, 0xBB] = .ok (.aesenc 0x00 [], [0xBB]) ∧
    decode [0x11, 0x02, 0x00, 0x00] = .ok (.ghash 0x02 [], []) := by decide +kernel

theorem test_decode_stream :
    decode [0x20, 0x30, 0x00, 0x01, 0x0A] = .ok (.gcminitE 0x30 [0x0A], []) ∧
    decode [0x21, 0x20, 0x00, 0x01, 0x0B] = .ok (.gcminitD 0x20 [0x0B], []) ∧
    decode [0x22, 0x00, 0x00, 0x02, 0x01, 0x02, 0x22] = .ok (.gcmwrite 0x00 [0x01, 0x02], [0x22]) ∧
    decode [0x23, 0x00, 0x00, 0x00] = .ok (.gcmfinal 0x00 [], []) ∧
    decode [0x24, 0x00, 0x00, 0x00] = .ok (.gcmabort 0x00 [], []) := by decide +kernel

theorem test_decode_formatter :
    decode [0x40, 0xC8, 0x00, 0x01, 0x48] = .ok (.cipherPacket 0xC8 [0x48], []) ∧
    decode [0x41, 0x00, 0x00, 0x01, 0x48] = .ok (.cipherTag 0x00 [0x48], []) ∧
    decode [0x42, 0x00, 0x00, 0x01, 0x48] = .ok (.cipherData 0x00 [0x48], []) ∧
    decode [0x43, 0x00, 0x00, 0x01, 0x48] = .ok (.cipherDatatag 0x00 [0x48], []) ∧
    decode [0x44, 0x60, 0x00, 0x00] = .ok (.secenc 0x60 [], []) ∧
    decode [0x48, 0x01, 0x00, 0x01, 0xC7] = .ok (.decipher 0x01 [0xC7], []) := by decide +kernel

/-- LEN is big-endian (R51), and an undefined OPC or missing bytes are refused by name (R35, R54). -/
theorem test_decode_rejects :
    decode ([0x22, 0x00, 0x01, 0x02] ++ zeros 258) = .ok (.gcmwrite 0x00 (zeros 258), []) ∧
    decode [0x08, 0x00, 0x00, 0x00] = .error (.undefinedOpcode 0x08) ∧
    decode [0x80, 0x00, 0x00, 0x03, 0x01, 0x02, 0x03] = .error (.undefinedOpcode 0x80) ∧
    decode [0x00, 0x00, 0x00, 0x01] = .error .incomplete ∧ decode [0x00, 0x00] = .error .incomplete := by
  decide +kernel

/-- The opcode table numbers the header word `OPC·2^24 + ARG·2^16 + LEN` (R51). -/
theorem test_decodeTableWord :
    decodeTableWord 32 0x05300000 = some (.ldsp 0x30 []) ∧
    decodeTableWord 32 0x22000002 = some (.gcmwrite 0x00 [0x00, 0x00]) ∧
    decodeTableWord 48 0xBBAA22000002 = some (.gcmwrite 0x00 [0xAA, 0xBB]) ∧
    decodeTableWord 32 0x08000000 = none := by decide +kernel

theorem test_withFetchWord_runs_the_command :
    after (fun t => (t.sp, t.port, t.responses)) (step (State.reset.withFetchWord 32 0x05550000)) =
      some (0x55, [], [⟨.ok, []⟩]) := by decide +kernel

/-! ### Assembler text (R59, R60) -/

theorem test_assemble :
    assemble "LDSP 0x30".toList = some (.ldsp 0x30 []) ∧ assemble "RDREG 1".toList = some (.rdreg 0x01 []) ∧
    (assemble "CIPHER.PACKET 0xC8, \"Hello\"".toList).map encode =
      some [0x40, 0xC8, 0x00, 0x05, 0x48, 0x65, 0x6C, 0x6C, 0x6F] ∧
    assemble "LDFC 01234567".toList = some (.ldfc 0x00 [0x01, 0x23, 0x45, 0x67]) ∧
    assemble "NOP".toList = some (.nop 0x00 []) ∧ assemble "LDSP".toList = none := by decide +kernel

theorem test_pseudo :
    expandPseudo .clrstat = [.nop 0x00 []] ∧ expandPseudo .rdstat = [.rdreg 0x02 []] ∧
      expandPseudo (.gcmD 0x20 [0x01] [0x02] [0x03] [0x04]) =
        [.gcminitD 0x20 [0x01, 0x03], .gcmwrite 0x00 [0x04], .gcmfinal 0x00 []] := by decide

/-! ### One command each, from the vectors -/

/-- V29, V67. -/
theorem test_nop :
    after State.tagmm (exec (.nop 0x00 []) { State.reset with tagmm := true }) = some false ∧
      answer (exec (.nop 0x01 [0x00]) State.reset) = err .illegalCommand := by decide

/-- V3, V6. -/
theorem test_ldbk :
    after (fun t => t.key.map fun k => (k.rk[10], k.h)) (exec (.ldbk 0x00 (hx bk0)) State.reset) =
      some (some (0x13111D7FE3944A17F307A78B4D2B30C5, 0xC6A13B37878F5B826F4F8162A1C8D879)) := by
  decide +kernel

/-- V7: ARG before the length. -/
theorem test_ldbk_errors :
    answer (exec (.ldbk 0x01 (zeros 15)) State.reset) = err .illegalCommand ∧
      answer (exec (.ldbk 0x00 (zeros 15)) State.reset) = err .invalidKeyLength := by decide +kernel

/-- V13: entries of the Shoup tables of `H0`. -/
theorem test_shoupTables :
    gfMul (nib 0 1) 0xC6A13B37878F5B826F4F8162A1C8D879 = 0x20942766F0F1EB704DE9F02C54391B0F ∧
      gfMul (nib 1 8) 0xC6A13B37878F5B826F4F8162A1C8D879 = 0xF14A13B37878F5B826F4F8162A1C8D87 ∧
      gfMul (nib 31 15) 0xC6A13B37878F5B826F4F8162A1C8D879 = 0x8A2C0DB240BA9590D1249BE06977C998 := by
  decide +kernel

/-- V63. -/
theorem test_ldak :
    after (fun t => (t.ak, kvAk t)) (exec (.ldak 0x00 (hx ak0)) State.reset) =
      some (some 0xD0D1D2D3D4D5D6D7D8D9DADBDCDDDEDF, true) ∧
      answer (exec (.ldak 0x00 (zeros 17)) (green 0x30)) = err .invalidKeyLength := by decide +kernel

/-- V63. -/
theorem test_ldst :
    run [.ldst 0x00 (hx "4142434445464748"), .rdreg 0x06 []] State.reset = ok "4142434445464748" ∧
      answer (exec (.ldst 0x00 (zeros 7)) State.reset) = err .invalidKeyLength := by decide +kernel

/-- V64. -/
theorem test_ldfc :
    run [.ldfc 0x00 (hx "01234567"), .rdreg 0x01 []] State.reset = ok "01234567" ∧
      answer (exec (.ldfc 0x00 (zeros 3)) State.reset) = err .badOperandLength := by decide +kernel

/-- V54, V61. -/
theorem test_ldsp :
    run [.ldsp 0x55 [], .rdreg 0x02 []] State.reset = ok "0020" ∧
      answer (exec (.ldsp 0x30 [0x00]) State.reset) = err .badOperandLength := by decide +kernel

/-- V62. -/
theorem test_ldctrl :
    run [.ldctrl 0x01 [], .rdreg 0x03 []] State.reset = ok "01" ∧
      answer (exec (.ldctrl 0x02 [0x00]) State.reset) = err .illegalCommand := by decide +kernel

/-- V7, V65: STATUS of a keyed core with SP = 0x55, and ERR of the command before. -/
theorem test_rdreg :
    answer (exec (.rdreg 0x02 []) (green 0x55)) = ok "0720" ∧
      run [.aesenc 0x00 (zeros 15), .rdreg 0x02 []] keyed = ok "010A" := by decide +kernel

/-- V60. -/
theorem test_rdreg_errors :
    answer (exec (.rdreg 0x07 [0x00]) State.reset) = err .illegalCommand ∧
      answer (exec (.rdreg 0x06 []) State.reset) = err .keyNotLoaded := by decide +kernel

/-- V66: SP and FC are reset, the keys are kept. -/
theorem test_reset :
    run [.reset 0x00 [], .rdreg 0x02 []] (green 0x55) = ok "0700" ∧
      run [.reset 0x00 [], .rdreg 0x01 []] (green 0x55) = ok "00000000" := by decide +kernel

/-- V1 (FIPS-197 C.1). -/
theorem test_aesenc :
    answer (exec (.aesenc 0x00 (hx "00112233445566778899AABBCCDDEEFF")) keyed) =
      ok "69C4E0D86A7B0430D8CDB78070B4C55A" := by decide +kernel

/-- V7: the length before the key. -/
theorem test_aesenc_errors :
    answer (exec (.aesenc 0x00 (zeros 15)) State.reset) = err .badOperandLength ∧
      answer (exec (.aesenc 0x00 (zeros 16)) State.reset) = err .keyNotLoaded := by decide +kernel

/-- V4: round 1 of V1, and R64's, R65's and R66's examples. -/
theorem test_aes_round :
    subBytes 0x00102030405060708090A0B0C0D0E0F0 = 0x63CAB7040953D051CD60E0E7BA70E18C ∧
      shiftRows 0x63CAB7040953D051CD60E0E7BA70E18C = 0x6353E08C0960E104CD70B751BACAD0E7 ∧
      mixColumns 0x6353E08C0960E104CD70B751BACAD0E7 = 0x5F72641557F5BC92F7BE3B291DB9F91A ∧
      te0 0x00 = 0xC66363A5 ∧ te1 0x53 = 0x2CC1EDED := by decide +kernel

/-- V10. -/
theorem test_gfMul :
    gfMul 0x40000000000000000000000000000000 0x40000000000000000000000000000000 =
        0x20000000000000000000000000000000 ∧
      gfMul 1 0x40000000000000000000000000000000 = 0xE1000000000000000000000000000000 ∧
      gfMul 1 1 = 0xE6080000000000000000000000000003 := by decide +kernel

/-- V11: a short block, and two blocks. -/
theorem test_ghash :
    answer (exec (.ghash 0x00 (hx "48656C6C6F")) keyed) = ok "EBAF490683179A469828E39B50190C86" ∧
      answer (exec (.ghash 0x00 (hx "48656C6C6F" ++ zeros 12)) keyed) =
        ok "EAA9C1C5778334699CA0D01FB9F82A39" := by decide +kernel

/-- V20: STATUS = 0140 while the encrypt stream is ACTIVE. -/
theorem test_gcminitE :
    run [.gcminitE 0x30 (zeros 12), .rdreg 0x02 []] zeroKeyed = ok "0140" ∧
      answer (exec (.gcminitE 0x40 (zeros 11)) State.reset) = err .unsupportedSecurityPolicy := by
  decide +kernel

/-- V20, V30: STATUS = 0940 while the decrypt stream is ACTIVE; the payload needs room for the tag. -/
theorem test_gcminitD :
    run [.gcminitD 0x30 (zeros 24), .rdreg 0x02 []] zeroKeyed = ok "0940" ∧
      answer (exec (.gcminitD 0x30 (zeros 23)) zeroKeyed) = err .badOperandLength := by decide +kernel

/-- R84's example: 20 bytes process one block and leave 4. -/
theorem test_gcmwrite :
    after (fun t => t.stream.map fun x => (x.buf.length, x.out, x.lenC, x.nblk))
        (exec (.gcmwrite 0x00 (zeros 20)) (streaming .encrypt .authenticatedEncryption none)) =
      some (some (4, hx "0388DACE60B6A392F328C2B971B2FE78", 20, 1)) ∧
      answer (exec (.gcmwrite 0x00 [0x00]) keyed) = err .streamState := by decide +kernel

/-- V21 (NIST GCM test case 2); V26, where policy 0x10 emits the data unchanged. -/
theorem test_gcmfinal_encrypt :
    run [.gcmwrite 0x00 (zeros 16), .gcmfinal 0x00 []] (streaming .encrypt .authenticatedEncryption none) =
      ok "0388DACE60B6A392F328C2B971B2FE78AB6E47D42CEC13BDF53A67B2" ∧
    run [.gcminitE 0x10 (hx ("414243444546474800000000" ++ "10" ++ ak0)),
        .gcmwrite 0x00 (hx "48656C6C6F"), .gcmfinal 0x00 []] keyed =
      ok "48656C6C6FE4F15DF892287FA790991BE2" := by decide +kernel

/-- V22, and a tag changed in its first byte. -/
theorem test_gcmfinal_decrypt :
    run [.gcmwrite 0x00 (hx "0388DACE60B6A392F328C2B971B2FE78"), .gcmfinal 0x00 []]
        (streaming .decrypt .authenticatedEncryption (some 0xAB6E47D42CEC13BDF53A67B2)) =
      ok "00000000000000000000000000000000" ∧
    run [.gcmwrite 0x00 (hx "0388DACE60B6A392F328C2B971B2FE78"), .gcmfinal 0x00 []]
        (streaming .decrypt .authenticatedEncryption (some 0xAA6E47D42CEC13BDF53A67B2)) =
      err .invalidTag := by decide +kernel

/-- V30, steps 13 to 15. -/
theorem test_gcmabort :
    run [.gcmabort 0x00 [0x00], .rdreg 0x02 []] (streaming .encrypt .encryption none) = ok "014A" ∧
      run [.gcmabort 0x00 [], .gcmwrite 0x00 [0x00]] (streaming .encrypt .encryption none) =
        err .streamState := by decide +kernel

/-- V40. -/
theorem test_cipherPacket :
    answer (exec (.cipherPacket 0xC8 (hx pg)) (green 0x30)) = ok v40 := by decide +kernel

/-- V50, V53: the count's second form, and a policy before the keys. -/
theorem test_cipherPacket_forms :
    (answer (exec (.cipherPacket 0xC8 (zeros 123)) (green 0x20))).map (fun r => r.out.take 8) =
        some (hx "C881802001234567") ∧
      answer (exec (.cipherPacket 0xC8 [0x78]) { State.reset with sp := 0x55 }) =
        err .unsupportedSecurityPolicy := by decide +kernel

/-- V43, V44. -/
theorem test_cipherTag :
    answer (exec (.cipherTag 0x00 (hx "48656C6C6F")) (green 0x10)) = ok "87BB24EED60A6C3516D256E3" ∧
      answer (exec (.cipherTag 0x00 (hx "48656C6C6F")) (green 0x20)) = ok "" := by decide +kernel

/-- V43. -/
theorem test_cipherData :
    answer (exec (.cipherData 0x00 (hx pg)) (green 0x30)) = ok "411312FF935A47566827C467BC" ∧
      answer (exec (.cipherData 0x00 (hx "48656C6C6F")) (green 0x10)) = ok "48656C6C6F" := by
  decide +kernel

/-- V43. -/
theorem test_cipherDatatag :
    answer (exec (.cipherDatatag 0x00 (hx pg)) (green 0x30)) =
        ok "411312FF935A47566827C467BC7D825C3BE4A77C3FCC056B6B" ∧
      answer (exec (.cipherDatatag 0x00 (hx "48656C6C6F")) (green 0x20)) = ok "C9777E93F4" := by
  decide +kernel

/-- V45: the V40 envelope, and FC plus one. -/
theorem test_secenc :
    answer (exec (.secenc 0xC8 (hx pg)) (green 0x30)) = ok v40 ∧
      after State.fc (exec (.secenc 0xC8 (hx pg)) (green 0x30)) = some 0x01234568 := by decide +kernel

/-- V46, V55: pass-through, and a failure, leave FC. -/
theorem test_secenc_passes :
    answer (exec (.secenc 0x60 (hx "600102")) (green 0x55)) = ok "600102" ∧
      after (fun t => (t.err, t.fc)) (exec (.secenc 0xC8 (hx pg)) (green 0x55)) =
        some (.unsupportedSecurityPolicy, 0x01234567) := by decide +kernel

/-- V48: RXSP and RXFC come from the envelope, FC stays. -/
theorem test_decipher :
    answer (exec (.decipher 0x00 (hx v40)) { green 0x00 with fc := 5 }) = ok pg ∧
      after (fun t => (t.rxsp, t.rxfc, t.fc, t.tagmm))
        (exec (.decipher 0x00 (hx v40)) { green 0x00 with fc := 5, tagmm := true }) =
        some (0x30, 0x01234567, 5, false) := by decide +kernel

/-- V49 rows 9, 12, 14, V51 and V52: form errors, a changed byte with DIAG = 0 and with DIAG = 1. -/
theorem test_decipher_errors :
    answer (exec (.decipher 0x00 (hx "C80430000000")) (green 0x00)) = err .malformedEnvelope ∧
      answer (exec (.decipher 0x00 (hx "C8053000000000")) (green 0x00)) = err .malformedEnvelope ∧
      answer (exec (.decipher 0x00 (hx "C881052001234567")) (green 0x00)) = ok "" ∧
      answer (exec (.decipher 0x00 ((hx v40).set 10 0xFE)) (green 0x00)) = err .invalidTag ∧
      after (fun t => (t.responses, t.tagmm))
        (exec (.decipher 0x00 ((hx v40).set 10 0xFE)) { green 0x00 with ctrl := 0x01 }) =
        some ([⟨.ok, hx "C0010001080000010000FF0200"⟩], true) := by decide +kernel

/-- V67: an undefined opcode consumes its payload. -/
theorem test_illegal_opcode :
    after (fun t => (t.port, t.responses))
        (step { State.reset with
          port := [0x80, 0x00, 0x00, 0x03, 0x01, 0x02, 0x03, 0x00].map Input.byte }) =
      some ([.byte 0x00], [⟨.illegalCommand, []⟩]) := by decide +kernel

/-- R35, R146: an incomplete command waits, and a reset discards it. -/
theorem test_step_waits :
    step { keyed with port := [.byte 0x00, .byte 0x00, .byte 0x00] } =
        .next { keyed with port := [.byte 0x00, .byte 0x00, .byte 0x00] } ∧
      step { keyed with port := [.byte 0x00, .reset, .byte 0x07] } =
        .next { State.reset with port := [.byte 0x07] } := ⟨rfl, rfl⟩

/-- R58: the response bytes of V1's shape. -/
theorem test_responseBytes :
    responseBytes ⟨.badOperandLength, []⟩ = [0x0A, 0x00, 0x00, 0x00, 0x00] ∧
      responseBytes ⟨.ok, [0xAB, 0xCD]⟩ = [0x00, 0x00, 0x00, 0x00, 0x02, 0xAB, 0xCD] := by decide +kernel

/-! ### Witnesses of the obligations' hypotheses -/

/-- A byte that R53's ARG column refuses, and a payload that must be empty. -/
theorem witness_arg_and_length :
    (0x01 : Byte) ≠ 0x00 ∧ ([0x00] : Bytes) ≠ [] ∧ (zeros 15).length ≠ 16 ∧ (zeros 7).length ≠ 8 ∧
      (zeros 3).length ≠ 4 ∧ (zeros 16).length = 16 ∧ (zeros 8).length = 8 ∧ (zeros 4).length = 4 := by
  decide

theorem witness_DecodeOfEncodeIsTheCommand :
    (Instr.ghash 0x00 []).encodable = true ∧ (Instr.ghash 0x00 (zeros 65535)).encodable = true := by
  simp [Instr.encodable, Instr.payload]

theorem witness_DecodedBytesAreTheEncoding :
    decode [0x44, 0xC8, 0x00, 0x01, 0x48, 0x00] = .ok (.secenc 0xC8 [0x48], [0x00]) := by decide +kernel

theorem witness_IllegalCommandsChangeNothing :
    (∀ opc ∈ ([0x08, 0x0E, 0x12, 0x1F, 0x25, 0x3F, 0x45, 0x47, 0x49, 0xFF] : Bytes), instrOf opc 0x00 [] = none) ∧
      (zeros 65535).length ≤ 65535 ∧ ([] : List Input).head? ≠ some .reset ∧
      [Input.byte 0x00].head? ≠ some .reset ∧
      (Instr.rdreg 0x07 []).argAccepted = false ∧ (Instr.ldctrl 0x02 []).argAccepted = false ∧
      (Instr.decipher 0x01 []).argAccepted = false := by
  refine ⟨by decide, by simp, by decide, by decide, by decide, by decide, by decide⟩

theorem witness_WellFormedCommandsHaveNoFormatError :
    (Instr.rdreg 0x06 []).wellFormed = true ∧ (Instr.gcminitD 0x20 (zeros 12)).wellFormed = true := by
  decide

theorem witness_CountEncodingRoundTrip :
    (0 < 2 ^ 32 ∧ 0x7F < 2 ^ 32 ∧ 0x80 < 2 ^ 32 ∧ 0xFF < 2 ^ 32 ∧ 0x100 < 2 ^ 32 ∧ 0xFFFF < 2 ^ 32 ∧
      0x10000 < 2 ^ 32 ∧ 2 ^ 32 - 1 < 2 ^ 32) ∧
    (0x7F#8).toNat < 0x80 ∧
    (0x81 ≤ (0x81#8).toNat ∧ (0x81#8).toNat ≤ 0x84 ∧ (zeros 1).length = (0x81#8).toNat - 0x80) ∧
    (0x81 ≤ (0x84#8).toNat ∧ (0x84#8).toNat ≤ 0x84 ∧ (zeros 4).length = (0x84#8).toNat - 0x80) ∧
    ((zeros 3).length < (0x84#8).toNat - 0x80 ∧ (zeros 0).length < (0x81#8).toNat - 0x80) ∧
    ((0x80#8).toNat = 0x80 ∨ 0x85 ≤ (0x80#8).toNat) ∧ ((0x85#8).toNat = 0x80 ∨ 0x85 ≤ (0x85#8).toNat) ∧
    ([0xC8] : Bytes).length ≤ 1 := by decide

theorem witness_StepRunsTheDecodedCommand :
    (Instr.nop 0x00 []).encodable = true ∧ ((encode (.nop 0x00 [])).map Input.byte).head? ≠ some .reset := by
  decide

/-- No byte, a cut header, a header without its payload, and whole commands. -/
theorem witness_EngineNeverStops :
    (0 < 4 + (zeros 1).length ∧ 3 < 4 + (zeros 1).length ∧ 4 < 4 + (zeros 1).length) ∧
    ({ State.reset with port := [.byte 0x11, .byte 0x00, .byte 0x00, .byte 0x01] } : State).port =
      ((0x11 :: 0x00 :: (beBytes 2 (zeros 1).length ++ zeros 1)).take 4).map .byte ∧
    ({ State.reset with port := [.byte 0x11, .byte 0x00, .byte 0x00, .byte 0x00, .byte 0x07] } : State).port =
      (0x11 :: 0x00 :: (beBytes 2 (zeros 0).length ++ zeros 0)).map .byte ++ [.byte 0x07] := by
  refine ⟨by decide, rfl, rfl⟩

/-- No byte and three bytes of a command, a whole command, and a whole one of an undefined opcode. -/
theorem witness_HardwareResetIsWholeOrNothing :
    ([] : Bytes).length ≤ 65535 ∧ 0 < 4 + ([] : Bytes).length ∧ 3 < 4 + ([] : Bytes).length ∧
      (Instr.secenc 0xC8 [0x48]).encodable = true ∧
      (∀ opc ∈ ([0x08, 0x0E, 0xFF] : Bytes), opc ∉ ([0x00, 0x01, 0x02, 0x03, 0x04, 0x05, 0x06, 0x07, 0x0F,
        0x10, 0x11, 0x20, 0x21, 0x22, 0x23, 0x24, 0x40, 0x41, 0x42, 0x43, 0x44, 0x48] : Bytes)) := by
  decide

/-- A state whose stream is full up to OUTBUF_CAP. -/
def fullStream : State :=
  { zeroKeyed with
    stream := some { startStream .encrypt .encryption (deriveKey 0).rk (deriveKey 0).h 0 [] none with
      lenC := Config.outbufCap } }

theorem fullStream_write :
    exec (.gcmwrite 0x00 [0x00]) fullStream =
      .next ((endStream fullStream).complete .lengthLimit []) := by
  have h : exceedsOutbuf (Config.outbufCap + 1) = true := (exceedsOutbuf_iff _).2 (by omega)
  simp [exec, execGcmwrite, fullStream, h, raise]

/-- V20's message as a decrypt stream that expects the tag 0 and not 58E2FCCEFA7E3061367F1D57. -/
def forged : State := streaming .decrypt .authentication (some 0)

theorem forged_final : after State.err (exec (.gcmfinal 0x00 []) forged) = some .invalidTag := by
  decide +kernel

/-- Each of the three failures with further effects, and one without. -/
theorem witness_FailedCommandsChangeOnlyErr :
    (∃ t, exec (.gcmwrite 0x00 [0x00]) fullStream = .next t ∧ t.err ≠ .ok ∧ t.err = .lengthLimit) ∧
    after State.err (exec (.gcmfinal 0x00 []) forged) = some .invalidTag ∧
    after State.err (exec (.decipher 0x00 ((hx v40).set 10 0xFE)) (green 0x00)) = some .invalidTag ∧
    (∃ t, exec (.aesenc 0x00 (zeros 16)) State.reset = .next t ∧ t.err ≠ .ok ∧ t.err ≠ .lengthLimit ∧
      t.err ≠ .invalidTag) :=
  ⟨⟨_, fullStream_write, nofun, rfl⟩, forged_final, by decide +kernel,
    ⟨_, rfl, nofun, nofun, nofun⟩⟩

/-- LDFC, RESET and a ciphered SECENC that end OK and change FC. -/
theorem witness_FrameCounterHasThreeWriters :
    after (fun t => (t.err, t.fc)) (exec (.ldfc 0x00 (hx "FFFFFFFF")) State.reset) =
      some (.ok, 0xFFFFFFFF) ∧
    after (fun t => (t.err, t.fc)) (exec (.reset 0x00 []) (green 0x30)) = some (.ok, 0) ∧
    after State.err (exec (.secenc 0xC8 []) (green 0x20)) = some .ok ∧ ciphersWith (green 0x20) 0xC8 := by
  refine ⟨by decide +kernel, by decide +kernel, by decide +kernel, by simp [ciphersWith, green, associationTags]⟩

theorem witness_FrameCounterCountsSuccessfulSends :
    (∀ i ∈ [Instr.secenc 0xC8 [], .nop 0x00 [], .secenc 0xC9 []], ∀ a p, i ≠ .ldfc a p ∧ i ≠ .reset a p) ∧
      cipheredSends [.secenc 0xC8 [], .nop 0x00 [], .secenc 0xC9 []] (green 0x20) = 2 ∧
      (Config.fcOverflow = .wrap ∨ Config.fcOverflow = .fault) := by
  refine ⟨by simp, by decide +kernel, by cases Config.fcOverflow <;> simp⟩

theorem witness_StreamIsIndependentOfOtherCommands :
    Instr.decipher 0x00 [] ∈ ([.reset 0x00 [], .decipher 0x00 []] : List Instr) ∧ State.reset.stream = none ∧
    (∃ t, exec (.gcminitE 0x30 (zeros 12)) zeroKeyed = .next t ∧ zeroKeyed.stream = none ∧
      t.stream ≠ none) := by
  refine ⟨by decide, rfl, _, rfl, rfl, by simp⟩

theorem witness_StreamIgnoresTheRegisters :
    Instr.gcmwrite 0x00 [0x01] ∈ ([.gcmwrite 0x00 [0x01], .gcmfinal 0x00 [0x01]] : List Instr) := by decide

/-- Two states with different keys, AKs and stream contents. -/
theorem witness_SecretsAreNotReadBack :
    sameButSecrets { streaming .encrypt .encryption none with ak := some 1 }
      { streaming .encrypt .encryption none with
        key := some (deriveKey 1), ak := some 2
        stream := some (startStream .encrypt .encryption (deriveKey 1).rk (deriveKey 1).h 7 [0x01] none) } :=
  ⟨rfl, rfl, rfl, rfl⟩

theorem witness_TagMismatchFlagLifetime :
    ∃ t, exec (.nop 0x00 []) { State.reset with tagmm := true } = .next t ∧
      t.tagmm ≠ ({ State.reset with tagmm := true } : State).tagmm := ⟨_, rfl, by simp⟩

theorem witness_TraceModeChangesOnlyTagMismatches :
    (∀ a p, Instr.gcmfinal 0x00 [] ≠ .ldctrl a p) ∧ (∀ a p, Instr.gcmfinal 0x00 [] ≠ .rdreg a p) ∧
    after State.err (exec (.gcmfinal 0x00 []) { forged with ctrl := 0x00 }) = some .invalidTag ∧
    (∃ t, exec (.nop 0x00 []) { State.reset with ctrl := 0x00 } = .next t ∧ t.err ≠ .invalidTag) :=
  ⟨nofun, nofun, forged_final, ⟨_, rfl, nofun⟩⟩

/-- A keyed core with an ACTIVE stream meets the invariants, and its next step answers a state. -/
theorem witness_invariants :
    ∃ s t : State, s.key ≠ none ∧ s.stream ≠ none ∧ ctrlReservedZero s ∧ keyDerived s ∧
      streamInvariant s ∧ step s = .next t := by
  have hk : derivedFromKey (deriveKey 0) := ⟨rfl, rfl, rfl⟩
  refine ⟨streaming .encrypt .authenticatedEncryption none, _, by simp [streaming, zeroKeyed],
    by simp [streaming], by simp [ctrlReservedZero, streaming, zeroKeyed, State.reset], ?_, ?_, rfl⟩
  · intro k h
    cases h
    exact hk
  · intro x h
    cases h
    exact startStream_sound .encrypt .authenticatedEncryption (deriveKey 0) hk 0 [] none (by decide) rfl

theorem witness_ResponseByteFormat :
    (zeros 3).length < 2 ^ 32 ∧
      ∃ t r, exec (.nop 0x01 []) State.reset = .next t ∧ t.responses = [r] ∧ r.err ≠ .ok :=
  ⟨by decide, _, ⟨.illegalCommand, []⟩, rfl, rfl, nofun⟩

theorem witness_ControlLoadRefusesReservedBits :
    (0x02 : Byte) &&& 0xFE ≠ 0x00 ∧ (0x80 : Byte) &&& 0xFE ≠ 0x00 ∧ (0x01 : Byte) &&& 0xFE = 0x00 := by
  decide

theorem witness_RegisterReads :
    6 < (0x07 : Byte).toNat ∧ (0x06 : Byte).toNat ≤ 6 ∧ (green 0x30).st = some 0x4D4D4D0000BC614E ∧
      State.reset.st = none := ⟨by decide, by decide, rfl, rfl⟩

theorem witness_keys_absent_and_loaded :
    keyed.key = some (deriveKey 0x000102030405060708090A0B0C0D0E0F) ∧ State.reset.key = none ∧
      (green 0x30).key ≠ none ∧ (green 0x30).ak ≠ none ∧ (green 0x30).st ≠ none ∧
      (keyed.key = none ∨ keyed.ak = none ∨ keyed.st = none) := by
  simp [keyed, green, State.reset]

theorem witness_KeyScheduleRecurrence :
    ∃ w : Nat → Word32, ∀ i, w i = wordAt (roundKey 0 (i / 4)) (i % 4) :=
  ⟨fun i => wordAt (roundKey 0 (i / 4)) (i % 4), fun _ => rfl⟩

theorem witness_SboxIsInverseThenAffine : 15 < 16 ∧ (0x01 : Byte) ≠ 0x00 ∧ (0xFF : Byte) ≠ 0x00 ∧ 7 < 8 := by
  decide

/-- "Hello" and 11 zeros, and a whole block and none (V11). -/
theorem witness_GhashIgnoresZeroPadding :
    ((hx "48656C6C6F").length + 11 + 15) / 16 = ((hx "48656C6C6F").length + 15) / 16 ∧
      ((zeros 16).length + 0 + 15) / 16 = ((zeros 16).length + 15) / 16 := by decide

/-- A stream ACTIVE, and each check in turn with the earlier ones passed. -/
theorem witness_StreamsStart :
    (∃ x, (streaming .decrypt .encryption none).stream = some x) ∧ zeroKeyed.stream = none ∧
    State.reset.stream = none ∧ State.reset.key = none ∧ zeroKeyed.key = some (deriveKey 0) ∧
    (0x40 : Byte) ∉ ([0x10, 0x20, 0x30] : Bytes) ∧ (0x30 : Byte) ∈ ([0x10, 0x20, 0x30] : Bytes) ∧
    (zeros 11).length < 12 ∧ 12 ≤ (zeros 12).length ∧
    (zeros 23).length < (if (0x30 : Byte) = 0x20 then 12 else 24) ∧
    (zeros 11).length < (if (0x20 : Byte) = 0x20 then 12 else 24) ∧
    (if (0x10 : Byte) = 0x20 then 12 else 24) ≤ (zeros 24).length := by
  refine ⟨⟨_, rfl⟩, rfl, rfl, rfl, rfl, ?_⟩
  decide

/-- A stream that has used `n` counter blocks and has `l` data bytes. -/
def usedStream (n l : Nat) : Stream :=
  { startStream .encrypt .encryption (deriveKey 0).rk 0 0 [] none with nblk := n, lenC := l }

/-- One whole block and one byte; each limit just met and just passed, with and without a short last block
(the counter with a short last block: log 21). -/
theorem witness_StreamWriteProcessesWholeBlocks :
    (∃ x, (streaming .encrypt .encryption none).stream = some x ∧
      (∀ b ∈ [zeros 16], b.length = 16) ∧ ([0x00] : Bytes).length < 16 ∧
      x.buf ++ zeros 17 = [zeros 16].flatten ++ [0x00] ∧
      x.lenC + (zeros 17).length ≤ Config.outbufCap ∧
      x.nblk + [zeros 16].length + (if ([0x00] : Bytes) = [] then 0 else 1) ≤ 2 ^ 32 - 2) ∧
    (usedStream 0 (Config.outbufCap - 1)).lenC + ([0x00] : Bytes).length = Config.outbufCap ∧
    (∃ x, fullStream.stream = some x ∧ Config.outbufCap < x.lenC + ([0x00] : Bytes).length) ∧
    ((usedStream (2 ^ 32 - 3) 0).buf ++ zeros 16 = [zeros 16].flatten ++ [] ∧
      (usedStream (2 ^ 32 - 3) 0).nblk + [zeros 16].length + (if ([] : Bytes) = [] then 0 else 1) =
        2 ^ 32 - 2) ∧
    ((usedStream (2 ^ 32 - 3) 0).buf ++ [0x00] = ([] : List Bytes).flatten ++ [0x00] ∧
      (usedStream (2 ^ 32 - 3) 0).nblk + ([] : List Bytes).length +
        (if ([0x00] : Bytes) = [] then 0 else 1) = 2 ^ 32 - 2) ∧
    ((usedStream (2 ^ 32 - 2) 0).pol ≠ .authentication ∧
      2 ^ 32 - 2 < (usedStream (2 ^ 32 - 2) 0).nblk +
        (((usedStream (2 ^ 32 - 2) 0).buf ++ [0x00]).length + 15) / 16) := by
  have hc := outbufCap_ge
  refine ⟨⟨_, rfl, by decide, by decide, rfl, ?_, by decide⟩, ?_, ⟨_, rfl, by simp⟩,
    by simp [usedStream, startStream], by simp [usedStream, startStream],
    by simp [usedStream, startStream]⟩
  · simp [startStream]; omega
  · simp [usedStream]; omega

/-- A short last block behind 2^32 - 2 whole ones ends the stream (R85, R121 row 9; log 21). -/
theorem test_gcmwrite_counter_limit :
    after (fun t => (t.err, t.stream))
        (exec (.gcmwrite 0x00 [0x00]) { zeroKeyed with stream := some (usedStream (2 ^ 32 - 2) 0) }) =
      some (.lengthLimit, none) := by decide +kernel

/-- A tag with a bit flipped is another tag. -/
theorem flip_ne (t : Tag) : t ^^^ 1 ≠ t := by
  intro h
  have h0 := congrArg (fun x => BitVec.getLsbD x 0) h
  simp at h0

/-- No tag, a tag to append, a tag that matches and one that does not, DIAG set and clear. -/
theorem witness_StreamFinalEmitsOrVerifies :
    (∃ x, (streaming .encrypt .encryption none).stream = some x ∧ x.pol = .encryption) ∧
    (∃ x, (streaming .encrypt .authentication none).stream = some x ∧ x.pol ≠ .encryption ∧
      x.dir = .encrypt) ∧
    (∃ (tag : Tag) (x : Stream), (streaming .decrypt .authentication (some tag)).stream = some x ∧
      x.pol ≠ .encryption ∧ x.dir = .decrypt ∧ x.buf = [] ∧ x.tagIn = some (streamTag x)) ∧
    (∃ (tin : Tag) (x : Stream), (streaming .decrypt .authentication (some tin)).stream = some x ∧
      x.pol ≠ .encryption ∧ x.dir = .decrypt ∧ x.buf = [] ∧ x.tagIn = some tin ∧ tin ≠ streamTag x) ∧
    ({ State.reset with ctrl := 0x01 } : State).ctrl.getLsbD 0 = true ∧
    State.reset.ctrl.getLsbD 0 = false :=
  ⟨⟨_, rfl, rfl⟩, ⟨_, rfl, nofun, rfl⟩,
    ⟨streamTag (startStream .decrypt .authentication (deriveKey 0).rk (deriveKey 0).h 0 [] none), _, rfl,
      nofun, rfl, rfl, rfl⟩,
    ⟨streamTag (startStream .decrypt .authentication (deriveKey 0).rk (deriveKey 0).h 0 [] none) ^^^ 1, _,
      rfl, nofun, rfl, rfl, rfl, fun h => by exact absurd h (flip_ne _)⟩, by decide, by decide⟩

theorem witness_SplitWritesAreOneWrite :
    ∃ t u, exec (.gcmwrite 0x00 (zeros 7)) (streaming .encrypt .authentication none) = .next t ∧ t.err = .ok ∧
      exec (.gcmwrite 0x00 (zeros 30)) t = .next u ∧ u.err = .ok := ⟨_, _, rfl, rfl, rfl, rfl⟩

theorem witness_StreamIsCounterMode : Policy.authentication = .authentication ∧
    Policy.encryption ≠ .authentication ∧ 0 < (zeros 17).length ∧ 16 < (zeros 17).length := by decide

/-- The longest plaintext under 0x10 that the decoder can carry, and the statement's bound (log 15). -/
theorem witness_FormatterIsTheStream :
    ∃ (k : CipherKey) (ak : Block) (st : Title), (green 0x10).key = some k ∧ (green 0x10).ak = some ak ∧
      (green 0x10).st = some st ∧ (green 0x10).stream = none ∧ (zeros 65494).length ≤ 65520 ∧ (zeros 65520).length ≤ 65520 ∧
      (green 0x10).sp = policyByte .authentication ∧ (0xC8 : Byte) ∈ cipheredTags :=
  ⟨_, _, _, rfl, rfl, rfl, rfl, by simp, by simp, rfl, by decide⟩

/-- A policy outside the three, keys missing, and everything loaded. -/
theorem witness_CipherCommands :
    State.reset.sp ∉ ([0x10, 0x20, 0x30] : Bytes) ∧
    (({ keyed with sp := 0x30 } : State).sp ∈ ([0x10, 0x20, 0x30] : Bytes) ∧
      ({ keyed with sp := 0x30 } : State).ak = none) ∧
    (∃ k ak st d t, (green 0x20).sp = policyByte .encryption ∧ (green 0x20).key = some k ∧
      (green 0x20).ak = some ak ∧ (green 0x20).st = some st ∧
      (d, t) = formatterCore .encrypt .encryption k ak (st ++ (green 0x20).fc) (zeros 1)) :=
  ⟨by decide, ⟨by decide, rfl⟩, _, _, _, _, _, rfl, rfl, rfl, rfl, rfl⟩

theorem witness_SecencCiphersThenIncrements :
    State.reset.sp = 0x00 ∧ (green 0x55).sp ≠ 0x00 ∧ (0xC8 : Byte) ≠ 0x60 ∧ (0xC8 : Byte) ≠ 0x61 ∧
    (green 0x55).sp ∉ ([0x10, 0x20, 0x30] : Bytes) ∧ (green 0x30).sp ∈ ([0x10, 0x20, 0x30] : Bytes) ∧
    (green 0x30).fc ≠ 0xFFFFFFFF ∧ ({ green 0x30 with fc := 0xFFFFFFFF } : State).fc = 0xFFFFFFFF ∧
    (Config.fcOverflow = .fault ∨ Config.fcOverflow = .wrap) := by
  refine ⟨by decide, by decide, by decide, by decide, by decide, by decide, by decide, by decide, ?_⟩
  cases Config.fcOverflow <;> simp

/-- Each rejection with the checks before it passed (V49, rows 2, 6, 8, 9, 4, 10, 12). -/
theorem witness_DecipherRejectsInOrder :
    (0xC7 : Byte) ∉ ([0x21, 0x28, 0xC8, 0xC9, 0xCB, 0xCC, 0xCD, 0xCF] : Bytes) ∧
    (0xC8 : Byte) ∈ ([0x21, 0x28, 0xC8, 0xC9, 0xCB, 0xCC, 0xCD, 0xCF] : Bytes) ∧
    countDec [0xC8, 0x80] 1 = none ∧ countDec [0xC8, 0x81] 1 = none ∧
    (countDec (hx "C80430000000") 1 = some (4, 2) ∧ 4 < 5) ∧
    (countDec (hx "C80530000000") 1 = some (5, 2) ∧ 5 ≠ (hx "C80530000000").length - 2) ∧
    (countDec (hx "C8054000000000") 1 = some (5, 2) ∧ 5 = (hx "C8054000000000").length - 2 ∧
      (hx "C8054000000000")[2]? = some 0x40 ∧ (0x40 : Byte) ∉ ([0x10, 0x20, 0x30] : Bytes)) ∧
    (countDec (0xC8 :: 0x10 :: 0x30 :: zeros 15) 1 = some (16, 2) ∧
      16 = (0xC8 :: 0x10 :: 0x30 :: zeros 15).length - 2 ∧ 16 - 5 < 12) ∧
    State.reset.key = none := by
  refine ⟨by decide, by decide, by decide, by decide, by decide, by decide, by decide, by decide, rfl⟩

/-- An envelope of each kind, one with the computed tag and one with another. -/
theorem witness_DecipherVerifiesAndRecords (k : CipherKey) (ak : Block) (st : Title) :
    (countDec ([0xC8] ++ [0x05] ++ ([policyByte .encryption] ++ beBytes 4 (7#32).toNat ++ [] ++ [])) 1 =
      some (5, 1 + [0x05].length)) ∧
    (∃ tin : Tag, (formatterCore .decrypt .authentication k ak (st ++ 7#32) []).2 = some tin ∧
      countDec ([0xC8] ++ [0x11] ++ ([policyByte .authentication] ++ beBytes 4 (7#32).toNat ++ [] ++
        beBytes 12 tin.toNat)) 1 = some (17, 1 + [0x11].length)) ∧
    (∀ tag : Tag, ∃ tin : Tag, some tag ≠ some tin) :=
  ⟨by decide, ⟨_, rfl, rfl⟩, fun tag => ⟨if tag = 0 then 1 else 0, by split <;> simp_all⟩⟩

theorem witness_DecipherOpensWhatPacketSeals :
    (0xCF : Byte) ∈ cipheredTags ∧ (green 0x30).sp = policyByte .authenticatedEncryption ∧
      (green 0x30).key ≠ none ∧ (green 0x30).ak ≠ none ∧ (green 0x30).st ≠ none ∧
      (zeros 65512).length ≤ 65535 - 23 ∧
      ({ green 0x00 with fc := 9, tagmm := true } : State).key = (green 0x30).key := by
  refine ⟨by decide, rfl, nofun, nofun, nofun, by simp, rfl⟩

theorem witness_ForgedTagsFailAndUntaggedEnvelopesPass (k : CipherKey) (ak : Block) (st : Title) :
    ∃ tag tag' : Tag, ∃ d : Bytes, Policy.authentication ≠ .encryption ∧
      (d, some tag) = formatterCore .decrypt .authentication k ak (st ++ 7#32) [0x01] ∧ tag' ≠ tag ∧
      ([0x01] : Bytes).length ≤ 65520 ∧ (green 0x00).ctrl.getLsbD 0 = false := by
  refine ⟨_, if (formatterCore .decrypt .authentication k ak (st ++ 7#32) [0x01]).2 = some 0 then 1 else 0,
    _, nofun, rfl, ?_, by decide, by decide⟩
  split
  · rename_i h
    intro e
    rw [show (formatterCore .decrypt .authentication k ak (st ++ 7#32) [0x01]).2 = some _ from rfl, ← e] at h
    simp at h
  · rename_i h
    intro e
    exact h (by rw [e]; rfl)

theorem witness_NonceReuseLeaksThePlaintextXor :
    (green 0x20).sp = policyByte .encryption ∧ Policy.encryption ≠ .authentication ∧
      (green 0x20).key ≠ none ∧ (zeros 2).length = ([0x01, 0x02] : Bytes).length := by
  refine ⟨rfl, nofun, nofun, by decide⟩

end Sys2Proof.Tests
end

section
/-! PROOFS. The statements about the state (10_state R21, R29, R31, R32): who writes FC, who touches the
GCM stream, what a host can read back, and what it reads after reset. -/

namespace Sys2Proof.Machine

/-! ### What a completed command did -/

/-- A command that answers OK has had its effect (R36, R123). -/
theorem effect_of_exec_ok {i : Instr} {s t : State} (h : exec i s = .next t) (hok : t.err = .ok) :
    ∃ (s' : State) (out : Bytes), t = s'.complete .ok out ∧ Effect i s .ok s' := by
  obtain ⟨e, out, s', hn, -, hs⟩ := exec_effect i s
  obtain rfl : s'.complete e out = t := by rw [hn] at h; injection h
  obtain rfl : e = .ok := hok
  rcases hs with ⟨⟨hne, -⟩, -⟩ | he
  · exact absurd rfl hne
  · exact ⟨s', out, rfl, he⟩

/-- A command that changes a part of the state beside STATUS.ERR and the responses has had its effect
(R123). -/
theorem effect_of_exec_change {α : Type} (f : State → α)
    (hf : ∀ (s : State) (e : ErrCode) (out : Bytes), f (s.complete e out) = f s)
    {i : Instr} {s t : State} (h : exec i s = .next t) (hne : f t ≠ f s) :
    ∃ s' : State, Effect i s t.err s' ∧ f s' = f t := by
  obtain ⟨e, out, s', hn, -, hs⟩ := exec_effect i s
  obtain rfl : s'.complete e out = t := by rw [hn] at h; injection h
  rcases hs with ⟨-, rfl⟩ | he
  · exact absurd (hf s' e out) hne
  · exact ⟨s', he, (hf s' e out).symm⟩

/-! ### The frame counter (R21) -/

/-- The effects that write FC (R21). -/
theorem Effect.writes_fc {i : Instr} {s s' : State} {e : ErrCode} (h : Effect i s e s')
    (hfc : s'.fc ≠ s.fc) : e = .ok ∧ ((∃ a p, i = .ldfc a p) ∨ (∃ a p, i = .reset a p) ∨
      ∃ a p, i = .secenc a p ∧ ciphersWith s a) := by
  cases i with
  | ldfc a p => exact ⟨h.1, .inl ⟨a, p, rfl⟩⟩
  | reset a p => exact ⟨h.1, .inr (.inl ⟨a, p, rfl⟩)⟩
  | secenc a p =>
    obtain ⟨hok, ⟨-, rfl⟩ | ⟨hc, -, -⟩⟩ := h
    · exact absurd rfl hfc
    · exact ⟨hok, .inr (.inr ⟨a, p, rfl, hc⟩)⟩
  | nop | ldbk | ldak | ldst | ldsp | rdreg | aesenc | ghash | cipherPacket | cipherTag
  | cipherData | cipherDatatag | gcmabort =>
    obtain ⟨-, rfl⟩ := h
    exact absurd rfl hfc
  | ldctrl =>
    obtain ⟨-, -, rfl⟩ := h
    exact absurd rfl hfc
  | gcminitE | gcminitD =>
    obtain ⟨-, -, _, _, -, -, -, rfl⟩ := h
    exact absurd rfl hfc
  | gcmwrite =>
    obtain ⟨_, -, ⟨-, rfl⟩ | ⟨-, -, -, rfl⟩⟩ := h <;> exact absurd rfl hfc
  | gcmfinal =>
    obtain ⟨_, -, ⟨-, -, rfl⟩ | ⟨-, -, ⟨-, -, rfl⟩ | ⟨-, -, -, rfl⟩ | ⟨-, -, -, rfl⟩⟩⟩ := h <;>
      exact absurd rfl hfc
  | decipher =>
    obtain ⟨_, _, -, -, ⟨-, -, rfl⟩ | ⟨-, ⟨-, rfl⟩ | ⟨-, -, rfl⟩ | ⟨-, -, rfl⟩⟩⟩ := h <;>
      exact absurd rfl hfc

/-- Four bytes are the bytes of the counter they load (R8, R109). -/
theorem beBytes_ofNat_beNat {p : Bytes} (hp : p.length = 4) :
    beBytes 4 (BitVec.ofNat 32 (beNat p)).toNat = p := by
  have hlt := beNat_lt p
  rw [hp] at hlt
  rw [BitVec.toNat_ofNat, Nat.mod_eq_of_lt (by omega)]
  exact beBytes_beNat_of_length hp

/-- The formatter's nonce is the bytes of ST and then those of the counter (R21, R91). -/
theorem beBytes_formatterNonce (st : Title) (fc : BitVec 32) :
    beBytes 12 (formatterNonce st fc).toNat = beBytes 8 st.toNat ++ beBytes 4 fc.toNat := by
  have hfc : fc.toNat < 256 ^ 4 := fc.isLt
  rw [formatterNonce, BitVec.toNat_append, ← Nat.shiftLeft_add_eq_or_of_lt fc.isLt,
    Nat.shiftLeft_eq]
  exact beBytes_append 8 4 st.toNat fc.toNat hfc

/-- Settles O15: of all effects, those of LDFC, RESET and a ciphered SECENC alone write FC. -/
theorem frameCounterHasThreeWriters : Obligations.FrameCounterHasThreeWriters := by
  refine ⟨fun i s t h => ⟨?_, ?_, ?_, ?_⟩, beBytes_formatterNonce⟩
  · rintro a p rfl hok
    obtain ⟨s', out, rfl, -, hp, rfl⟩ := effect_of_exec_ok h hok
    exact beBytes_ofNat_beNat hp
  · rintro a p rfl hok
    obtain ⟨s', out, rfl, -, rfl⟩ := effect_of_exec_ok h hok
    rfl
  · rintro a p rfl hok hc
    obtain ⟨s', out, rfl, -, ⟨hn, -⟩ | ⟨-, -, rfl⟩⟩ := effect_of_exec_ok h hok
    · exact absurd hc hn
    · rfl
  · intro hfc
    obtain ⟨s', he, hs'⟩ := effect_of_exec_change State.fc complete_fc h hfc
    exact he.writes_fc (by rwa [hs'])

/-! ### Two runs side by side -/

/-- Two answers that complete with the same outcome and output, from states related by `R`. -/
def Lockstep (R : State → State → Prop) (r₁ r₂ : Result) : Prop :=
  ∃ (s u : State) (e : ErrCode) (out : Bytes),
    R s u ∧ r₁ = .next (s.complete e out) ∧ r₂ = .next (u.complete e out)

section Lockstep
variable {R : State → State → Prop} {s u : State}

theorem Lockstep.emit (out : Bytes) (h : R s u) : Lockstep R (emit out s) (emit out u) :=
  ⟨s, u, .ok, out, h, rfl, rfl⟩

theorem Lockstep.raise (e : ErrCode) (h : R s u) : Lockstep R (raise e s) (raise e u) :=
  ⟨s, u, e, [], h, rfl, rfl⟩

/-- Both runs make the same check. -/
theorem Lockstep.ite {c : Prop} [Decidable c] {r₁ r₂ q₁ q₂ : Result} (h : Lockstep R r₁ r₂)
    (h' : Lockstep R q₁ q₂) : Lockstep R (if c then r₁ else q₁) (if c then r₂ else q₂) := by
  split
  · exact h
  · exact h'

/-- Both runs need the block key and agree on whether it is loaded. -/
theorem Lockstep.needKey (h : R s u) (hk : u.key.isSome = s.key.isSome) {f g : CipherKey → Result}
    (hfg : ∀ k k', s.key = some k → u.key = some k' → Lockstep R (f k) (g k')) :
    Lockstep R (withKey s f) (withKey u g) := by
  cases hs : s.key <;> cases hu : u.key <;> simp only [hs, hu, Option.isSome, reduceCtorEq] at hk
  · rw [withKey_none hs, withKey_none hu]
    exact .raise _ h
  · rw [withKey_some hs, withKey_some hu]
    exact hfg _ _ hs hu

/-- Both runs need the same block key. -/
theorem Lockstep.needSameKey (h : R s u) (hk : u.key = s.key) {f g : CipherKey → Result}
    (hfg : ∀ k, Lockstep R (f k) (g k)) : Lockstep R (withKey s f) (withKey u g) := by
  refine .needKey h (by rw [hk]) fun k k' hs hu => ?_
  obtain rfl : k = k' := Option.some.inj (by rw [← hs, ← hu, hk])
  exact hfg k

/-- Both runs need the same BK, AK and ST. -/
theorem Lockstep.needSameKeys (h : R s u) (hk : u.key = s.key) (ha : u.ak = s.ak) (ht : u.st = s.st)
    {f g : CipherKey → Block → Title → Result} (hfg : ∀ k a t, Lockstep R (f k a t) (g k a t)) :
    Lockstep R (withKeys s f) (withKeys u g) := by
  rcases withKeys_cases s f with ⟨hn, hf⟩ | ⟨k, a, t, h1, h2, h3, hf⟩
  · rcases withKeys_cases u g with ⟨-, hg⟩ | ⟨k, a, t, h1, h2, h3, -⟩
    · rw [hf, hg]
      exact .raise _ h
    · rw [← hk, ← ha, ← ht, h1, h2, h3] at hn
      simp at hn
  · rw [hf, withKeys_some (hk.trans h1) (ha.trans h2) (ht.trans h3)]
    exact hfg k a t

end Lockstep

/-! ### The stream and the other commands (R29) -/

/-- The effects that start a stream (R29, R81, R82). -/
theorem Effect.starts_stream {i : Instr} {s s' : State} {e : ErrCode} (h : Effect i s e s')
    (hs : s.stream = none) (hs' : s'.stream ≠ none) :
    (∃ a p, i = .gcminitE a p) ∨ ∃ a p, i = .gcminitD a p := by
  cases i with
  | gcminitE a p => exact .inl ⟨a, p, rfl⟩
  | gcminitD a p => exact .inr ⟨a, p, rfl⟩
  | nop | ldbk | ldak | ldst | ldsp | reset | rdreg | aesenc | ghash | cipherPacket | cipherTag
  | cipherData | cipherDatatag =>
    obtain ⟨-, rfl⟩ := h
    exact absurd hs hs'
  | ldfc | ldctrl =>
    obtain ⟨-, -, rfl⟩ := h
    exact absurd hs hs'
  | gcmabort =>
    obtain ⟨-, rfl⟩ := h
    exact absurd rfl hs'
  | gcmwrite | gcmfinal =>
    obtain ⟨x, hx, -⟩ := h
    rw [hs] at hx
    cases hx
  | secenc =>
    obtain ⟨-, ⟨-, rfl⟩ | ⟨-, -, rfl⟩⟩ := h <;> exact absurd hs hs'
  | decipher =>
    obtain ⟨_, _, -, -, ⟨-, -, rfl⟩ | ⟨-, ⟨-, rfl⟩ | ⟨-, -, rfl⟩ | ⟨-, -, rfl⟩⟩⟩ := h <;>
      exact absurd hs hs'

/-- The second state is the first with the stream `x` in place of its own. -/
def HasStream (x : Option Stream) (s u : State) : Prop := u = { s with stream := x }

/-- The commands that read or write the stream: its own, and RDREG, whose STATUS shows it (R23, R29). -/
def usesStream : Instr → Bool
  | .rdreg _ _ | .gcminitE _ _ | .gcminitD _ _ | .gcmwrite _ _ | .gcmfinal _ _ | .gcmabort _ _ => true
  | _ => false

section HasStream
variable (x : Option Stream) (s : State)

@[simp] theorem diag_withStream : diag { s with stream := x } = diag s := rfl

/-- The formatter's common checks do not see the stream (R91, R93). -/
theorem withCipherCore_lockstep (p : Bytes) {f g : Bytes → Option Tag → Result}
    (h : ∀ d t, Lockstep (HasStream x) (f d t) (g d t)) :
    Lockstep (HasStream x) (withCipherCore s p f) (withCipherCore { s with stream := x } p g) := by
  unfold withCipherCore
  cases policyOf s.sp with
  | none => exact .raise _ rfl
  | some pol => exact .needSameKeys (R := HasStream x) rfl rfl rfl rfl fun k a t => h _ _

/-- DECIPHER does not see the stream (R98). -/
theorem execDecipher_lockstep (a : Byte) (p : Bytes) :
    Lockstep (HasStream x) (execDecipher a p s) (execDecipher a p { s with stream := x }) := by
  unfold execDecipher
  refine .ite (.raise _ rfl) ?_
  cases parseEnvelope p with
  | error e => exact .raise _ rfl
  | ok v =>
    dsimp only
    cases policyOf v.sp with
    | none => exact .raise _ rfl
    | some pol =>
      refine .needSameKeys (R := HasStream x) rfl rfl rfl rfl fun k ak st => ?_
      cases splitTag pol v.rest with
      | none => exact .raise _ rfl
      | some bt =>
        dsimp only
        cases (formatterCore .decrypt pol k ak (formatterNonce st v.fc) bt.1).2 with
        | none => exact .emit _ rfl
        | some t =>
          simp only [diag_withStream]
          cases tagVerdict t bt.2 (diag s) with
          | some mm => exact .emit _ rfl
          | none => exact .raise _ rfl

/-- A command that does not use the stream does the same whatever the stream is (R29). -/
theorem exec_lockstep_of_not_usesStream {i : Instr} (hi : usesStream i = false) :
    Lockstep (HasStream x) (exec i s) (exec i { s with stream := x }) := by
  cases i with
  | nop a p | ldbk a p | ldak a p | ldst a p | ldfc a p | ldctrl a p | reset a p =>
    exact .ite (.raise _ rfl) (.ite (.raise _ rfl) (.emit _ rfl))
  | ldsp a p => exact .ite (.raise _ rfl) (.emit _ rfl)
  | aesenc a p =>
    exact .ite (.raise _ rfl)
      (.ite (.raise _ rfl) (.needSameKey (R := HasStream x) rfl rfl fun k => .emit _ rfl))
  | ghash a p =>
    exact .ite (.raise _ rfl) (.needSameKey (R := HasStream x) rfl rfl fun k => .emit _ rfl)
  | cipherPacket a p => exact withCipherCore_lockstep x s p fun d t => .emit _ rfl
  | cipherTag a p | cipherData a p | cipherDatatag a p =>
    exact .ite (.raise _ rfl) (withCipherCore_lockstep x s p fun d t => .emit _ rfl)
  | secenc a p =>
    refine .ite (.emit _ rfl) (withCipherCore_lockstep x s p fun d t => ?_)
    exact .ite (.raise _ rfl) (.emit _ rfl)
  | decipher a p => exact execDecipher_lockstep x s a p
  | rdreg | gcminitE | gcminitD | gcmwrite | gcmfinal | gcmabort => cases hi

end HasStream

/-- A command that does not use the stream carries any stream along (R29). -/
theorem exec_withStream {i : Instr} (hi : usesStream i = false) {s t : State}
    (h : exec i s = .next t) (x : Option Stream) :
    exec i { s with stream := x } = .next { t with stream := x } := by
  obtain ⟨s', _, e, out, rfl, h₁, h₂⟩ := exec_lockstep_of_not_usesStream x s hi
  obtain rfl : s'.complete e out = t := by rw [h₁] at h; injection h
  exact h₂

/-- Settles O17: the other commands carry any stream along, and among the effects only GCMINIT's starts
one. -/
theorem streamIsIndependentOfOtherCommands : Obligations.StreamIsIndependentOfOtherCommands := by
  refine ⟨fun a p i s hi => ?_, fun p s hs => ⟨?_, ?_⟩, fun i s t h hs ht => ?_, rfl⟩
  · have hu : usesStream i = false := by
      revert i
      simp [usesStream]
    obtain ⟨e, out, s', hn, -, -⟩ := exec_effect i s
    refine ⟨s'.complete e out, hn, ?_, exec_withStream hu hn⟩
    have hown : exec i s = .next { s'.complete e out with stream := s.stream } :=
      exec_withStream hu hn s.stream
    rw [hn] at hown
    injection hown with hown
    exact (congrArg State.stream hown :)
  · simp [exec, execGcmwrite, hs, raise_next]
  · simp [exec, execGcmfinal, hs, raise_next]
  · obtain ⟨s', he, hs'⟩ := effect_of_exec_change State.stream complete_stream h (by rwa [hs])
    exact he.starts_stream hs (by rwa [hs'])

/-! ### What a host can read back (R31) -/

/-- What two states that agree on all but secrets can differ in (R31). -/
theorem sameButSecrets_iff {s u : State} : sameButSecrets s u ↔
    ∃ k ak x, u = { s with key := k, ak := ak, stream := x } ∧ k.isSome = s.key.isSome ∧
      ak.isSome = s.ak.isSome ∧ x.map streamShown = s.stream.map streamShown := by
  constructor
  · exact fun h => ⟨u.key, u.ak, u.stream, h⟩
  · rintro ⟨k, ak, x, rfl, h⟩
    exact ⟨rfl, h⟩

/-- The streams of two states that agree on all but secrets are both IDLE or show the same (R31). -/
theorem sameButSecrets.stream_cases {s u : State} (h : sameButSecrets s u) :
    (s.stream = none ∧ u.stream = none) ∨
      ∃ y z, s.stream = some y ∧ u.stream = some z ∧ streamShown z = streamShown y := by
  obtain ⟨-, -, -, hx⟩ := h
  cases hs : s.stream with
  | none => exact .inl ⟨rfl, by simpa [hs] using hx⟩
  | some y =>
    obtain ⟨z, hz, hzy⟩ : ∃ z, u.stream = some z ∧ streamShown z = streamShown y := by
      simpa [hs] using hx
    exact .inr ⟨y, z, rfl, hz, hzy⟩

/-- STATUS shows no secrets (R23, R31). -/
theorem sameButSecrets.statusWord_eq {s u : State} (h : sameButSecrets s u) :
    statusWord u = statusWord s := by
  have hstream : sdir u = sdir s ∧ phase u = phase s := by
    rcases h.stream_cases with ⟨hs, hu⟩ | ⟨y, z, hs, hu, hzy⟩
    · simp [sdir, phase, hs, hu]
    · have hdir : z.dir = y.dir := congrArg Prod.fst hzy
      simp [sdir, phase, hs, hu, hdir]
  obtain ⟨hd, hp⟩ := hstream
  obtain ⟨k, ak, x, rfl, hk, ha, -⟩ := sameButSecrets_iff.1 h
  rw [statusWord, hd, hp, kvBk, kvAk, hk, ha]
  rfl

/-- No register shows a secret (R27, R31). -/
theorem sameButSecrets.registerBytes_eq {s u : State} (h : sameButSecrets s u) (n : Nat) :
    registerBytes u n = registerBytes s n := by
  have hst := h.statusWord_eq
  obtain ⟨k, ak, x, rfl, -⟩ := sameButSecrets_iff.1 h
  unfold registerBytes
  rw [hst]

/-- What STATUS and GCMWRITE show of a stream after a write (R31, R84). -/
theorem streamShown_writeStream (t : Stream) (p : Bytes) : streamShown (writeStream t p) =
    (t.dir, t.pol, t.lenC + p.length,
      if t.pol = .authentication then t.nblk else t.nblk + (t.buf ++ p).length / 16,
      (t.buf ++ p).length - 16 * ((t.buf ++ p).length / 16)) := by
  obtain ⟨hdir, hpol, -⟩ := foldl_processBlock_frame (pieces ((t.buf ++ p).length / 16) (t.buf ++ p)) t
  have hnblk := foldl_processBlock_nblk (pieces ((t.buf ++ p).length / 16) (t.buf ++ p)) t
  simp only [streamShown, writeStream, hdir, hpol, hnblk, length_pieces, List.length_drop]

/-- `t` and `v` agree on all but secrets and no response has been added since `s`. -/
def SameButSecretsSince (s t v : State) : Prop := sameButSecrets t v ∧ t.responses = s.responses

/-- The commands whose output R31 names. -/
def showsSecrets : Instr → Bool
  | .gcmfinal _ _ | .aesenc _ _ | .ghash _ _ | .cipherPacket _ _ | .cipherTag _ _ | .cipherData _ _
  | .cipherDatatag _ _ | .secenc _ _ | .decipher _ _ => true
  | _ => false

section Secrets
variable {s u : State} (h : sameButSecrets s u)
include h

/-- GCMINIT shows no secret: which stream starts is in the payload, but for its keys (R31, R81, R82). -/
theorem initStream_lockstep (dir : Direction) (a : Byte) (p : Bytes) :
    Lockstep (SameButSecretsSince s) (initStream dir a p s) (initStream dir a p u) := by
  have hsame : SameButSecretsSince s s u := ⟨h, rfl⟩
  rcases h.stream_cases with ⟨hs, hu⟩ | ⟨y, z, hs, hu, -⟩
  · simp only [initStream, hs, hu]
    cases policyOf a with
    | none => exact .raise _ hsame
    | some pol =>
      refine .ite (.raise _ hsame) (.needKey hsame h.2.1 fun k k' hk hk' => .emit _ ?_)
      obtain ⟨key, ak, x, rfl, hkey, ha, -⟩ := sameButSecrets_iff.1 h
      exact ⟨⟨rfl, hkey, ha, rfl⟩, rfl⟩
  · simp only [initStream, hs, hu]
    exact .raise _ hsame

/-- GCMWRITE shows of the stream what its limits depend on (R31, R84, R85). -/
theorem execGcmwrite_lockstep (a : Byte) (p : Bytes) :
    Lockstep (SameButSecretsSince s) (execGcmwrite a p s) (execGcmwrite a p u) := by
  have hsame : SameButSecretsSince s s u := ⟨h, rfl⟩
  refine .ite (.raise _ hsame) ?_
  rcases h.stream_cases with ⟨hs, hu⟩ | ⟨y, z, hs, hu, hzy⟩
  · rw [hs, hu]
    exact .raise _ hsame
  · simp only [streamShown, Prod.mk.injEq] at hzy
    obtain ⟨hdir, hpol, hlenC, hnblk, hbuf⟩ := hzy
    have hlimit : exceedsCounterLimit z p = exceedsCounterLimit y p := by
      simp only [exceedsCounterLimit, List.length_append, hpol, hnblk, hbuf]
    have hwrite : streamShown (writeStream z p) = streamShown (writeStream y p) := by
      simp only [streamShown_writeStream, List.length_append, hdir, hpol, hlenC, hnblk, hbuf]
    obtain ⟨k, ak, x, rfl, hk, ha, -⟩ := sameButSecrets_iff.1 h
    have hend : SameButSecretsSince s (endStream s)
        (endStream { s with key := k, ak := ak, stream := x }) := ⟨⟨rfl, hk, ha, rfl⟩, rfl⟩
    rw [hs, hu]
    dsimp only
    rw [hlenC, hlimit]
    exact .ite (.raise _ hend) (.ite (.raise _ hend)
      (.emit _ ⟨⟨rfl, hk, ha, congrArg some hwrite⟩, rfl⟩))

/-- A command whose output R31 does not name answers the same whatever the secrets are (R31). -/
theorem exec_lockstep_of_not_showsSecrets {i : Instr} (hi : showsSecrets i = false) :
    Lockstep (SameButSecretsSince s) (exec i s) (exec i u) := by
  have hsame : SameButSecretsSince s s u := ⟨h, rfl⟩
  have hreg := h.registerBytes_eq
  cases i with
  | gcminitE a p => exact initStream_lockstep h .encrypt a p
  | gcminitD a p => exact initStream_lockstep h .decrypt a p
  | gcmwrite a p => exact execGcmwrite_lockstep h a p
  | rdreg a p =>
    refine .ite (.raise _ hsame) (.ite (.raise _ hsame) ?_)
    rw [hreg]
    cases registerBytes s a.toNat with
    | some b => exact .emit _ hsame
    | none => exact .raise _ hsame
  | nop a p | ldst a p | ldfc a p | ldctrl a p | reset a p =>
    obtain ⟨k, ak, x, rfl, hk, ha, hx⟩ := sameButSecrets_iff.1 h
    exact .ite (.raise _ hsame) (.ite (.raise _ hsame) (.emit _ ⟨⟨rfl, hk, ha, hx⟩, rfl⟩))
  | ldsp a p =>
    obtain ⟨k, ak, x, rfl, hk, ha, hx⟩ := sameButSecrets_iff.1 h
    exact .ite (.raise _ hsame) (.emit _ ⟨⟨rfl, hk, ha, hx⟩, rfl⟩)
  | ldbk a p =>
    obtain ⟨k, ak, x, rfl, -, ha, hx⟩ := sameButSecrets_iff.1 h
    exact .ite (.raise _ hsame) (.ite (.raise _ hsame) (.emit _ ⟨⟨rfl, rfl, ha, hx⟩, rfl⟩))
  | ldak a p =>
    obtain ⟨k, ak, x, rfl, hk, -, hx⟩ := sameButSecrets_iff.1 h
    exact .ite (.raise _ hsame) (.ite (.raise _ hsame) (.emit _ ⟨⟨rfl, hk, rfl, hx⟩, rfl⟩))
  | gcmabort a p =>
    obtain ⟨k, ak, x, rfl, hk, ha, -⟩ := sameButSecrets_iff.1 h
    exact .ite (.raise _ hsame) (.ite (.raise _ hsame) (.emit _ ⟨⟨rfl, hk, ha, rfl⟩, rfl⟩))
  | gcmfinal | aesenc | ghash | cipherPacket | cipherTag | cipherData | cipherDatatag | secenc
  | decipher => cases hi

end Secrets

/-- States that agree on all but secrets have the same responses (R31). -/
theorem sameButSecrets.responses_eq {s u : State} (h : sameButSecrets s u) :
    u.responses = s.responses := by
  rw [h.1]

/-- What completes the same way keeps agreeing on all but secrets (R31). -/
theorem sameButSecrets.complete {s u : State} (h : sameButSecrets s u) (e : ErrCode) (out : Bytes) :
    sameButSecrets (s.complete e out) (u.complete e out) := by
  obtain ⟨k, ak, x, rfl, hshown⟩ := sameButSecrets_iff.1 h
  exact ⟨rfl, hshown⟩

/-- Settles O19: what the listed commands answer is fixed by what `sameButSecrets` fixes. -/
theorem secretsAreNotReadBack : Obligations.SecretsAreNotReadBack := by
  intro a p i s u h hi
  have hshow : showsSecrets i = false := by
    revert i
    simp [showsSecrets]
  obtain ⟨t, v, e, out, ⟨htv, hr⟩, h₁, h₂⟩ := exec_lockstep_of_not_showsSecrets h hshow
  refine ⟨_, _, ⟨e, out⟩, h₁, h₂, ?_, ?_, htv.complete e out⟩
  · rw [complete_responses, hr]
  · rw [complete_responses, htv.responses_eq, hr, h.responses_eq]

/-! ### The state after reset (R32) -/

/-- RDREG of a register that holds a value (R112). -/
theorem exec_rdreg_of_some {s : State} {a : Byte} {b : Bytes} (ha : a.toNat ≤ 6)
    (hb : registerBytes s a.toNat = some b) : exec (.rdreg a []) s = .next (s.complete .ok b) := by
  simp [exec, execRdreg, hb, Nat.not_lt.2 ha, emit_next]

/-- Settles O10: the registers' values after reset are those that RDREG then answers. -/
theorem resetValuesReadBack : Obligations.ResetValuesReadBack :=
  ⟨rfl, rfl, rfl, rfl, rfl, exec_rdreg_of_some (by decide) rfl, exec_rdreg_of_some (by decide) rfl,
    exec_rdreg_of_some (by decide) rfl, exec_rdreg_of_some (by decide) rfl,
    exec_rdreg_of_some (by decide) rfl, exec_rdreg_of_some (by decide) rfl, rfl⟩

end Sys2Proof.Machine
end

section
/-! PROOFS. The statements about the encoding (30_encoding R51, R54, R56, R58): the bytes of a command, the
illegal ones, the A-XDR count and the bytes of a response. -/

namespace Sys2Proof.Machine

/-! ### The bytes of a command (R51) -/

/-- The first four bytes of a command are its header (R51). -/
theorem take_four_encode (i : Instr) :
    (encode i).take 4 = i.opcode :: i.arg :: beBytes 2 i.payload.length := rfl

/-- A command's length is 4 bytes and its LEN (R51). -/
theorem length_encode (i : Instr) : (encode i).length = 4 + i.payload.length := by
  simp only [encode, List.length_cons, List.length_append, length_beBytes]
  omega

/-- The decoder finds the command and the bytes behind it by the header alone (R51). -/
theorem decode_encode_append {i : Instr} (h : i.encodable = true) (rest : Bytes) :
    decode (encode i ++ rest) = .ok (i, rest) := by
  have hlen := beNat_lengthField h
  obtain ⟨hi, lo, hfield⟩ : ∃ hi lo, beBytes 2 i.payload.length = [hi, lo] := ⟨_, _, rfl⟩
  rw [hfield] at hlen
  simp [encode, decode, hfield, hlen]

/-- The header word `OPC·2^24 + ARG·2^16 + LEN` (R51). -/
theorem beNat_header {i : Instr} (h : i.encodable = true) : beNat ((encode i).take 4) =
    i.opcode.toNat * 2 ^ 24 + i.arg.toNat * 2 ^ 16 + i.payload.length := by
  rw [take_four_encode, beNat_cons, beNat_cons, beNat_lengthField h]
  simp only [List.length_cons, length_beBytes]
  omega

/-- Settles O1: decoding, length and header word of an encoded command. -/
theorem decodeOfEncodeIsTheCommand : Obligations.DecodeOfEncodeIsTheCommand :=
  fun i rest h => ⟨decode_encode_append h rest, length_encode i, beNat_header h⟩

/-! ### Illegal commands (R54) -/

/-- A whole command whose OPC names no command raises `IllegalCommand` (R54). -/
theorem runCommand_of_instrOf_none {opc arg : Byte} {p : Bytes} (h : p.length ≤ 65535)
    (hi : instrOf opc arg p = none) (s : State) :
    runCommand (opc :: arg :: (beBytes 2 p.length ++ p)) s = raise .illegalCommand s := by
  rw [runCommand_whole opc arg p s h, hi]

/-- ARG is judged before everything else (R53, R54, R122). -/
theorem exec_of_argAccepted_false {i : Instr} (h : i.argAccepted = false) (s : State) :
    exec i s = raise .illegalCommand s := by
  cases i with
  | nop a p | ldbk a p | ldak a p | ldst a p | ldfc a p | reset a p | aesenc a p | ghash a p
  | gcmwrite a p | gcmfinal a p | gcmabort a p | cipherTag a p | cipherData a p | cipherDatatag a p
  | decipher a p =>
    have ha : a ≠ 0x00 := beq_eq_false_iff_ne.1 h
    exact if_pos ha
  | ldctrl a p =>
    have ha : a &&& 0xFE ≠ 0x00 := beq_eq_false_iff_ne.1 h
    exact if_pos ha
  | rdreg a p =>
    have ha : ¬ a.toNat ≤ 6 := of_decide_eq_false h
    exact if_pos (Nat.lt_of_not_le ha)
  | ldsp | gcminitE | gcminitD | cipherPacket | secenc => cases h

/-- Settles O4: an unlisted OPC names no command, and a forbidden ARG is refused before anything else. -/
theorem illegalCommandsChangeNothing : Obligations.IllegalCommandsChangeNothing := by
  refine ⟨fun opc arg p rest s hopc hp hrest => ?_, fun i s h => exec_of_argAccepted_false h s⟩
  rw [step_whole opc arg p rest _ hp hrest rfl,
    runCommand_of_instrOf_none hp (instrOf_unlisted opc arg p hopc), raise_next]

/-! ### The A-XDR count (R56) -/

/-- `CountDec` where a byte stands: one byte, one of the forms 81 to 84, or no count (R56). -/
theorem countDec_append_cons (c : Byte) (before after : Bytes) :
    countDec (before ++ c :: after) before.length =
      if c.toNat < 0x80 then some (c.toNat, before.length + 1)
      else if 0x81 ≤ c.toNat ∧ c.toNat ≤ 0x84 then
        if after.length < c.toNat - 0x80 then none
        else some (beNat (after.take (c.toNat - 0x80)), before.length + 1 + (c.toNat - 0x80))
      else none := by
  have hc : (before ++ c :: after)[before.length]? = some c := by simp
  have hdrop : (before ++ c :: after).drop (before.length + 1) = after := by simp
  have hcut : (before ++ c :: after).length < before.length + 1 + (c.toNat - 0x80) ↔
      after.length < c.toNat - 0x80 := by
    rw [List.length_append, List.length_cons]
    omega
  simp only [countDec, hc, hdrop, hcut]

/-- A byte below 80 is a count (R56). -/
theorem countDec_short {c : Byte} (hc : c.toNat < 0x80) (before after : Bytes) :
    countDec (before ++ c :: after) before.length = some (c.toNat, before.length + 1) := by
  rw [countDec_append_cons, if_pos hc]

/-- The forms 81 to 84 with all their digits, minimal or not (R56). -/
theorem countDec_long {c : Byte} {digits : Bytes} (h₁ : 0x81 ≤ c.toNat) (h₂ : c.toNat ≤ 0x84)
    (hd : digits.length = c.toNat - 0x80) (before after : Bytes) :
    countDec (before ++ c :: (digits ++ after)) before.length =
      some (beNat digits, before.length + 1 + digits.length) := by
  have hroom : ¬ (digits ++ after).length < digits.length := by
    rw [List.length_append]
    omega
  rw [countDec_append_cons, if_neg (by omega), if_pos ⟨h₁, h₂⟩, ← hd, if_neg hroom, List.take_left]

/-- The forms 81 to 84 with too few digits (R56). -/
theorem countDec_cut {c : Byte} {after : Bytes} (h₁ : 0x81 ≤ c.toNat) (h₂ : c.toNat ≤ 0x84)
    (ha : after.length < c.toNat - 0x80) (before : Bytes) :
    countDec (before ++ c :: after) before.length = none := by
  rw [countDec_append_cons, if_neg (by omega), if_pos ⟨h₁, h₂⟩, if_pos ha]

/-- 80, and everything from 85 on, starts no count (R56). -/
theorem countDec_badForm {c : Byte} (hc : c.toNat = 0x80 ∨ 0x85 ≤ c.toNat) (before after : Bytes) :
    countDec (before ++ c :: after) before.length = none := by
  rw [countDec_append_cons, if_neg (by omega), if_neg (by omega)]

/-- Behind the last byte there is no count (R56). -/
theorem countDec_of_length_le {b : Bytes} {i : Nat} (h : b.length ≤ i) : countDec b i = none := by
  simp only [countDec, List.getElem?_eq_none h]

/-- `CountEnc` writes one byte, or a form byte with as many digits as hold the count (R56). -/
theorem countEnc_cases {n : Nat} (h : n < 2 ^ 32) :
    (n < 0x80 ∧ countEnc n = [BitVec.ofNat 8 n]) ∨
      ∃ (c : Byte) (k : Nat), c.toNat = 0x80 + k ∧ 1 ≤ k ∧ k ≤ 4 ∧ n < 256 ^ k ∧
        countEnc n = c :: beBytes k n := by
  unfold countEnc
  split
  · exact .inl ⟨‹_›, rfl⟩
  · split
    · exact .inr ⟨0x81, 1, rfl, by omega, by omega, by omega, rfl⟩
    · split
      · exact .inr ⟨0x82, 2, rfl, by omega, by omega, by omega, rfl⟩
      · exact .inr ⟨0x84, 4, rfl, by omega, by omega, by omega, rfl⟩

/-- `CountDec` reads back what `CountEnc` writes, wherever it stands (R56). -/
theorem countDec_countEnc {n : Nat} (h : n < 2 ^ 32) (before after : Bytes) :
    countDec (before ++ countEnc n ++ after) before.length =
      some (n, before.length + (countEnc n).length) := by
  rw [List.append_assoc]
  rcases countEnc_cases h with ⟨hn, henc⟩ | ⟨c, k, hc, hk₁, hk₂, hn, henc⟩
  · have hbyte : (BitVec.ofNat 8 n).toNat = n := by
      rw [BitVec.toNat_ofNat]
      omega
    rw [henc, List.singleton_append, countDec_short (by rwa [hbyte]), hbyte, List.length_singleton]
  · rw [henc, List.cons_append, countDec_long (by omega) (by omega) (by rw [length_beBytes]; omega),
      beNat_beBytes, Nat.mod_eq_of_lt hn, List.length_cons, Nat.add_assoc, Nat.add_comm 1]

/-- The lengths of the minimal forms (R56). -/
theorem length_countEnc (n : Nat) : (countEnc n).length =
    if n < 0x80 then 1 else if n < 0x100 then 2 else if n < 0x10000 then 3 else 5 := by
  simp only [countEnc, apply_ite List.length, List.length_cons, length_beBytes]

/-- Settles O6: the round trip, and `countDec` on each form of its first byte. -/
theorem countEncodingRoundTrip : Obligations.CountEncodingRoundTrip :=
  ⟨fun _ before after h => countDec_countEnc h before after,
    fun n _ => length_countEnc n,
    fun _ before after hc => countDec_short hc before after,
    fun _ before _ after h₁ h₂ hd => countDec_long h₁ h₂ hd before after,
    fun _ before _ h₁ h₂ ha => countDec_cut h₁ h₂ ha before,
    fun _ before after hc => countDec_badForm hc before after,
    fun _ _ h => countDec_of_length_le h⟩

/-! ### The bytes of a response (R58) -/

/-- The length field holds the length where R58 defines it. -/
theorem toNat_responseLength {n : Nat} (h : n < 2 ^ 32) : (responseLength n).toNat = n := by
  rw [responseLength, if_pos h, BitVec.toNat_ofNat, Nat.mod_eq_of_lt h]

/-- The bytes of a response whose output has fewer than 2^32 bytes (R58). -/
theorem responseBytes_eq (e : ErrCode) {out : Bytes} (h : out.length < 2 ^ 32) :
    responseBytes ⟨e, out⟩ = (0#4 ++ errCode e : BitVec 8) :: (beBytes 4 out.length ++ out) := by
  rw [responseBytes, toNat_responseLength h, List.cons_append]

/-- No effect touches the ports or the model's own counter (R35, R36; log 5). -/
theorem Effect.keeps_ports {i : Instr} {s s' : State} {e : ErrCode} (h : Effect i s e s') :
    s'.responses = s.responses ∧ s'.port = s.port ∧ s'.resetRaces = s.resetRaces := by
  cases i with
  | nop | ldbk | ldak | ldst | ldsp | reset | rdreg | aesenc | ghash | cipherPacket | cipherTag
  | cipherData | cipherDatatag | gcmabort =>
    obtain ⟨-, rfl⟩ := h
    exact ⟨rfl, rfl, rfl⟩
  | ldfc | ldctrl =>
    obtain ⟨-, -, rfl⟩ := h
    exact ⟨rfl, rfl, rfl⟩
  | gcminitE | gcminitD =>
    obtain ⟨-, -, _, _, -, -, -, rfl⟩ := h
    exact ⟨rfl, rfl, rfl⟩
  | gcmwrite =>
    obtain ⟨_, -, ⟨-, rfl⟩ | ⟨-, -, -, rfl⟩⟩ := h <;> exact ⟨rfl, rfl, rfl⟩
  | gcmfinal =>
    obtain ⟨_, -, ⟨-, -, rfl⟩ | ⟨-, -, ⟨-, -, rfl⟩ | ⟨-, -, -, rfl⟩ | ⟨-, -, -, rfl⟩⟩⟩ := h <;>
      exact ⟨rfl, rfl, rfl⟩
  | secenc =>
    obtain ⟨-, ⟨-, rfl⟩ | ⟨-, -, rfl⟩⟩ := h <;> exact ⟨rfl, rfl, rfl⟩
  | decipher =>
    obtain ⟨_, _, -, -, ⟨-, -, rfl⟩ | ⟨-, ⟨-, rfl⟩ | ⟨-, -, rfl⟩ | ⟨-, -, rfl⟩⟩⟩ := h <;>
      exact ⟨rfl, rfl, rfl⟩

/-- A command adds one response, with no output on an error (R36). -/
theorem exec_adds_one_response (i : Instr) (s : State) : ∃ (t : State) (e : ErrCode) (out : Bytes),
    exec i s = .next t ∧ t.responses = s.responses ++ [⟨e, out⟩] ∧ (e ≠ .ok → out = []) := by
  obtain ⟨e, out, s', hn, hout, hs⟩ := exec_effect i s
  have hkept : s'.responses = s.responses := by
    rcases hs with ⟨-, rfl⟩ | he
    · rfl
    · exact he.keeps_ports.1
  exact ⟨s'.complete e out, e, out, hn, by rw [complete_responses, hkept], hout⟩

/-- Settles O26: the outcome's code is the low half of the first byte, and a failed command has no output. -/
theorem responseByteFormat : Obligations.ResponseByteFormat := by
  refine ⟨fun e out h => ⟨0#4 ++ errCode e, responseBytes_eq e h, ?_, ?_⟩, fun i s => ?_⟩
  · exact BitVec.extractLsb'_append_eq_right
  · exact BitVec.extractLsb'_append_eq_left
  · obtain ⟨t, e, out, hn, hr, hout⟩ := exec_adds_one_response i s
    refine ⟨t, ⟨e, out⟩, hn, hr, fun he => ?_⟩
    obtain rfl := hout he
    exact ⟨_, responseBytes_eq e (by decide)⟩

end Sys2Proof.Machine
end

section
/-! PROOFS. The statements about AES (40_aes R61, R63, R68, R69): the key schedule, the S-box, the block key
and the block primitive. -/

namespace Sys2Proof.Machine

/-! ### Four words make a block, four bytes a word (R10, R61) -/

section FourParts
open BitVec (extractLsb'_append_eq_of_le extractLsb'_append_eq_right)
variable {n : Nat} (a b c d : BitVec n)

theorem extractLsb'_append_first : (a ++ b ++ c ++ d).extractLsb' (n + n + n) n = a := by
  simp [extractLsb'_append_eq_of_le]

theorem extractLsb'_append_second : (a ++ b ++ c ++ d).extractLsb' (n + n) n = b := by
  simp [extractLsb'_append_eq_of_le, extractLsb'_append_eq_right]

theorem extractLsb'_append_third : (a ++ b ++ c ++ d).extractLsb' n n = c := by
  simp [extractLsb'_append_eq_of_le, extractLsb'_append_eq_right]

end FourParts

section Words
variable (a b c d : Word32)

theorem wordAt_append_zero : wordAt (a ++ b ++ c ++ d) 0 = a := extractLsb'_append_first a b c d
theorem wordAt_append_one : wordAt (a ++ b ++ c ++ d) 1 = b := extractLsb'_append_second a b c d
theorem wordAt_append_two : wordAt (a ++ b ++ c ++ d) 2 = c := extractLsb'_append_third a b c d
theorem wordAt_append_three : wordAt (a ++ b ++ c ++ d) 3 = d := BitVec.extractLsb'_append_eq_right

end Words

/-- A block is its four words (R61). -/
theorem append_wordAt (k : Block) : wordAt k 0 ++ wordAt k 1 ++ wordAt k 2 ++ wordAt k 3 = k := by
  have h₁ : wordAt k 0 ++ wordAt k 1 = k.extractLsb' 64 64 :=
    BitVec.extractLsb'_append_extractLsb'_eq_extractLsb' rfl
  have h₂ : k.extractLsb' 64 64 ++ wordAt k 2 = k.extractLsb' 32 96 :=
    BitVec.extractLsb'_append_extractLsb'_eq_extractLsb' rfl
  have h₃ : k.extractLsb' 32 96 ++ wordAt k 3 = k.extractLsb' 0 128 :=
    BitVec.extractLsb'_append_extractLsb'_eq_extractLsb' rfl
  rw [h₁, h₂, h₃, BitVec.extractLsb'_eq_self]

/-- The bytes of two values side by side (R8). -/
theorem beBytes_toNat_append (m n : Nat) {l : Nat} (x : BitVec l) (y : BitVec (8 * n)) :
    beBytes (m + n) (x ++ y).toNat = beBytes m x.toNat ++ beBytes n y.toNat := by
  have hy : y.toNat < 256 ^ n := two_pow_eight_mul n ▸ y.isLt
  rw [BitVec.toNat_append, ← Nat.shiftLeft_add_eq_or_of_lt y.isLt, Nat.shiftLeft_eq,
    two_pow_eight_mul]
  exact beBytes_append m n x.toNat y.toNat hy

/-- The bytes of a block are those of its words, in order (R61). -/
theorem blockBytes_eq_words (k : Block) : blockBytes k =
    beBytes 4 (wordAt k 0).toNat ++ beBytes 4 (wordAt k 1).toNat ++ beBytes 4 (wordAt k 2).toNat ++
      beBytes 4 (wordAt k 3).toNat :=
  calc blockBytes k
    _ = beBytes 16 (wordAt k 0 ++ wordAt k 1 ++ wordAt k 2 ++ wordAt k 3).toNat := by
      rw [append_wordAt, blockBytes]
    _ = _ := beBytes_toNat_append 12 4 _ (wordAt k 3)
    _ = _ := congrArg (· ++ _) (beBytes_toNat_append 8 4 _ (wordAt k 2))
    _ = _ := congrArg (· ++ _ ++ _) (beBytes_toNat_append 4 4 (wordAt k 0) (wordAt k 1))

/-- Byte `i` of a word, byte 0 the most significant (R61). -/
def wordByte (w : Word32) (i : Nat) : Byte := w.extractLsb' (8 * (3 - i)) 8

section WordBytes
variable (a b c d : Byte)

theorem wordByte_append_zero : wordByte (a ++ b ++ c ++ d) 0 = a := extractLsb'_append_first a b c d
theorem wordByte_append_one : wordByte (a ++ b ++ c ++ d) 1 = b := extractLsb'_append_second a b c d
theorem wordByte_append_two : wordByte (a ++ b ++ c ++ d) 2 = c := extractLsb'_append_third a b c d
theorem wordByte_append_three : wordByte (a ++ b ++ c ++ d) 3 = d :=
  BitVec.extractLsb'_append_eq_right

end WordBytes

/-- `SubWord` is the S-box on each byte (R61). -/
theorem subWord_eq_bytes (w : Word32) : subWord w =
    sbox (wordByte w 0) ++ sbox (wordByte w 1) ++ sbox (wordByte w 2) ++ sbox (wordByte w 3) := rfl

theorem subWord_append (a b c d : Byte) :
    subWord (a ++ b ++ c ++ d) = sbox a ++ sbox b ++ sbox c ++ sbox d := by
  rw [subWord_eq_bytes, wordByte_append_zero, wordByte_append_one, wordByte_append_two,
    wordByte_append_three]

/-- `RotWord` puts byte 0 behind the other three (R61). -/
theorem rotWord_eq_bytes (w : Word32) :
    rotWord w = wordByte w 1 ++ wordByte w 2 ++ wordByte w 3 ++ wordByte w 0 := by
  have h₁ : wordByte w 1 ++ wordByte w 2 = w.extractLsb' 8 16 :=
    BitVec.extractLsb'_append_extractLsb'_eq_extractLsb' rfl
  have h₂ : w.extractLsb' 8 16 ++ wordByte w 3 = w.extractLsb' 0 24 :=
    BitVec.extractLsb'_append_extractLsb'_eq_extractLsb' rfl
  rw [h₁, h₂]
  rfl

theorem rotWord_append (a b c d : Byte) : rotWord (a ++ b ++ c ++ d) = b ++ c ++ d ++ a := by
  rw [rotWord_eq_bytes, wordByte_append_zero, wordByte_append_one, wordByte_append_two,
    wordByte_append_three]

/-! ### The recurrence of the key schedule (R61) -/

/-- Words 1 to 3 of the next round key: the same word of this one with the word before it added (R61). -/
theorem wordAt_nextRoundKey_succ (r : Nat) (k : Block) {j : Nat} (hj : j < 3) :
    wordAt (nextRoundKey r k) (j + 1) = wordAt k (j + 1) ^^^ wordAt (nextRoundKey r k) j := by
  simp only [nextRoundKey]
  interval_cases j
  · rw [wordAt_append_one, wordAt_append_zero]
  · rw [wordAt_append_two, wordAt_append_one]
  · rw [wordAt_append_three, wordAt_append_two]

/-- `w[i]` of R61. -/
def keyWord (k : Block) (i : Nat) : Word32 := wordAt (roundKey k (i / 4)) (i % 4)

/-- Word `j` of round key `r` is `w[4·r + j]` (R61). -/
theorem keyWord_four_mul_add (k : Block) (r : Nat) {j : Nat} (hj : j < 4) :
    keyWord k (4 * r + j) = wordAt (roundKey k r) j := by
  rw [keyWord, show (4 * r + j) / 4 = r by omega, show (4 * r + j) % 4 = j by omega]

/-- A round key is four words in a row (R61). -/
theorem roundKey_eq_words (k : Block) (r : Nat) : roundKey k r =
    keyWord k (4 * r) ++ keyWord k (4 * r + 1) ++ keyWord k (4 * r + 2) ++ keyWord k (4 * r + 3) := by
  have h₀ : keyWord k (4 * r) = wordAt (roundKey k r) 0 :=
    keyWord_four_mul_add k r (j := 0) (by decide)
  rw [h₀, keyWord_four_mul_add k r (by decide), keyWord_four_mul_add k r (by decide),
    keyWord_four_mul_add k r (by decide), append_wordAt]

/-- Every fourth word goes through RotWord, SubWord and Rcon (R61). -/
theorem keyWord_of_mod_eq_zero (k : Block) {i : Nat} (h₄ : 4 ≤ i) (hi : i % 4 = 0) :
    keyWord k i = keyWord k (i - 4) ^^^
      (subWord (rotWord (keyWord k (i - 1))) ^^^ (rcon (i / 4) ++ 0#24)) := by
  obtain ⟨r, rfl⟩ : ∃ r, i = 4 * (r + 1) + 0 := ⟨i / 4 - 1, by omega⟩
  rw [show 4 * (r + 1) + 0 - 4 = 4 * r + 0 by omega, show 4 * (r + 1) + 0 - 1 = 4 * r + 3 by omega,
    show (4 * (r + 1) + 0) / 4 = r + 1 by omega, keyWord_four_mul_add k _ (by decide),
    keyWord_four_mul_add k _ (by decide), keyWord_four_mul_add k _ (by decide), roundKey]
  exact wordAt_append_zero _ _ _ _

/-- Every other word is the one four before it with the one before it added (R61). -/
theorem keyWord_of_mod_ne_zero (k : Block) {i : Nat} (h₄ : 4 ≤ i) (hi : i % 4 ≠ 0) :
    keyWord k i = keyWord k (i - 4) ^^^ keyWord k (i - 1) := by
  obtain ⟨r, j, hj, rfl⟩ : ∃ r j, j < 3 ∧ i = 4 * (r + 1) + (j + 1) :=
    ⟨i / 4 - 1, i % 4 - 1, by omega, by omega⟩
  rw [show 4 * (r + 1) + (j + 1) - 4 = 4 * r + (j + 1) by omega,
    show 4 * (r + 1) + (j + 1) - 1 = 4 * (r + 1) + j by omega, keyWord_four_mul_add k _ (by omega),
    keyWord_four_mul_add k _ (by omega), keyWord_four_mul_add k _ (by omega), roundKey]
  exact wordAt_nextRoundKey_succ _ _ hj

/-- Round key `i` of the expansion (R61). -/
theorem keyExpansion_getElem (k : Block) (i : Fin 11) : (keyExpansion k)[i] = roundKey k i.val := by
  simp [keyExpansion]

/-- Settles O38: the words of the round keys follow the recurrence, four turns to a round key. -/
theorem keyScheduleRecurrence : Obligations.KeyScheduleRecurrence := by
  refine ⟨fun k w hw => ?_, fun a b c d => ⟨rotWord_append a b c d, subWord_append a b c d⟩, rfl⟩
  obtain rfl : w = keyWord k := funext hw
  exact ⟨keyExpansion_getElem k, blockBytes_eq_words k,
    fun i h₄ _ hi => keyWord_of_mod_eq_zero k h₄ hi,
    fun i h₄ _ hi => keyWord_of_mod_ne_zero k h₄ hi,
    fun i _ => roundKey_eq_words k i⟩

/-! ### The S-box (R63) -/

/-- SubBytes works byte by byte (R63). -/
theorem byteAt_subBytes (s : Block) {i : Nat} (hi : i < 16) :
    byteAt (subBytes s) i = sbox (byteAt s i) :=
  byteAt_blockOfFn _ i hi

/-- Bit `i` of a byte rotated right by `r` is bit `i + r` modulo 8. -/
theorem getLsbD_rotateRight_byte (b : Byte) {r i : Nat} (hr : r < 8) (hi : i < 8) :
    (b.rotateRight r).getLsbD i = b.getLsbD ((i + r) % 8) := by
  rw [BitVec.getLsbD_rotateRight, Nat.mod_eq_of_lt hr]
  by_cases h : i < 8 - r
  · rw [show (i + r) % 8 = r + i by omega]
    simp [h]
  · rw [show (i + r) % 8 = i - (8 - r) by omega]
    simp [h, hi]

/-- The affine map, bit by bit (R63). -/
theorem getLsbD_sboxAffine (b : Byte) {i : Nat} (hi : i < 8) : (sboxAffine b).getLsbD i =
    (b.getLsbD i ^^ b.getLsbD ((i + 4) % 8) ^^ b.getLsbD ((i + 5) % 8) ^^ b.getLsbD ((i + 6) % 8) ^^
      b.getLsbD ((i + 7) % 8) ^^ (0x63#8).getLsbD i) := by
  simp only [sboxAffine, BitVec.getLsbD_xor, getLsbD_rotateRight_byte, hi, Nat.reduceLT]
  rfl

/-- What the affine map of R63 takes to `y`: the linear part's inverse on `y ⊕ 0x63`. -/
def affinePreimage (y : Byte) : Byte :=
  y.rotateRight 2 ^^^ y.rotateRight 5 ^^^ y.rotateRight 7 ^^^ 0x05

theorem sboxAffine_affinePreimage : ∀ y : Byte, sboxAffine (affinePreimage y) = y := by
  decide +kernel

/-- The S-box table against R63, entry by entry: the affine map's preimage of an entry is the inverse of
the entry's index. -/
theorem gf256Mul_affinePreimage_sbox :
    ∀ b : Byte, b ≠ 0x00 → gf256Mul b (affinePreimage (sbox b)) = 0x01 := by
  decide +kernel

/-- Settles O39: the preimage of each S-box entry under the affine map is the inverse of its index. -/
theorem sboxIsInverseThenAffine : Obligations.SboxIsInverseThenAffine :=
  ⟨fun s _ hi => byteAt_subBytes s hi, by decide,
    fun b hb => ⟨affinePreimage (sbox b), gf256Mul_affinePreimage_sbox b hb,
      (sboxAffine_affinePreimage (sbox b)).symm⟩,
    fun b _ hi => getLsbD_sboxAffine b hi⟩

/-! ### The block key (R68) -/

theorem exec_ldbk_of_length_ne {p : Bytes} (hp : p.length ≠ 16) (s : State) :
    exec (.ldbk 0x00 p) s = raise .invalidKeyLength s := by
  simp [exec, execLdbk, hp]

theorem exec_ldbk_of_length_eq {p : Bytes} (hp : p.length = 16) (s : State) :
    exec (.ldbk 0x00 p) s =
      emit [] { s with key := some (deriveKey (BitVec.ofNat 128 (beNat p))) } := by
  simp [exec, execLdbk, hp]

/-- Settles O35: the loaded key is `deriveKey` of the block that the payload spells. -/
theorem blockKeyLoadRederives : Obligations.BlockKeyLoadRederives := by
  intro a p s
  refine ⟨fun ha => exec_of_argAccepted_false (i := .ldbk _ _) (beq_false_of_ne ha) s,
    fun hp => exec_ldbk_of_length_ne hp s, fun hp => ?_⟩
  exact ⟨deriveKey (BitVec.ofNat 128 (beNat p)), blockBytes_ofNat_beNat hp, rfl, rfl, rfl,
    exec_ldbk_of_length_eq hp s⟩

/-! ### The block primitive (R69) -/

theorem exec_aesenc_of_length_ne {p : Bytes} (hp : p.length ≠ 16) (s : State) :
    exec (.aesenc 0x00 p) s = raise .badOperandLength s := by
  simp [exec, execAesenc, hp]

theorem exec_aesenc_of_key_none {p : Bytes} (hp : p.length = 16) {s : State} (hk : s.key = none) :
    exec (.aesenc 0x00 p) s = raise .keyNotLoaded s := by
  simp [exec, execAesenc, hp, hk]

theorem exec_aesenc_blockBytes {s : State} {k : CipherKey} (hk : s.key = some k) (b : Block) :
    exec (.aesenc 0x00 (blockBytes b)) s = emit (blockBytes (aesEncrypt k.rk b)) s := by
  simp [exec, execAesenc, hk]

/-- Settles O36: the errors in order, and the encryption of the block whose bytes arrive. -/
theorem aesencEncryptsOneBlock : Obligations.AesencEncryptsOneBlock := fun _ _ s =>
  ⟨fun ha => exec_of_argAccepted_false (i := .aesenc _ _) (beq_false_of_ne ha) s,
    fun hp => exec_aesenc_of_length_ne hp s,
    fun hp hk => exec_aesenc_of_key_none hp hk, fun _ b hk => exec_aesenc_blockBytes hk b⟩

end Sys2Proof.Machine
end

section
/-! PROOFS. The statements about GHASH (41_ghash R70 to R77): the element 1, the hash of one block and the
command. -/

namespace Sys2Proof.Machine

/-! ### The element 1 (R70, R71) -/

/-- Bit 0 is the only bit of the element 1 (R70). -/
theorem getMsbD_one_of_pos {i : Nat} (hi : 0 < i) : (0x80#8 ++ 0#120).getMsbD i = false := by
  rw [BitVec.getMsbD_append]
  by_cases h : 8 ≤ i
  · rw [if_pos h, BitVec.getMsbD_zero]
  · rw [if_neg h]
    interval_cases i <;> rfl

/-- The element 1 is a left unit: turn 0 of the loop adds `h`, the others add nothing (R71). -/
theorem one_gfMul (h : Block) : gfMul (0x80#8 ++ 0#120) h = h := by
  have turn : gfMul (0x80#8 ++ 0#120) h =
      gfLoop (0x80#8 ++ 0#120) 127 (0 ^^^ h) (timesX h) := by
    rw [gfMul, gfLoop, if_pos (by decide)]
  have others (i : Nat) (hi : 128 - 127 ≤ i) (_ : i < 128) := getMsbD_one_of_pos hi
  rw [turn, gfLoop_of_bits_zero _ _ _ _ others (by decide)]
  exact BitVec.zero_xor

/-! ### The hash of no block and of one block (R74, R75) -/

@[simp] theorem ghashOf_nil (h : Block) : ghashOf h [] = 0 := rfl

/-- Folding in one whole block is one product (R74). -/
theorem ghashUpdate_blockBytes (acc h b : Block) :
    ghashUpdate acc h (blockBytes b) = gfMul (acc ^^^ b) h := by
  rw [ghashUpdate, length_blockBytes]
  simp only [Nat.reduceAdd, Nat.reduceDiv, pieces, List.foldl_cons, List.foldl_nil]
  rw [List.take_of_length_le (length_blockBytes b).le, blockOf_blockBytes]

/-- The hash of one block is its product by H (R75). -/
theorem ghashOf_blockBytes (h b : Block) : ghashOf h (blockBytes b) = gfMul b h :=
  (ghashUpdate_blockBytes 0 h b).trans (congrArg (gfMul · h) BitVec.zero_xor)

/-! ### The command (R77) -/

theorem exec_ghash_of_key_none {s : State} (hk : s.key = none) (p : Bytes) :
    exec (.ghash 0x00 p) s = raise .keyNotLoaded s := by
  simp [exec, execGhash, hk]

theorem exec_ghash_of_key_some {s : State} {k : CipherKey} (hk : s.key = some k) (p : Bytes) :
    exec (.ghash 0x00 p) s = emit (blockBytes (ghashOf k.h p)) s := by
  simp [exec, execGhash, hk]

/-- Under any H the empty string hashes to the zero block (R77). -/
theorem exec_ghash_nil {s : State} {k : CipherKey} (hk : s.key = some k) :
    exec (.ghash 0x00 []) s = emit (zeros 16) s := by
  rw [exec_ghash_of_key_some hk, ghashOf_nil]
  rfl

/-- The element 1 hashes to H (R77). -/
theorem exec_ghash_one {s : State} {k : CipherKey} (hk : s.key = some k) :
    exec (.ghash 0x00 (0x80 :: zeros 15)) s = emit (blockBytes k.h) s := by
  have one : 0x80 :: zeros 15 = blockBytes (0x80#8 ++ 0#120) := by decide
  rw [exec_ghash_of_key_some hk, one, ghashOf_blockBytes, one_gfMul]

/-- Settles O37: the errors in order, the hash under the loaded H, and its value at the two payloads that
R77 names. -/
theorem ghashHashesThePayload : Obligations.GhashHashesThePayload := fun _ p s =>
  ⟨fun ha => exec_of_argAccepted_false (i := .ghash _ _) (beq_false_of_ne ha) s,
    fun hk => exec_ghash_of_key_none hk p, fun _ hk => exec_ghash_of_key_some hk p,
    fun _ hk => ⟨exec_ghash_nil hk, exec_ghash_one hk⟩⟩

end Sys2Proof.Machine
end

section
/-! PROOFS. The statements about the GCM stream (42_gcm_stream R81, R82, R88 to R90): its start in either
direction, GCMFINAL and GCMABORT. -/

namespace Sys2Proof.Machine

/-! ### Policy bytes and tags (R78, R82, R89) -/

/-- Only 0x20 has no tag (R78). -/
theorem authenticates_iff {pol : Policy} : authenticates pol = true ↔ pol ≠ .encryption := by
  cases pol <;> decide

theorem policyOf_eq_none_iff_not_mem {a : Byte} :
    policyOf a = none ↔ a ∉ ([0x10, 0x20, 0x30] : Bytes) := by
  simp [policyOf_eq_none]

/-- The three policy bytes are the bytes of the three policies (R20, R78). -/
theorem mem_policyBytes_iff {a : Byte} :
    a ∈ ([0x10, 0x20, 0x30] : Bytes) ↔ ∃ pol, a = policyByte pol := by
  constructor
  · intro ha
    cases hp : policyOf a with
    | none => exact absurd ha (policyOf_eq_none_iff_not_mem.1 hp)
    | some pol => exact ⟨pol, policyOf_eq_some.1 hp⟩
  · rintro ⟨pol, rfl⟩
    cases pol <;> decide

/-- Twelve bytes spell the tag they are the bytes of (R82). -/
@[simp] theorem tagOf_beBytes (tag : Tag) : tagOf (beBytes 12 tag.toNat) = tag := by
  have hlt : tag.toNat < 256 ^ 12 := tag.isLt
  rw [tagOf, beNat_beBytes, Nat.mod_eq_of_lt hlt, BitVec.ofNat_toNat, BitVec.setWidth_eq]

/-- A GCMINIT payload begins with its nonce (R81). -/
@[simp] theorem nonceOf_beBytes_append (nonce : Nonce) (rest : Bytes) :
    nonceOf (beBytes 12 nonce.toNat ++ rest) = nonce := by
  have hsplit : (beBytes 12 nonce.toNat ++ rest).take 12 = beBytes 12 nonce.toNat :=
    List.take_left' (length_beBytes 12 _)
  exact (congrArg tagOf hsplit).trans (tagOf_beBytes nonce)

theorem tagVerdict_self (t : Tag) (d : Bool) : tagVerdict t (some t) d = some false := if_pos rfl

theorem tagVerdict_of_ne {t tin : Tag} (h : tin ≠ t) (d : Bool) :
    tagVerdict t (some tin) d = if d then some true else none := if_neg (mt Option.some.inj h)

/-! ### The start of a stream (R81, R82) -/

/-- The length of the tag field of a GCMINIT payload in either direction (R81, R82). -/
def initTagLength (dir : Direction) (pol : Policy) : Nat :=
  if dir = .decrypt then tagFieldLength pol else 0

/-- The shortest payload of GCMINIT.D, by its policy byte (R82). -/
theorem twelve_add_initTagLength_decrypt (pol : Policy) :
    12 + initTagLength .decrypt pol = if policyByte pol = 0x20 then 12 else 24 := by
  cases pol <;> rfl

/-- The expected tag that GCMINIT.D stores is as long as its field (R82). -/
theorem length_tagBytes_decrypt (pol : Policy) (tag : Tag) :
    (tagBytes (if pol = .encryption then none else some tag)).length = initTagLength .decrypt pol := by
  cases pol
  case encryption => rfl
  all_goals exact length_beBytes 12 tag.toNat

section Start
variable {dir : Direction} {pol : Policy} {a : Byte} {p : Bytes} {s : State}

theorem initStream_of_active {x : Stream} (hs : s.stream = some x) :
    initStream dir a p s = raise .streamState s := by
  simp [initStream, hs]

variable (hs : s.stream = none)
include hs

theorem initStream_of_no_policy (ha : policyOf a = none) :
    initStream dir a p s = raise .unsupportedSecurityPolicy s := by
  simp [initStream, hs, ha]

/-- With the stream IDLE and a policy, the length and the key decide (R81, R82). -/
theorem initStream_policyByte : initStream dir (policyByte pol) p s =
    if p.length < 12 + initTagLength dir pol then raise .badOperandLength s
    else withKey s fun k => emit [] { s with
      stream := some (startStream dir pol k.rk k.h (nonceOf p) (p.drop (12 + initTagLength dir pol))
        (if initTagLength dir pol = 12 then some (tagOf ((p.drop 12).take 12)) else none)) } := by
  rw [initStream, hs, policyOf_policyByte]
  rfl

theorem initStream_of_short (hp : p.length < 12 + initTagLength dir pol) :
    initStream dir (policyByte pol) p s = raise .badOperandLength s := by
  rw [initStream_policyByte hs, if_pos hp]

theorem initStream_of_no_key (hp : 12 + initTagLength dir pol ≤ p.length) (hk : s.key = none) :
    initStream dir (policyByte pol) p s = raise .keyNotLoaded s := by
  rw [initStream_policyByte hs, if_neg hp.not_gt, withKey_none hk]

/-- A payload of nonce, tag field and AAD starts the stream of the three (R81, R82). -/
theorem initStream_of_key {k : CipherKey} (hk : s.key = some k) (nonce : Nonce) {tagIn : Option Tag}
    (ht : (tagBytes tagIn).length = initTagLength dir pol) (aad : Bytes) :
    initStream dir (policyByte pol) (beBytes 12 nonce.toNat ++ (tagBytes tagIn ++ aad)) s =
      emit [] { s with stream := some (startStream dir pol k.rk k.h nonce aad tagIn) } := by
  have hdrop : (beBytes 12 nonce.toNat ++ (tagBytes tagIn ++ aad)).drop 12 = tagBytes tagIn ++ aad :=
    List.drop_left' (length_beBytes 12 _)
  have haad : (tagBytes tagIn ++ aad).drop (initTagLength dir pol) = aad := List.drop_left' ht
  have htag : (if initTagLength dir pol = 12 then some (tagOf ((tagBytes tagIn ++ aad).take 12))
      else none) = tagIn := by
    rw [← ht]
    cases tagIn with
    | none => rfl
    | some t => simp [tagBytes]
  rw [initStream_policyByte hs, if_neg (by simp [ht]), withKey_some hk, nonceOf_beBytes_append,
    ← List.drop_drop, hdrop, haad, htag]

end Start

/-- Settles O44: in the encrypt direction the payload has no tag field. -/
theorem encryptStreamStarts : Obligations.EncryptStreamStarts := by
  refine fun a p s => ⟨fun x hx => initStream_of_active hx,
    fun hs ha => initStream_of_no_policy hs (policyOf_eq_none_iff_not_mem.2 ha), fun hs ha hp => ?_,
    fun hs ha hp hk => ?_, fun pol nonce aad k hs hk => ⟨_, rfl, ?_⟩⟩
  · obtain ⟨pol, rfl⟩ := mem_policyBytes_iff.1 ha
    exact initStream_of_short hs hp
  · obtain ⟨pol, rfl⟩ := mem_policyBytes_iff.1 ha
    exact initStream_of_no_key hs hp hk
  · exact initStream_of_key hs hk nonce (tagIn := none) rfl aad

/-- Settles O45: in the decrypt direction the tag field follows the nonce where the policy
authenticates. -/
theorem decryptStreamStarts : Obligations.DecryptStreamStarts := by
  refine fun a p s => ⟨fun x hx => initStream_of_active hx,
    fun hs ha => initStream_of_no_policy hs (policyOf_eq_none_iff_not_mem.2 ha), fun hs ha hp => ?_,
    fun hs ha hp hk => ?_, fun pol nonce tag aad k hs hk => ⟨_, rfl, ?_⟩⟩
  · obtain ⟨pol, rfl⟩ := mem_policyBytes_iff.1 ha
    exact initStream_of_short hs (hp.trans_eq (twelve_add_initTagLength_decrypt pol).symm)
  · obtain ⟨pol, rfl⟩ := mem_policyBytes_iff.1 ha
    exact initStream_of_no_key hs ((twelve_add_initTagLength_decrypt pol).trans_le hp) hk
  · have hfield : (if pol = .encryption then [] else beBytes 12 tag.toNat) =
        tagBytes (if pol = .encryption then none else some tag) := by
      split <;> rfl
    rw [hfield, List.append_assoc]
    exact initStream_of_key hs hk nonce (length_tagBytes_decrypt pol tag) aad

/-! ### The end of a stream (R88, R89) -/

section Final
variable {s : State} {x : Stream} (hs : s.stream = some x)
include hs

theorem exec_gcmfinal_of_payload {p : Bytes} (hp : p ≠ []) :
    exec (.gcmfinal 0x00 p) s = raise .badOperandLength s := by
  simp [exec, execGcmfinal, hs, hp]

/-- Under 0x20 the output goes out alone (R88). -/
theorem exec_gcmfinal_of_encryption (hpol : x.pol = .encryption) :
    exec (.gcmfinal 0x00 []) s = emit (flushStream x).out (endStream s) := by
  simp [exec, execGcmfinal, hs, hpol, authenticates]

variable (hpol : x.pol ≠ .encryption)
include hpol

/-- An encrypt stream that authenticates appends its tag (R88). -/
theorem exec_gcmfinal_of_encrypt (hd : x.dir = .encrypt) : exec (.gcmfinal 0x00 []) s =
    emit ((flushStream x).out ++ beBytes 12 (streamTag (flushStream x)).toNat) (endStream s) := by
  simp [exec, execGcmfinal, hs, authenticates_iff.2 hpol, hd, tagBytes]

variable (hd : x.dir = .decrypt)
include hd

/-- A decrypt stream that authenticates emits its output where `Verify` lets it (R88, R89). -/
theorem exec_gcmfinal_of_verdict_some {mm : Bool}
    (hv : tagVerdict (streamTag (flushStream x)) x.tagIn (diag s) = some mm) :
    exec (.gcmfinal 0x00 []) s = emit (flushStream x).out { endStream s with tagmm := mm } := by
  simp [exec, execGcmfinal, hs, authenticates_iff.2 hpol, hd, hv]

/-- The output is suppressed where `Verify` does not let it out (R89). -/
theorem exec_gcmfinal_of_verdict_none
    (hv : tagVerdict (streamTag (flushStream x)) x.tagIn (diag s) = none) :
    exec (.gcmfinal 0x00 []) s = raise .invalidTag { endStream s with tagmm := false } := by
  simp [exec, execGcmfinal, hs, authenticates_iff.2 hpol, hd, hv]

end Final

/-- Settles O47: the errors in order, the two outcomes without a comparison, and the three verdicts on
the expected tag. -/
theorem streamFinalEmitsOrVerifies : Obligations.StreamFinalEmitsOrVerifies := by
  refine fun a p s => ⟨fun ha => exec_of_argAccepted_false (i := .gcmfinal _ _) (beq_false_of_ne ha) s,
    fun hs => (streamIsIndependentOfOtherCommands.2.1 p s hs).2,
    fun x hs => ⟨fun hp => exec_gcmfinal_of_payload hs hp, fun f hf => ?_⟩⟩
  obtain rfl : f = flushStream x := hf
  refine ⟨fun hpol => exec_gcmfinal_of_encryption hs hpol,
    fun hpol hd => exec_gcmfinal_of_encrypt hs hpol hd, fun hpol hd ht => ?_,
    fun tin hpol hd ht hne hdiag => ?_, fun tin hpol hd ht hne hdiag => ?_⟩
  · exact exec_gcmfinal_of_verdict_some hs hpol hd (by rw [ht, tagVerdict_self])
  · exact exec_gcmfinal_of_verdict_some hs hpol hd <| by
      rw [ht, tagVerdict_of_ne hne, diag, hdiag, if_pos rfl]
  · exact exec_gcmfinal_of_verdict_none hs hpol hd <| by
      rw [ht, tagVerdict_of_ne hne, diag, hdiag, if_neg Bool.false_ne_true]

/-! ### GCMABORT (R90) -/

theorem exec_gcmabort_of_payload {p : Bytes} (hp : p ≠ []) (s : State) :
    exec (.gcmabort 0x00 p) s = raise .badOperandLength s := by
  simp [exec, execGcmabort, hp]

theorem exec_gcmabort_nil (s : State) : exec (.gcmabort 0x00 []) s = emit [] (endStream s) := rfl

/-- Settles O48: the stream is discarded whether there was one or not. -/
theorem streamAbortDiscards : Obligations.StreamAbortDiscards := fun _ _ s =>
  ⟨fun ha => exec_of_argAccepted_false (i := .gcmabort _ _) (beq_false_of_ne ha) s,
    fun hp => exec_gcmabort_of_payload hp s, exec_gcmabort_nil s⟩

end Sys2Proof.Machine
end

section
/-! PROOFS. The statements about the DLMS formatter (43_dlms_formatter R91 to R97): the checks that its
commands share, the data part and the tag, the output shapes, and SECENC. -/

namespace Sys2Proof.Machine

/-! ### The shared checks (R93) -/

section Checks
variable {s : State} (p : Bytes) (f : Bytes → Option Tag → Result)

theorem withCipherCore_of_no_policy (hsp : s.sp ∉ ([0x10, 0x20, 0x30] : Bytes)) :
    withCipherCore s p f = raise .unsupportedSecurityPolicy s := by
  rw [withCipherCore, policyOf_eq_none_iff_not_mem.2 hsp]

/-- With a policy and all three keys the datapath runs, the same for every continuation (R91). -/
theorem withCipherCore_of_keys {pol : Policy} {k : CipherKey} {ak : Block} {st : Title}
    (hsp : s.sp = policyByte pol) (hk : s.key = some k) (ha : s.ak = some ak) (ht : s.st = some st)
    {d : Bytes} {t : Option Tag} (hdt : (d, t) = formatterCore .encrypt pol k ak (st ++ s.fc) p) :
    withCipherCore s p f = f d t := by
  rw [withCipherCore, hsp, policyOf_policyByte]
  dsimp only
  rw [withKeys_some hk ha ht, formatterNonce, ← hdt]

theorem withKeys_of_none (h : s.key = none ∨ s.ak = none ∨ s.st = none)
    (g : CipherKey → Block → Title → Result) : withKeys s g = raise .keyNotLoaded s := by
  rcases withKeys_cases s g with ⟨-, hg⟩ | ⟨k, ak, st, hk, ha, ht, -⟩
  · exact hg
  · simp [hk, ha, ht] at h

theorem withCipherCore_of_no_keys (hsp : s.sp ∈ ([0x10, 0x20, 0x30] : Bytes))
    (h : s.key = none ∨ s.ak = none ∨ s.st = none) :
    withCipherCore s p f = raise .keyNotLoaded s := by
  obtain ⟨pol, hpol⟩ := mem_policyBytes_iff.1 hsp
  rw [withCipherCore, hpol, policyOf_policyByte]
  exact withKeys_of_none h _

/-- Where all checks pass there is one data part and one tag for every continuation (R91, R92). -/
theorem exists_cipherCore (hsp : s.sp ∈ ([0x10, 0x20, 0x30] : Bytes)) (hk : s.key ≠ none)
    (ha : s.ak ≠ none) (ht : s.st ≠ none) : ∃ d t, ∀ f, withCipherCore s p f = f d t := by
  obtain ⟨pol, hpol⟩ := mem_policyBytes_iff.1 hsp
  obtain ⟨k, hk⟩ := Option.ne_none_iff_exists'.1 hk
  obtain ⟨ak, ha⟩ := Option.ne_none_iff_exists'.1 ha
  obtain ⟨st, ht⟩ := Option.ne_none_iff_exists'.1 ht
  exact ⟨_, _, fun f => withCipherCore_of_keys p f hpol hk ha ht rfl⟩

end Checks

/-! ### CIPHER.PACKET (R93) -/

/-- CIPHER.PACKET is the shared checks and then the envelope (R93). -/
theorem exec_cipherPacket (ct : Byte) (p : Bytes) (s : State) : exec (.cipherPacket ct p) s =
    withCipherCore s p fun d t => emit (packetOf s ct d t) s := rfl

/-- The envelope, written from its body (R57). -/
theorem packetOf_eq (s : State) (ct : Byte) (d : Bytes) (t : Option Tag) {body : Bytes}
    (hbody : body = [s.sp] ++ beBytes 4 s.fc.toNat ++ d ++ tagBytes t) :
    packetOf s ct d t = [ct] ++ countEnc body.length ++ body := by
  subst hbody
  rfl

/-- Settles O53: the two errors of the shared checks, and the envelope of the computed data and tag. -/
theorem packetIsTheEnvelope : Obligations.PacketIsTheEnvelope := by
  intro ct p s
  rw [exec_cipherPacket]
  refine ⟨withCipherCore_of_no_policy p _, withCipherCore_of_no_keys p _,
    fun pol k ak st d t body hsp hk ha ht hdt hbody => ?_⟩
  rw [withCipherCore_of_keys p _ hsp hk ha ht hdt, packetOf_eq s ct d t hbody, emit_next]

/-! ### The data part and the tag (R91, R92) -/

/-- The data part is as long as the body, in either direction (R92). -/
theorem length_formatterCore_data (dir : Direction) (pol : Policy) (k : CipherKey) (ak : Block)
    (nonce : Nonce) (body : Bytes) :
    (formatterCore dir pol k ak nonce body).1.length = body.length := by
  cases pol with
  | authentication => rfl
  | encryption | authenticatedEncryption =>
    exact (length_message_out _ body rfl).trans (Nat.zero_add _)

/-- The tag has 12 bytes, and none where the policy does not authenticate (R78, R91). -/
theorem length_tagBytes_formatterCore (dir : Direction) (pol : Policy) (k : CipherKey) (ak : Block)
    (nonce : Nonce) (body : Bytes) :
    (tagBytes (formatterCore dir pol k ak nonce body).2).length =
      if pol = .encryption then 0 else 12 := by
  obtain ⟨t, ht⟩ := formatterCore_tag dir pol k ak nonce body
  rw [ht]
  cases pol with
  | encryption => rfl
  | authentication | authenticatedEncryption => exact length_beBytes 12 t.toNat

/-! ### CIPHER.TAG, CIPHER.DATA and CIPHER.DATATAG (R94, R95, R96) -/

section Shapes
variable (p : Bytes) (s : State)

theorem exec_cipherTag_zero : exec (.cipherTag 0x00 p) s =
    withCipherCore s p fun _ t => emit (tagBytes t) s := rfl

theorem exec_cipherData_zero : exec (.cipherData 0x00 p) s =
    withCipherCore s p fun d _ => emit d s := rfl

theorem exec_cipherDatatag_zero : exec (.cipherDatatag 0x00 p) s =
    withCipherCore s p fun d t => emit (d ++ tagBytes t) s := rfl

end Shapes

/-- Settles O54: each error is one of ARG or of the shared checks; with the keys loaded all three shapes
are of one computation. -/
theorem shapesEmitDataAndTag : Obligations.ShapesEmitDataAndTag := by
  intro a p s
  simp only [exec_cipherTag_zero, exec_cipherData_zero, exec_cipherDatatag_zero]
  refine ⟨fun ha => ?_, fun hsp => ?_, fun hsp hn => ?_, fun pol k ak st d t hsp hk ha ht hdt => ?_⟩
  · have refused {i : Instr} (h : i.argAccepted = (a == 0x00)) : exec i s = raise .illegalCommand s :=
      exec_of_argAccepted_false (h.trans (beq_false_of_ne ha)) s
    exact ⟨refused rfl, refused rfl, refused rfl⟩
  · simp only [withCipherCore_of_no_policy p _ hsp, raise_next, and_self]
  · simp only [withCipherCore_of_no_keys p _ hsp hn, raise_next, and_self]
  · obtain ⟨rfl, rfl⟩ := Prod.ext_iff.1 hdt
    refine ⟨length_formatterCore_data .., length_tagBytes_formatterCore .., ?_, ?_⟩
    · rintro rfl
      rfl
    · simp only [withCipherCore_of_keys p _ hsp hk ha ht hdt, emit_next, and_self]

/-! ### SECENC (R97) -/

section Secenc
variable {ct : Byte} {s : State} (p : Bytes)

/-- SECENC leaves alone what is not to be ciphered (R97). -/
theorem exec_secenc_of_not_ciphersWith (h : s.sp = 0x00 ∨ ct ∈ associationTags) :
    exec (.secenc ct p) s = emit p s := if_pos h

/-- Otherwise SECENC is the shared checks, the check of the counter, and the envelope with FC + 1
(R97). -/
theorem exec_secenc_of_ciphersWith (h : ciphersWith s ct) : exec (.secenc ct p) s =
    withCipherCore s p fun d t =>
      if s.fc = 0xFFFFFFFF ∧ Config.fcOverflow = .fault then raise .counterExhausted s
      else emit (packetOf s ct d t) { s with fc := s.fc + 1 } :=
  if_neg (not_or.2 h)

end Secenc

/-- AARQ and AARE are the association tags (R55). -/
theorem mem_associationTags {ct : Byte} : ct ∈ associationTags ↔ ct = 0x60 ∨ ct = 0x61 := by
  simp [associationTags]

/-- Settles O55: after the shared checks SECENC and CIPHER.PACKET have the same data part and tag, and
the counter decides between the error and the packet with FC + 1. -/
theorem secencCiphersThenIncrements : Obligations.SecencCiphersThenIncrements := by
  refine fun ct p s => ⟨fun h => exec_secenc_of_not_ciphersWith p (h.imp_right mem_associationTags.2),
    fun hsp h60 h61 => ?_⟩
  have hc : ciphersWith s ct := ⟨hsp, fun h => (mem_associationTags.1 h).elim h60 h61⟩
  rw [exec_secenc_of_ciphersWith p hc]
  refine ⟨withCipherCore_of_no_policy p _, withCipherCore_of_no_keys p _, fun hpol hk ha ht => ?_⟩
  obtain ⟨d, t, hcore⟩ := exists_cipherCore p hpol hk ha ht
  rw [exec_cipherPacket, hcore, hcore]
  refine ⟨fun hfc hfault => if_pos ⟨hfc, hfault⟩, fun hgo => ⟨packetOf s ct d t, rfl, if_neg ?_⟩⟩
  rintro ⟨hfc, hfault⟩
  rcases hgo with hne | hwrap
  · exact hne hfc
  · exact absurd (hfault.symm.trans hwrap) nofun

end Sys2Proof.Machine
end

section
/-! PROOFS. The statements about the configuration commands (44_config R106 to R113): what each loads, what
RDREG answers, and their errors in order. -/

namespace Sys2Proof.Machine

/-! ### A refused LEN -/

/-- The error by which a configuration command refuses a LEN (R106 to R113); none for the other
commands. -/
def configLengthError : Instr → Option ErrCode
  | .ldak _ _ | .ldst _ _ => some .invalidKeyLength
  | .nop _ _ | .ldfc _ _ | .ldsp _ _ | .ldctrl _ _ | .rdreg _ _ | .reset _ _ => some .badOperandLength
  | .ldbk _ _ | .aesenc _ _ | .ghash _ _ | .gcminitE _ _ | .gcminitD _ _ | .gcmwrite _ _
  | .gcmfinal _ _ | .gcmabort _ _ | .cipherPacket _ _ | .cipherTag _ _ | .cipherData _ _
  | .cipherDatatag _ _ | .secenc _ _ | .decipher _ _ => none

/-- A configuration command judges LEN when its ARG is accepted (R122), and changes nothing else. -/
theorem exec_of_lengthAccepted_false {i : Instr} {e : ErrCode} (hi : configLengthError i = some e)
    (harg : i.argAccepted = true) (hlen : i.lengthAccepted = false) (s : State) :
    exec i s = raise e s := by
  cases i with
  | nop a p | ldak a p | ldst a p | ldfc a p | reset a p =>
    cases hi
    have ha : ¬ a ≠ 0x00 := not_not.2 (beq_iff_eq.1 harg)
    exact (if_neg ha).trans (if_pos (beq_eq_false_iff_ne.1 hlen))
  | ldctrl a p =>
    cases hi
    have ha : ¬ a &&& 0xFE ≠ 0x00 := not_not.2 (beq_iff_eq.1 harg)
    exact (if_neg ha).trans (if_pos (beq_eq_false_iff_ne.1 hlen))
  | rdreg a p =>
    cases hi
    have ha : ¬ 6 < a.toNat := Nat.not_lt.2 (of_decide_eq_true harg)
    exact (if_neg ha).trans (if_pos (beq_eq_false_iff_ne.1 hlen))
  | ldsp a p =>
    cases hi
    exact if_pos (beq_eq_false_iff_ne.1 hlen)
  | ldbk | aesenc | ghash | gcminitE | gcminitD | gcmwrite | gcmfinal | gcmabort | cipherPacket
  | cipherTag | cipherData | cipherDatatag | secenc | decipher => cases hi

/-- A payload where R53 has LEN = 0. -/
theorem length_beq_zero_of_ne_nil {p : Bytes} (hp : p ≠ []) : (p.length == 0) = false :=
  beq_false_of_ne (mt List.length_eq_zero_iff.1 hp)

/-- A string of `n` bytes spells a number that a register of `n` bytes holds (R8). -/
theorem toNat_ofNat_beNat {p : Bytes} {n : Nat} (hp : p.length = n) :
    (BitVec.ofNat (8 * n) (beNat p)).toNat = beNat p := by
  have hlt := beNat_lt p
  rw [hp, ← two_pow_eight_mul] at hlt
  exact Nat.mod_eq_of_lt hlt

/-- A string of `n` bytes is the bytes of the register value it loads (R8). -/
theorem beBytes_toNat_ofNat_beNat {p : Bytes} {n : Nat} (hp : p.length = n) :
    beBytes n (BitVec.ofNat (8 * n) (beNat p)).toNat = p := by
  rw [toNat_ofNat_beNat hp, beBytes_beNat_of_length hp]

/-! ### NOP, LDAK and LDST (R106 to R108) -/

theorem exec_nop_nil (s : State) : exec (.nop 0x00 []) s = emit [] { s with tagmm := false } := rfl

/-- Settles O27: the errors of ARG and LEN, and TAGMM cleared. -/
theorem nopClearsTheTagMismatchFlag : Obligations.NopClearsTheTagMismatchFlag := fun _ _ s =>
  ⟨fun ha => exec_of_argAccepted_false (i := .nop _ _) (beq_false_of_ne ha) s,
    fun hp => exec_of_lengthAccepted_false (i := .nop _ _) rfl rfl (length_beq_zero_of_ne_nil hp) s,
    exec_nop_nil s⟩

theorem exec_ldak_of_length_eq {p : Bytes} (hp : p.length = 16) (s : State) :
    exec (.ldak 0x00 p) s = emit [] { s with ak := some (BitVec.ofNat 128 (beNat p)) } := by
  simp [exec, execLdak, hp]

theorem exec_ldst_of_length_eq {p : Bytes} (hp : p.length = 8) (s : State) :
    exec (.ldst 0x00 p) s = emit [] { s with st := some (BitVec.ofNat 64 (beNat p)) } := by
  simp [exec, execLdst, hp]

/-- Settles O28: the loaded key and title are those whose bytes the payload is. -/
theorem authenticationKeyAndTitleLoad : Obligations.AuthenticationKeyAndTitleLoad := by
  refine fun a p s => ⟨fun ha => ⟨?_, ?_⟩, fun hp => ?_, fun hp => ?_,
    fun hp => ⟨_, blockBytes_ofNat_beNat hp, exec_ldak_of_length_eq hp s⟩,
    fun hp => ⟨_, beBytes_toNat_ofNat_beNat hp, exec_ldst_of_length_eq hp s⟩⟩
  · exact exec_of_argAccepted_false (i := .ldak _ _) (beq_false_of_ne ha) s
  · exact exec_of_argAccepted_false (i := .ldst _ _) (beq_false_of_ne ha) s
  · exact exec_of_lengthAccepted_false (i := .ldak _ _) rfl rfl (beq_false_of_ne hp) s
  · exact exec_of_lengthAccepted_false (i := .ldst _ _) rfl rfl (beq_false_of_ne hp) s

/-! ### FC and SP (R109, R110) -/

theorem exec_ldfc_of_length_eq {p : Bytes} (hp : p.length = 4) (s : State) :
    exec (.ldfc 0x00 p) s = emit [] { s with fc := BitVec.ofNat 32 (beNat p) } := by
  simp [exec, execLdfc, hp]

/-- Settles O29: FC is the number that the payload spells, so its bytes are the payload's. -/
theorem frameCounterLoadsAndReadsBack : Obligations.FrameCounterLoadsAndReadsBack :=
  fun _ _ s =>
    ⟨fun ha => exec_of_argAccepted_false (i := .ldfc _ _) (beq_false_of_ne ha) s,
      fun hp => exec_of_lengthAccepted_false (i := .ldfc _ _) rfl rfl (beq_false_of_ne hp) s,
      fun hp => ⟨_, toNat_ofNat_beNat hp, exec_ldfc_of_length_eq hp s,
        exec_rdreg_of_some (by decide) (congrArg some (beBytes_ofNat_beNat hp))⟩⟩

theorem exec_ldsp_nil (a : Byte) (s : State) : exec (.ldsp a []) s = emit [] { s with sp := a } := rfl

/-- Bit 5 of STATUS is CIPHERED (R23). -/
theorem getLsbD_statusWord_five (s : State) : (statusWord s).getLsbD 5 = ciphered s := by
  simp only [statusWord, BitVec.getLsbD_append]
  simp

theorem ciphered_iff {s : State} : ciphered s = true ↔ s.sp ≠ 0x00 := bne_iff_ne

/-- Settles O30: SP is ARG, which CIPHERED and RDREG 0 then read. -/
theorem policyByteRoundTrips : Obligations.PolicyByteRoundTrips := by
  refine fun a p s =>
    ⟨fun hp => exec_of_lengthAccepted_false (i := .ldsp _ _) rfl rfl (length_beq_zero_of_ne_nil hp) s,
      _, rfl, exec_ldsp_nil a s, ?_, exec_rdreg_of_some (by decide) rfl⟩
  rw [getLsbD_statusWord_five, ciphered_iff, complete_sp]

/-! ### CTRL and RESET (R111, R113) -/

theorem exec_ldctrl_nil {a : Byte} (ha : a &&& 0xFE = 0x00) (s : State) :
    exec (.ldctrl a []) s = emit [] { s with ctrl := a } := if_neg (not_not.2 ha)

/-- Settles O31: the reserved bits of ARG are judged first, then LEN. -/
theorem controlLoadRefusesReservedBits : Obligations.ControlLoadRefusesReservedBits := fun _ _ s =>
  ⟨fun ha => exec_of_argAccepted_false (i := .ldctrl _ _) (beq_false_of_ne ha) s,
    fun ha hp => exec_of_lengthAccepted_false (i := .ldctrl _ _) rfl (beq_iff_eq.2 ha)
      (length_beq_zero_of_ne_nil hp) s,
    fun ha => exec_ldctrl_nil ha s⟩

theorem exec_reset_nil (s : State) : exec (.reset 0x00 []) s = emit [] (softReset s) := rfl

/-- Settles O34: RESET is the soft reset, which writes SP and FC alone. -/
theorem softResetKeepsKeysAndStream : Obligations.SoftResetKeepsKeysAndStream := fun _ _ s =>
  ⟨fun ha => exec_of_argAccepted_false (i := .reset _ _) (beq_false_of_ne ha) s,
    fun hp => exec_of_lengthAccepted_false (i := .reset _ _) rfl rfl (length_beq_zero_of_ne_nil hp) s,
    exec_reset_nil s⟩

/-! ### Register reads (R112) -/

/-- RDREG of a register that holds no value (R112). -/
theorem exec_rdreg_of_none {s : State} {a : Byte} (ha : a.toNat ≤ 6)
    (hb : registerBytes s a.toNat = none) : exec (.rdreg a []) s = raise .keyNotLoaded s := by
  simp [exec, execRdreg, hb, Nat.not_lt.2 ha]

/-- Register 6 is ST, if it holds a value (R27). -/
theorem registerBytes_six (s : State) :
    registerBytes s (0x06 : Byte).toNat = s.st.map fun t => beBytes 8 t.toNat := rfl

/-- Settles O32: RDREG answers `registerBytes`, whose one register that may hold no value is ST. -/
theorem registerReads : Obligations.RegisterReads := by
  refine fun n p s => ⟨fun hn => ?_, fun hn hp => ?_, exec_rdreg_of_some (by decide) rfl,
    exec_rdreg_of_some (by decide) rfl, exec_rdreg_of_some (by decide) rfl,
    exec_rdreg_of_some (by decide) rfl, exec_rdreg_of_some (by decide) rfl,
    exec_rdreg_of_some (by decide) rfl, fun t ht => ?_, fun ht => ?_⟩
  · exact exec_of_argAccepted_false (i := .rdreg _ _) (decide_eq_false (Nat.not_le.2 hn)) s
  · exact exec_of_lengthAccepted_false (i := .rdreg _ _) rfl (decide_eq_true hn)
      (length_beq_zero_of_ne_nil hp) s
  · exact exec_rdreg_of_some (by decide) (by rw [registerBytes_six, ht, Option.map_some])
  · exact exec_rdreg_of_none (by decide) (by rw [registerBytes_six, ht, Option.map_none])

end Sys2Proof.Machine
end

section
/-! PROOFS. The statement about failed commands (60_exceptions R123, R124): what a command that ends with an
error leaves changed. -/

namespace Sys2Proof.Machine

/-- The effects that end with an error are the three cases of R124. -/
theorem Effect.failure_cases {i : Instr} {s s' : State} {e : ErrCode} (h : Effect i s e s')
    (hne : e ≠ .ok) :
    ((∃ a p, i = .gcmwrite a p) ∧ e = .lengthLimit ∧ s' = endStream s) ∨
      ((∃ a p, i = .gcmfinal a p) ∧ e = .invalidTag ∧ s' = { endStream s with tagmm := false }) ∨
      ((∃ a p, i = .decipher a p) ∧ e = .invalidTag ∧ s' = { s with tagmm := false }) := by
  cases i with
  | gcmwrite a p =>
    obtain ⟨-, -, ⟨he, hs'⟩ | ⟨hok, -⟩⟩ := h
    · exact .inl ⟨⟨a, p, rfl⟩, he, hs'⟩
    · exact absurd hok hne
  | gcmfinal a p =>
    obtain ⟨-, -, ⟨hok, -⟩ | ⟨-, -, ⟨hok, -⟩ | ⟨hok, -⟩ | ⟨he, -, -, hs'⟩⟩⟩ := h
    · exact absurd hok hne
    · exact absurd hok hne
    · exact absurd hok hne
    · exact .inr (.inl ⟨⟨a, p, rfl⟩, he, hs'⟩)
  | decipher a p =>
    obtain ⟨-, -, -, -, ⟨hok, -⟩ | ⟨-, ⟨hok, -⟩ | ⟨hok, -⟩ | ⟨he, -, hs'⟩⟩⟩ := h
    · exact absurd hok hne
    · exact absurd hok hne
    · exact absurd hok hne
    · exact .inr (.inr ⟨⟨a, p, rfl⟩, he, hs'⟩)
  | nop | ldbk | ldak | ldst | ldfc | ldsp | ldctrl | rdreg | reset | aesenc | ghash | gcminitE
  | gcminitD | gcmabort | cipherPacket | cipherTag | cipherData | cipherDatatag | secenc =>
    exact absurd h.1 hne

/-- A command that fails emits nothing, and either changes STATUS.ERR alone or fails after an effect
(R123). -/
theorem failure_of_exec_ne_ok {i : Instr} {s t : State} (h : exec i s = .next t)
    (hne : t.err ≠ .ok) :
    ∃ (e : ErrCode) (s' : State), e ≠ .ok ∧ t = s'.complete e [] ∧
      ((CleanFailure e ∧ s' = s) ∨ Effect i s e s') := by
  obtain ⟨e, out, s', hn, hout, hs⟩ := exec_effect i s
  obtain rfl : s'.complete e out = t := by rw [hn] at h; injection h
  obtain rfl : out = [] := hout hne
  exact ⟨e, s', hne, rfl, hs⟩

/-- Settles O14: a failed command fails cleanly or in one of the three cases of R124, which the command
and its error tell apart. -/
theorem failedCommandsChangeOnlyErr : Obligations.FailedCommandsChangeOnlyErr := by
  intro i s t h hne
  obtain ⟨e, s', hne, rfl, ⟨⟨-, hlimit, htag⟩, rfl⟩ | he⟩ := failure_of_exec_ne_ok h hne
  · exact ⟨fun _ _ _ hl => absurd hl hlimit, fun _ _ _ ht => absurd ht htag,
      fun _ _ _ ht => absurd ht htag, fun _ _ => rfl, fun hl => absurd hl hlimit,
      fun ht => absurd ht htag⟩
  · obtain ⟨⟨a, p, rfl⟩, rfl, rfl⟩ | ⟨⟨a, p, rfl⟩, rfl, rfl⟩ | ⟨⟨a, p, rfl⟩, rfl, rfl⟩ :=
      he.failure_cases hne
    · exact ⟨fun _ _ _ _ => rfl, nofun, nofun, fun hl _ => absurd rfl hl, fun _ => ⟨a, p, rfl⟩, nofun⟩
    · exact ⟨nofun, fun _ _ _ _ => rfl, nofun, fun _ ht => absurd rfl ht, nofun,
        fun _ => .inl ⟨a, p, rfl⟩⟩
    · exact ⟨nofun, nofun, fun _ _ _ _ => rfl, fun _ ht => absurd rfl ht, nofun,
        fun _ => .inr ⟨a, p, rfl⟩⟩

end Sys2Proof.Machine
end

section
/-! PROOFS. The invariants of every step (10_state R22, R26, R30): what a step can do, what each command's
effect keeps, and the values after reset. -/

namespace Sys2Proof.Machine

/-! ### What the decoder reads (R51, R52) -/

/-- A command that the decoder reads is encodable, and its encoding stands at the front of the bytes. -/
theorem encode_append_of_decode_eq_ok {bs rest : Bytes} {i : Instr} (h : decode bs = .ok (i, rest)) :
    i.encodable = true ∧ bs = encode i ++ rest := by
  unfold decode at h
  split at h
  · rename_i opc arg hi lo tail
    dsimp only at h
    split at h
    · cases h
    rename_i hlen
    split at h
    · rename_i hinstr
      cases h
      obtain ⟨rfl, rfl, hp⟩ := instrOf_eq_some hinstr
      have hlt : beNat [hi, lo] < 256 ^ 2 := beNat_lt [hi, lo]
      have hl : i.payload.length = beNat [hi, lo] := by
        rw [hp, List.length_take, Nat.min_eq_left (Nat.not_lt.1 hlen)]
      have hfield : beBytes 2 (beNat [hi, lo]) = [hi, lo] := beBytes_beNat [hi, lo]
      refine ⟨decide_eq_true (by omega), ?_⟩
      rw [encode, hl, hfield, hp]
      simp
    · cases h
  · cases h

/-- Settles O2: the LEN field is the length of the payload that is cut off behind it. -/
theorem decodedBytesAreTheEncoding : Obligations.DecodedBytesAreTheEncoding :=
  fun _ _ _ h => encode_append_of_decode_eq_ok h

/-! ### What a step can do (R45, R54, R138, R146) -/

/-- A whole command's bytes wait, are refused, or run a command that LEN can express (R54). -/
theorem runCommand_cases (bs : Bytes) (s : State) :
    runCommand bs s = .next s ∨ runCommand bs s = raise .illegalCommand s ∨
      ∃ i : Instr, i.encodable = true ∧ runCommand bs s = exec i s := by
  unfold runCommand
  split
  · rename_i i rest h
    exact .inr (.inr ⟨i, (encode_append_of_decode_eq_ok h).1, rfl⟩)
  · exact .inr (.inl rfl)
  · exact .inl rfl

/-- A step takes a hardware reset, or from the state with other ports it waits, refuses an undefined opcode
or runs a command that LEN can express. -/
theorem step_cases (s : State) : ∃ (rest : List Input) (n : Nat),
    step s = .next (hardwareReset { s with resetRaces := n } rest) ∨
      step s = .next { s with port := rest, resetRaces := n } ∨
      step s = raise .illegalCommand { s with port := rest, resetRaces := n } ∨
      ∃ i : Instr, i.encodable = true ∧ step s = exec i { s with port := rest, resetRaces := n } := by
  unfold step
  split
  · exact ⟨s.port, s.resetRaces, .inr (.inl rfl)⟩
  · rename_i rest _
    exact ⟨rest, s.resetRaces, .inl rfl⟩
  · rename_i bs rest _
    unfold runArrived
    split
    · rename_i rest' _
      split
      · exact ⟨rest', s.resetRaces + 1, .inl rfl⟩
      · exact ⟨_, _, .inr (runCommand_cases bs _)⟩
    · exact ⟨_, _, .inr (runCommand_cases bs { s with port := rest })⟩

/-- What reset establishes, what does not look at the ports, the outcome or the responses, and what every
effect of a command that LEN can express keeps, every step keeps. -/
theorem step_keeps {P : State → Prop} (hreset : ∀ s rest, P (hardwareReset s rest))
    (hports : ∀ (s : State) rest n, P s → P { s with port := rest, resetRaces := n })
    (hcomplete : ∀ (s : State) e out, P s → P (s.complete e out))
    (heffect : ∀ (i : Instr) (s s' : State) (e : ErrCode), i.encodable = true → P s →
      Effect i s e s' → P s')
    {s t : State} (hs : P s) (h : step s = .next t) : P t := by
  obtain ⟨rest, n, hstep⟩ := step_cases s
  have hs := hports s rest n hs
  rcases hstep with hstep | hstep | hstep | ⟨i, hi, hstep⟩ <;> rw [hstep] at h
  · cases h
    exact hreset _ _
  · cases h
    exact hs
  · cases h
    exact hcomplete _ _ _ hs
  · obtain ⟨e, out, s', hn, -, heff⟩ := exec_effect i { s with port := rest, resetRaces := n }
    rw [hn] at h
    cases h
    refine hcomplete _ _ _ ?_
    rcases heff with ⟨-, rfl⟩ | heff
    · exact hs
    · exact heffect i _ _ _ hi hs heff

/-! ### The block key and what derives from it (R26, R50) -/

theorem derivedFromKey_deriveKey (bk : Block) : derivedFromKey (deriveKey bk) := ⟨rfl, rfl, rfl⟩

/-- Of all effects LDBK's alone writes the block key, and LDCTRL's alone CTRL, with no reserved bit (R26,
R111). -/
theorem Effect.key_ctrl_cases {i : Instr} {s s' : State} {e : ErrCode} (h : Effect i s e s') :
    (s'.key = s.key ∨ ∃ bk, s'.key = some (deriveKey bk)) ∧
      (s'.ctrl = s.ctrl ∨ ctrlReservedZero s') := by
  cases i with
  | ldbk a p =>
    obtain ⟨-, rfl⟩ := h
    exact ⟨.inr ⟨_, rfl⟩, .inl rfl⟩
  | ldctrl =>
    obtain ⟨-, ha, rfl⟩ := h
    exact ⟨.inl rfl, .inr ha⟩
  | nop | ldak | ldst | ldsp | reset | rdreg | aesenc | ghash | cipherPacket | cipherTag
  | cipherData | cipherDatatag | gcmabort =>
    obtain ⟨-, rfl⟩ := h
    exact ⟨.inl rfl, .inl rfl⟩
  | ldfc =>
    obtain ⟨-, -, rfl⟩ := h
    exact ⟨.inl rfl, .inl rfl⟩
  | gcminitE | gcminitD =>
    obtain ⟨-, -, _, _, -, -, -, rfl⟩ := h
    exact ⟨.inl rfl, .inl rfl⟩
  | gcmwrite =>
    obtain ⟨_, -, ⟨-, rfl⟩ | ⟨-, -, -, rfl⟩⟩ := h <;> exact ⟨.inl rfl, .inl rfl⟩
  | gcmfinal =>
    obtain ⟨_, -, ⟨-, -, rfl⟩ | ⟨-, -, ⟨-, -, rfl⟩ | ⟨-, -, -, rfl⟩ | ⟨-, -, -, rfl⟩⟩⟩ := h <;>
      exact ⟨.inl rfl, .inl rfl⟩
  | secenc =>
    obtain ⟨-, ⟨-, rfl⟩ | ⟨-, -, rfl⟩⟩ := h <;> exact ⟨.inl rfl, .inl rfl⟩
  | decipher =>
    obtain ⟨_, _, -, -, ⟨-, -, rfl⟩ | ⟨-, ⟨-, rfl⟩ | ⟨-, -, rfl⟩ | ⟨-, -, rfl⟩⟩⟩ := h <;>
      exact ⟨.inl rfl, .inl rfl⟩

theorem Effect.keeps_keyDerived {i : Instr} {s s' : State} {e : ErrCode} (h : Effect i s e s')
    (hs : keyDerived s) : keyDerived s' := by
  intro k hk
  rcases h.key_ctrl_cases.1 with hkey | ⟨bk, hkey⟩
  · exact hs k (hkey ▸ hk)
  · obtain rfl : deriveKey bk = k := Option.some.inj (hkey.symm.trans hk)
    exact derivedFromKey_deriveKey bk

theorem keyDerived_hardwareReset (s : State) (rest : List Input) :
    keyDerived (hardwareReset s rest) := fun _ => nofun

/-- Settles O23: LDBK, the one writer of the block key, derives RK, H and M from what it writes. -/
theorem derivedKeyMaterialIsNeverStale : Obligations.DerivedKeyMaterialIsNeverStale := fun _ _ =>
  step_keeps keyDerived_hardwareReset (fun _ _ _ hs => hs) (fun _ _ _ hs => hs)
    fun _ _ _ _ _ hs he => he.keeps_keyDerived hs

/-! ### The reserved bits of CTRL (R22) -/

theorem Effect.keeps_ctrlReservedZero {i : Instr} {s s' : State} {e : ErrCode} (h : Effect i s e s')
    (hs : ctrlReservedZero s) : ctrlReservedZero s' := by
  rcases h.key_ctrl_cases.2 with hctrl | hzero
  · rwa [ctrlReservedZero, hctrl]
  · exact hzero

theorem ctrlReservedZero_hardwareReset (s : State) (rest : List Input) :
    ctrlReservedZero (hardwareReset s rest) := by
  rw [ctrlReservedZero, hardwareReset_ctrl]
  decide

/-- Settles O22: LDCTRL, the one writer of CTRL, takes no byte with a reserved bit. -/
theorem reservedControlBitsStayZero : Obligations.ReservedControlBitsStayZero := fun _ _ =>
  step_keeps ctrlReservedZero_hardwareReset (fun _ _ _ hs => hs) (fun _ _ _ hs => hs)
    fun _ _ _ _ _ hs he => he.keeps_ctrlReservedZero hs

/-! ### The stream (R28, R30, R85) -/

/-- An effect ends the stream, keeps it, starts one from the loaded keys or writes to it within the limits
(R29, R81, R82, R84). -/
theorem Effect.stream_cases {i : Instr} {s s' : State} {e : ErrCode} (h : Effect i s e s') :
    s'.stream = none ∨ s'.stream = s.stream ∨
      (∃ (dir : Direction) (pol : Policy) (k : CipherKey) (nonce : Nonce) (n : Nat) (tagIn : Option Tag),
        s.key = some k ∧ 12 ≤ n ∧ tagIn.isSome = (dir == .decrypt && authenticates pol) ∧
        s'.stream = some (startStream dir pol k.rk k.h nonce (i.payload.drop n) tagIn)) ∨
      ∃ x, s.stream = some x ∧ x.lenC + i.payload.length ≤ Config.outbufCap ∧
        (x.pol ≠ .authentication →
          x.nblk + ((x.buf ++ i.payload).length + 15) / 16 ≤ 2 ^ 32 - 2) ∧
        s'.stream = some (writeStream x i.payload) := by
  cases i with
  | gcminitE a p =>
    obtain ⟨-, -, pol, k, -, hk, -, rfl⟩ := h
    exact .inr (.inr (.inl ⟨_, pol, k, _, 12, none, hk, le_rfl, rfl, rfl⟩))
  | gcminitD a p =>
    obtain ⟨-, -, pol, k, -, hk, -, rfl⟩ := h
    refine .inr (.inr (.inl ⟨_, pol, k, _, _, _, hk, Nat.le_add_right 12 _, ?_, rfl⟩))
    cases pol <;> rfl
  | gcmwrite a p =>
    obtain ⟨x, hx, ⟨-, rfl⟩ | ⟨-, hc, hn, rfl⟩⟩ := h
    · exact .inl rfl
    · exact .inr (.inr (.inr ⟨x, hx, hc, hn, rfl⟩))
  | gcmfinal =>
    obtain ⟨_, -, ⟨-, -, rfl⟩ | ⟨-, -, ⟨-, -, rfl⟩ | ⟨-, -, -, rfl⟩ | ⟨-, -, -, rfl⟩⟩⟩ := h <;>
      exact .inl rfl
  | gcmabort =>
    obtain ⟨-, rfl⟩ := h
    exact .inl rfl
  | nop | ldbk | ldak | ldst | ldsp | reset | rdreg | aesenc | ghash | cipherPacket | cipherTag
  | cipherData | cipherDatatag =>
    obtain ⟨-, rfl⟩ := h
    exact .inr (.inl rfl)
  | ldfc | ldctrl =>
    obtain ⟨-, -, rfl⟩ := h
    exact .inr (.inl rfl)
  | secenc =>
    obtain ⟨-, ⟨-, rfl⟩ | ⟨-, -, rfl⟩⟩ := h <;> exact .inr (.inl rfl)
  | decipher =>
    obtain ⟨_, _, -, -, ⟨-, -, rfl⟩ | ⟨-, ⟨-, rfl⟩ | ⟨-, -, rfl⟩ | ⟨-, -, rfl⟩⟩⟩ := h <;>
      exact .inr (.inl rfl)

/-- The AAD of a GCMINIT that LEN can express is within the limit of R85. -/
theorem length_drop_payload_le {i : Instr} (hi : i.encodable = true) {n : Nat} (hn : 12 ≤ n) :
    (i.payload.drop n).length ≤ 65523 := by
  have hp : i.payload.length ≤ 65535 := of_decide_eq_true hi
  rw [List.length_drop]
  omega

theorem Effect.keeps_streamInvariant {i : Instr} {s s' : State} {e : ErrCode} (h : Effect i s e s')
    (hi : i.encodable = true) (hk : keyDerived s) (hs : streamInvariant s) : streamInvariant s' := by
  intro t ht
  rcases h.stream_cases with hend | hkept | ⟨dir, pol, k, nonce, n, tagIn, hkey, hn, htag, hstart⟩ |
    ⟨x, hx, hc, hn, hwrite⟩
  · exact absurd (hend.symm.trans ht) nofun
  · exact hs t (hkept ▸ ht)
  · obtain rfl := Option.some.inj (hstart.symm.trans ht)
    exact startStream_sound dir pol k (hk k hkey) nonce _ tagIn (length_drop_payload_le hi hn) htag
  · obtain rfl := Option.some.inj (hwrite.symm.trans ht)
    exact writeStream_sound (hs x hx) _ hc hn

theorem streamInvariant_hardwareReset (s : State) (rest : List Input) :
    streamInvariant (hardwareReset s rest) := fun _ => nofun

/-- Settles O24: with the derived keys beside it the stream's invariant is inductive. -/
theorem streamInvariantsHoldAfterEveryStep : Obligations.StreamInvariantsHoldAfterEveryStep :=
  fun _ _ hk hs h =>
    (step_keeps (P := fun s => keyDerived s ∧ streamInvariant s)
      (fun s rest => ⟨keyDerived_hardwareReset s rest, streamInvariant_hardwareReset s rest⟩)
      (fun _ _ _ hs => hs) (fun _ _ _ hs => hs)
      (fun _ _ _ _ hi hs he =>
        ⟨he.keeps_keyDerived hs.1, he.keeps_streamInvariant hi hs.1 hs.2⟩) ⟨hk, hs⟩ h).2

/-- Settles O11: CTRL is zero after reset, and there is neither a key nor a stream. -/
theorem resetMeetsTheInvariants : Obligations.ResetMeetsTheInvariants :=
  ⟨ctrlReservedZero_hardwareReset .reset [], keyDerived_hardwareReset .reset [],
    streamInvariant_hardwareReset .reset []⟩

end Sys2Proof.Machine
end

section
/-! PROOFS. The statements about the engine's step (20_memory R35, R36, R45; 60_exceptions R138;
70_reset_and_hazards R146): what it does with a whole command, with the first bytes of one, and with a
hardware reset. -/

namespace Sys2Proof.Machine

/-! ### Whole commands (R35, R36, R45) -/

/-- A whole command of a listed opcode runs (R45). -/
theorem runCommand_encode {i : Instr} (hi : i.encodable = true) (s : State) :
    runCommand (encode i) s = exec i s := by
  have hp : i.payload.length ≤ 65535 := of_decide_eq_true hi
  refine (runCommand_whole i.opcode i.arg i.payload s hp).trans ?_
  rw [instrOf_opcode]

/-- Settles O7: the command that the bytes name is the one whose encoding they are. -/
theorem stepRunsTheDecodedCommand : Obligations.StepRunsTheDecodedCommand := fun i _ rest hi hrest =>
  (step_whole i.opcode i.arg i.payload rest _ (of_decide_eq_true hi) hrest rfl).trans
    (runCommand_encode hi _)

/-- Settles O13: a failure and an effect alike leave the ports and the counter as they were. -/
theorem oneResponsePerCommand : Obligations.OneResponsePerCommand := by
  intro i s
  obtain ⟨e, out, s', hn, hout, hs⟩ := exec_effect i s
  have hkept : s'.responses = s.responses ∧ s'.port = s.port ∧ s'.resetRaces = s.resetRaces := by
    rcases hs with ⟨-, rfl⟩ | he
    · exact ⟨rfl, rfl, rfl⟩
    · exact he.keeps_ports
  obtain ⟨hresp, hport, hraces⟩ := hkept
  exact ⟨s'.complete e out, ⟨e, out⟩, hn, by rw [complete_responses, hresp], rfl, hout, hport, hraces⟩

/-- Bytes of a whole command, of a listed or an undefined opcode, get one response (R36, R54). -/
theorem runCommand_whole_responds (opc arg : Byte) {p : Bytes} (hp : p.length ≤ 65535) (s : State) :
    ∃ t r, runCommand (opc :: arg :: (beBytes 2 p.length ++ p)) s = .next t ∧ t.port = s.port ∧
      t.responses = s.responses ++ [r] := by
  cases hi : instrOf opc arg p with
  | none => exact ⟨_, _, runCommand_of_instrOf_none hp hi s, rfl, rfl⟩
  | some i =>
    obtain ⟨t, r, hn, hr, -, -, hport, -⟩ := oneResponsePerCommand i s
    refine ⟨t, r, ?_, hport, hr⟩
    rw [runCommand_whole opc arg p s hp, hi]
    exact hn

/-! ### The first bytes of a command (R35, R138, R146) -/

/-- What the engine finds while the header is not whole (R35, R146). -/
theorem nextArrival_of_header {port : List Input} {r : Arrival} (h : takeBytes [] 4 port = r)
    (hr : ∀ bs rest, r ≠ .bytes bs rest) : nextArrival port = r := by
  unfold nextArrival
  split
  · exact h
  · rw [h]
    cases r with
    | waiting | reset => rfl
    | bytes bs rest => exact absurd rfl (hr bs rest)

/-- What the engine finds while the payload is not whole (R35, R146). -/
theorem nextArrival_of_payload {port rest : List Input} {header : Bytes} {r : Arrival}
    (h : takeBytes [] 4 port = .bytes header rest)
    (hrest : takeBytes [] (beNat (header.drop 2)) rest = r) (hr : ∀ bs rest, r ≠ .bytes bs rest) :
    nextArrival port = r := by
  unfold nextArrival
  split
  · cases h
  · rw [h]
    dsimp only
    rw [hrest]
    cases r with
    | waiting | reset => rfl
    | bytes bs rest => exact absurd rfl (hr bs rest)

/-- With fewer bytes of a command than it has, and `tail` behind them, the engine finds what it finds
wherever bytes are missing before `tail` (R35, R51, R146). -/
theorem nextArrival_of_prefix (opc arg : Byte) {p : Bytes} (hp : p.length ≤ 65535) {n : Nat}
    (hn : n < 4 + p.length) {tail : List Input} {r : Arrival} (hr : ∀ bs rest, r ≠ .bytes bs rest)
    (htail : ∀ (bs : Bytes) (m : Nat), bs.length < m → takeBytes [] m (bs.map .byte ++ tail) = r) :
    nextArrival (((opc :: arg :: (beBytes 2 p.length ++ p)).take n).map .byte ++ tail) = r := by
  by_cases h4 : n < 4
  · exact nextArrival_of_header (htail _ 4 (by rw [List.length_take]; omega)) hr
  · obtain ⟨m, rfl⟩ : ∃ m, n = 4 + m := ⟨n - 4, by omega⟩
    have hlen : beNat (beBytes 2 p.length) = p.length := by
      rw [beNat_beBytes]
      exact Nat.mod_eq_of_lt (by omega)
    have hsplit : (opc :: arg :: (beBytes 2 p.length ++ p)).take (4 + m) =
        (opc :: arg :: beBytes 2 p.length) ++ p.take m :=
      List.take_length_add_append (l₁ := opc :: arg :: beBytes 2 p.length) m
    have hheader := takeBytes_map_byte (opc :: arg :: beBytes 2 p.length) []
      ((p.take m).map .byte ++ tail)
    rw [hsplit, List.map_append, List.append_assoc]
    refine nextArrival_of_payload hheader ?_ hr
    refine htail _ _ ?_
    simp only [List.reverse_nil, List.nil_append, List.drop_succ_cons, List.drop_zero, hlen,
      List.length_take]
    omega

/-- Every step answers a next state (R138). -/
theorem exists_step (s : State) : ∃ t, step s = .next t := by
  obtain ⟨rest, n, h | h | h | ⟨i, -, h⟩⟩ := step_cases s
  · exact ⟨_, h⟩
  · exact ⟨_, h⟩
  · exact ⟨_, h⟩
  · obtain ⟨t, -, hn, -⟩ := oneResponsePerCommand i { s with port := rest, resetRaces := n }
    exact ⟨t, h.trans hn⟩

/-- The engine never stops (R138). -/
theorem State.safe (s : State) : s.Safe := by
  intro n
  induction n generalizing s with
  | zero => exact ⟨s, rfl⟩
  | succ n ih =>
    obtain ⟨t, ht⟩ := exists_step s
    obtain ⟨u, hu⟩ := ih t
    refine ⟨u, ?_⟩
    simp only [Host.Core.run, Host.Check.core_step, ht]
    exact hu

/-- Settles O8: every step answers; the first bytes of a command are waited on, a whole one runs. -/
theorem engineNeverStops : Obligations.EngineNeverStops := by
  refine ⟨State.safe, fun opc arg p n s hp hn hport => ?_, fun opc arg p rest s hp hrest hport => ?_⟩
  · have hwait : nextArrival s.port = .waiting := by
      rw [hport, ← List.append_nil (List.map _ _)]
      refine nextArrival_of_prefix opc arg hp hn nofun fun bs m hm => ?_
      rw [List.append_nil]
      exact takeBytes_waiting bs [] m hm
    rw [step, hwait]
  · obtain ⟨t, r, hn, ht, hr⟩ := runCommand_whole_responds opc arg hp { s with port := rest }
    exact ⟨t, r, (step_whole opc arg p rest s hp hrest hport).trans hn, ht, hr⟩

/-! ### The hardware reset (R32, R146) -/

/-- A reset behind a whole command discards it, or the command runs first (R146). -/
theorem step_whole_reset_cases (opc arg : Byte) {p : Bytes} (hp : p.length ≤ 65535)
    (rest : List Input) (s : State) :
    step { s with port := (opc :: arg :: (beBytes 2 p.length ++ p)).map .byte ++ .reset :: rest } =
        .next (hardwareReset { s with resetRaces := s.resetRaces + 1 } rest) ∨
      step { s with port := (opc :: arg :: (beBytes 2 p.length ++ p)).map .byte ++ .reset :: rest } =
        runCommand (opc :: arg :: (beBytes 2 p.length ++ p))
          { s with port := .reset :: rest, resetRaces := s.resetRaces + 1 } := by
  rw [step_whole_reset opc arg p rest _ hp rfl]
  split
  · exact .inl rfl
  · exact .inr rfl

/-- Settles O9: a reset before the last byte is taken alone; one behind it discards the command or meets
what the command left. -/
theorem hardwareResetIsWholeOrNothing : Obligations.HardwareResetIsWholeOrNothing := by
  refine ⟨fun opc arg p n rest s hp hn => ?_, fun i rest s hi => ?_,
    fun opc arg p rest s hopc hp => ?_⟩
  · have hreset := nextArrival_of_prefix opc arg hp hn (tail := .reset :: rest) (r := .reset rest)
      nofun fun bs m hm => takeBytes_reset bs [] m rest hm
    rw [step, hreset]
    rfl
  · refine (step_whole_reset_cases i.opcode i.arg (of_decide_eq_true hi) rest s).imp_right fun h => ?_
    exact h.trans (runCommand_encode hi _)
  · refine (step_whole_reset_cases opc arg hp rest s).imp_right fun h => ?_
    rw [h, runCommand_of_instrOf_none hp (instrOf_unlisted opc arg p hopc), raise_next]

end Sys2Proof.Machine
end

section
/-! PROOFS. The statements about GF(2^128), the Shoup tables and zero padding (41_ghash R71 to R75). -/

namespace Sys2Proof.Machine

/-! ### The product of R71 as a ring product (R72) -/

theorem xor_gfMul (x y z : Block) : gfMul (x ^^^ y) z = gfMul x z ^^^ gfMul y z :=
  (congrArg (gfLoop (x ^^^ y) 128 · z) (BitVec.xor_zero (x := 0)).symm).trans
    (gfLoop_xor_left x y 128 0 0 z)

theorem gfMul_xor (x y z : Block) : gfMul x (y ^^^ z) = gfMul x y ^^^ gfMul x z :=
  (congrArg (gfLoop x 128 · (y ^^^ z)) (BitVec.xor_zero (x := 0)).symm).trans
    (gfLoop_xor x 128 0 0 y z)

/-- An additive map takes the zero block to itself. -/
theorem map_zero_of_xor {f : Block → Block} (hadd : ∀ a b, f (a ^^^ b) = f a ^^^ f b) : f 0 = 0 :=
  (hadd 0 0).trans BitVec.xor_self

@[simp] theorem gfMul_zero (x : Block) : gfMul x 0 = 0 := map_zero_of_xor (gfMul_xor x)

@[simp] theorem zero_gfMul (x : Block) : gfMul 0 x = 0 :=
  map_zero_of_xor (f := (gfMul · x)) fun a b => xor_gfMul a b x

/-- A map that is additive and commutes with multiplication by `x` is one of modules over the products. -/
theorem map_gfMul (f : Block → Block) (hadd : ∀ a b, f (a ^^^ b) = f a ^^^ f b)
    (hx : ∀ a, f (timesX a) = timesX (f a)) (x y : Block) : f (gfMul x y) = gfMul x (f y) := by
  rw [gfMul, map_gfLoop f hadd hx, map_zero_of_xor hadd, gfMul]

theorem timesX_gfMul (x y : Block) : timesX (gfMul x y) = gfMul x (timesX y) :=
  map_gfMul timesX timesX_xor (fun _ => rfl) x y

/-- Factors on the left of a product may change places: multiplication by `x` is such a map. -/
theorem gfMul_left_comm (x y z : Block) : gfMul x (gfMul y z) = gfMul y (gfMul x z) :=
  map_gfMul (gfMul x) (gfMul_xor x) (fun a => (timesX_gfMul x a).symm) y z

/-- Multiplication by `x` of a single bit is a shift to the next bit (R71). -/
theorem timesX_twoPow_succ {n : Nat} (hn : n + 1 < 128) :
    timesX (BitVec.twoPow 128 (n + 1)) = BitVec.twoPow 128 n := by
  have hlast : (BitVec.twoPow 128 (n + 1)).getMsbD 127 = false := by
    simp [BitVec.getMsbD_eq_getLsbD]
  rw [timesX, hlast]
  apply BitVec.eq_of_getLsbD_eq
  intro i hi
  have hbit : n + 1 = 1 + i ↔ n = i := by omega
  simp [BitVec.getLsbD_twoPow, hbit, hn, Nat.lt_of_succ_lt hn]

/-- A turn with the single bit `n` takes over bit `n` of `X`. -/
theorem getLsbD_turn_twoPow (x : Block) {n : Nat} (hn : n < 128) (z : Block) {j : Nat} (hj : j < 128) :
    (if x.getMsbD (127 - n) then z ^^^ BitVec.twoPow 128 n else z).getLsbD j =
      (z.getLsbD j ^^ (decide (j = n) && x.getLsbD j)) := by
  have hbit : x.getMsbD (127 - n) = x.getLsbD n := by
    have hn' : 128 - 1 - (127 - n) = n := by omega
    rw [BitVec.getMsbD_eq_getLsbD, hn', decide_eq_true (by omega), Bool.true_and]
  rw [hbit]
  by_cases hjn : n = j
  · subst hjn
    cases x.getLsbD n <;> simp [hj]
  · cases x.getLsbD n <;> simp [BitVec.getLsbD_twoPow, hjn, Ne.symm hjn]

/-- The last turns of the loop, the first of them with the single bit `n`, take over the bits `n` to 0 of
`X`. -/
theorem getLsbD_gfLoop_twoPow (x : Block) {n : Nat} (hn : n < 128) (z : Block) {j : Nat} (hj : j < 128) :
    (gfLoop x (n + 1) z (BitVec.twoPow 128 n)).getLsbD j =
      (z.getLsbD j ^^ (decide (j ≤ n) && x.getLsbD j)) := by
  induction n generalizing z with
  | zero =>
    rw [gfLoop, gfLoop, getLsbD_turn_twoPow x hn z hj]
    simp
  | succ n ih =>
    have hle : decide (j ≤ n + 1) = (decide (j = n + 1) ^^ decide (j ≤ n)) := by
      by_cases h : j = n + 1
      · simp [h]
      · have hiff : j ≤ n + 1 ↔ j ≤ n := by omega
        simp [h, hiff]
    rw [gfLoop, timesX_twoPow_succ hn, ih (by omega), getLsbD_turn_twoPow x hn z hj, hle]
    cases x.getLsbD j <;> simp

/-- `80 00 … 00` is a right unit. -/
theorem gfMul_one (x : Block) : gfMul x (0x80#8 ++ 0#120) = x := by
  have hone : (0x80#8 ++ 0#120) = BitVec.twoPow 128 127 := by decide
  apply BitVec.eq_of_getLsbD_eq
  intro j hj
  rw [gfMul, hone, getLsbD_gfLoop_twoPow x (by decide) 0 hj]
  simp
  omega

/-- Commutativity: both factors act on the unit, from the left. -/
theorem gfMul_comm (x y : Block) : gfMul x y = gfMul y x :=
  calc gfMul x y
    _ = gfMul x (gfMul y (0x80#8 ++ 0#120)) := by rw [gfMul_one]
    _ = gfMul y (gfMul x (0x80#8 ++ 0#120)) := gfMul_left_comm x y _
    _ = gfMul y x := by rw [gfMul_one]

theorem gfMul_assoc (x y z : Block) : gfMul (gfMul x y) z = gfMul x (gfMul y z) :=
  calc gfMul (gfMul x y) z
    _ = gfMul z (gfMul x y) := gfMul_comm _ z
    _ = gfMul x (gfMul z y) := gfMul_left_comm z x y
    _ = gfMul x (gfMul y z) := by rw [gfMul_comm z y]

/-- Settles O42: multiplication on the left commutes with every product, so with the unit on the right
the product is commutative. -/
theorem gfMulIsACommutativeRingProduct : Obligations.GfMulIsACommutativeRingProduct :=
  ⟨gfMul_comm, gfMul_assoc, xor_gfMul, gfMul_xor, gfMul_one, gfMul_zero⟩

/-! ### The Shoup tables (R73) -/

/-- An additive map passes through a sum. -/
theorem map_foldl_xor {α : Type} {f : Block → Block} (hadd : ∀ a b, f (a ^^^ b) = f a ^^^ f b)
    (g : α → Block) (l : List α) (z : Block) :
    f (l.foldl (fun z k => z ^^^ g k) z) = l.foldl (fun z k => z ^^^ f (g k)) (f z) := by
  induction l generalizing z with
  | nil => rfl
  | cons k l ih => rw [List.foldl_cons, List.foldl_cons, ih, hadd]

/-- Settles O41: a block is the sum of its nibbles, and the product is additive. -/
theorem shoupTablesGiveTheProduct : Obligations.ShoupTablesGiveTheProduct := by
  refine fun h => ⟨shoupTables_getElem h, fun x => ?_, fun k => ?_, ?_⟩
  · have hadd (a b : Block) : gfMul (a ^^^ b) h = gfMul a h ^^^ gfMul b h := xor_gfMul a b h
    have hsum := map_foldl_xor (f := (gfMul · h)) hadd (fun k : Fin 32 => nib k.val (nibble x k.val))
      (List.finRange 32) 0
    rw [tableProduct_shoupTables]
    simp only [zero_gfMul, foldl_nib] at hsum
    exact hsum.symm
  · have hnib : nib k.val (BitVec.ofFin (0 : Fin 16)) = 0 := by simp [nib]
    rw [shoupTables_getElem, hnib, zero_gfMul]
  · have hnib : nib (0 : Fin 32).val (BitVec.ofFin (8 : Fin 16)) = 0x80#8 ++ 0#120 := by decide
    rw [shoupTables_getElem, hnib, one_gfMul]

/-! ### Zero padding (R74, R75) -/

/-- Zeros behind a string of at most 16 bytes, as many as fit, do not change its block (R74). -/
theorem blockOf_append_zeros {b : Bytes} {j : Nat} (h : b.length + j ≤ 16) :
    blockOf (b ++ zeros j) = blockOf b := by
  have hz : zeros j ++ zeros (16 - (b ++ zeros j).length) = zeros (16 - b.length) := by
    simp only [zeros, List.replicate_append_replicate, List.length_append, List.length_replicate]
    congr 1
    omega
  rw [blockOf, List.append_assoc, hz, blockOf]

/-- Zeros behind a string do not change the blocks of its pieces (R74). -/
theorem map_blockOf_pieces_append_zeros (n : Nat) (d : Bytes) (j : Nat) :
    (pieces n (d ++ zeros j)).map blockOf = (pieces n d).map blockOf := by
  induction n generalizing d j with
  | zero => rfl
  | succ n ih =>
    have htake : (d ++ zeros j).take 16 = d.take 16 ++ zeros (min (16 - d.length) j) := by
      rw [List.take_append, zeros, List.take_replicate]
      rfl
    have hdrop : (d ++ zeros j).drop 16 = d.drop 16 ++ zeros (j - (16 - d.length)) := by
      rw [List.drop_append, zeros, List.drop_replicate]
      rfl
    rw [pieces, pieces, List.map_cons, List.map_cons, htake, hdrop, ih,
      blockOf_append_zeros (by rw [List.length_take]; omega)]

/-- Zeros that do not reach a new block do not change the hash, from any accumulator (R74, R75). -/
theorem ghashUpdate_append_zeros (acc h : Block) {d : Bytes} {j : Nat}
    (hj : (d.length + j + 15) / 16 = (d.length + 15) / 16) :
    ghashUpdate acc h (d ++ zeros j) = ghashUpdate acc h d := by
  have hfold (bs : List Bytes) : bs.foldl (fun a b => gfMul (a ^^^ blockOf b) h) acc =
      (bs.map blockOf).foldl (fun a b => gfMul (a ^^^ b) h) acc := by
    rw [List.foldl_map]
  rw [ghashUpdate, ghashUpdate, hfold, hfold, List.length_append, length_zeros, hj,
    map_blockOf_pieces_append_zeros]

/-- Settles O43: a short last block and the block with its zeros are the same. -/
theorem ghashIgnoresZeroPadding : Obligations.GhashIgnoresZeroPadding := fun h _ =>
  ⟨rfl, fun _ hj => ghashUpdate_append_zeros 0 h hj⟩

end Sys2Proof.Machine
end

section
/-! PROOFS. The statement about the table-driven form of AES (40_aes R66). -/

namespace Sys2Proof.Machine

/-- Byte `r` of word `c` of a block is its byte `4c + r` (R10, R61). -/
theorem wordByte_wordAt (b : Block) {c r : Nat} (hc : c < 4) (hr : r < 4) :
    wordByte (wordAt b c) r = byteAt b (4 * c + r) := by
  apply BitVec.eq_of_getLsbD_eq
  intro i hi
  have hword : 8 * (3 - r) + i < 32 := by omega
  have hpos : 32 * (3 - c) + (8 * (3 - r) + i) = 8 * (15 - (4 * c + r)) + i := by omega
  simp only [wordByte, wordAt, byteAt, BitVec.getLsbD_extractLsb', hi, hword, hpos, decide_true,
    Bool.true_and]

/-- Words side by side that are those of a block make the block (R61). -/
theorem append_eq_of_wordAt {w : Nat → Word32} {b : Block} (h : ∀ c, c < 4 → w c = wordAt b c) :
    w 0 ++ w 1 ++ w 2 ++ w 3 = b := by
  rw [h 0 (by decide), h 1 (by decide), h 2 (by decide), h 3 (by decide), append_wordAt]

/-- Words with the same bytes are equal. -/
theorem word_ext {a b : Word32} (h : ∀ r, r < 4 → wordByte a r = wordByte b r) : a = b := by
  ext j hj
  have hbyte := congrArg (fun x : Byte => x.getLsbD (j % 8)) (h (3 - j / 8) (by omega))
  have hpos : 8 * (3 - (3 - j / 8)) + j % 8 = j := by omega
  simpa [wordByte, BitVec.getLsbD_extractLsb', hpos, Nat.mod_lt j (by decide : 8 > 0),
    BitVec.getLsbD_eq_getElem hj] using hbyte

theorem wordByte_xor (a b : Word32) (r : Nat) :
    wordByte (a ^^^ b) r = wordByte a r ^^^ wordByte b r := by
  apply BitVec.eq_of_getLsbD_eq
  intro i hi
  simp [wordByte, hi]

/-- Byte `r` of column `c` after SubBytes and ShiftRows (R63, R64). -/
theorem byteAt_shiftRows_subBytes (s : Block) {c r : Nat} (hc : c < 4) (hr : r < 4) :
    byteAt (shiftRows (subBytes s)) (4 * c + r) = sbox (byteAt s (r + 4 * ((c + r) % 4))) := by
  rw [shiftRows, byteAt_blockOfFn _ _ (by omega), show (4 * c + r) % 4 = r by omega,
    show (4 * c + r) / 4 = c by omega, byteAt_subBytes _ (by omega)]

/-- Byte `r` of column `c` of MixColumns (R65). -/
theorem byteAt_mixColumns (s : Block) {c r : Nat} (hc : c < 4) (hr : r < 4) :
    byteAt (mixColumns s) (4 * c + r) =
      xtime (byteAt s (4 * c + r)) ^^^ times3 (byteAt s (4 * c + (r + 1) % 4)) ^^^
        byteAt s (4 * c + (r + 2) % 4) ^^^ byteAt s (4 * c + (r + 3) % 4) := by
  have hmod (j : Nat) : (4 * c + r + j) % 4 = (r + j) % 4 := by
    rw [Nat.add_assoc, Nat.mul_add_mod]
  rw [mixColumns, byteAt_blockOfFn _ _ (by omega), show (4 * c + r) % 4 = r by omega,
    show (4 * c + r) / 4 = c by omega, hmod, hmod, hmod]

/-- A column of the table-driven form is that column of SubBytes, ShiftRows and MixColumns (R66). -/
theorem tableColumn_eq (s : Block) {c : Nat} (hc : c < 4) :
    tableColumn s c = wordAt (mixColumns (shiftRows (subBytes s))) c := by
  refine word_ext fun r hr => ?_
  rw [wordByte_wordAt _ hc hr, byteAt_mixColumns _ hc hr, byteAt_shiftRows_subBytes s hc hr,
    byteAt_shiftRows_subBytes s hc (Nat.mod_lt _ (by decide)),
    byteAt_shiftRows_subBytes s hc (Nat.mod_lt _ (by decide)),
    byteAt_shiftRows_subBytes s hc (Nat.mod_lt _ (by decide)), tableColumn, wordByte_xor, wordByte_xor,
    wordByte_xor, te0, te1, te2, te3]
  have hc0 : c % 4 = c := Nat.mod_eq_of_lt hc
  interval_cases r
  all_goals simp only [wordByte_append_zero, wordByte_append_one, wordByte_append_two,
    wordByte_append_three, Nat.reduceAdd, Nat.reduceMod, Nat.add_zero, Nat.zero_add, hc0]
  all_goals ac_rfl

/-- A round of the table-driven form is a full round (R66). -/
theorem tableRound_eq_fullRound : tableRound = fullRound := by
  funext s k
  exact congrArg (· ^^^ k) (append_eq_of_wordAt (w := tableColumn s) fun c hc => tableColumn_eq s hc)

/-- Settles O40: the two forms differ in the nine full rounds only, and those are equal. -/
theorem tableDrivenFormIsAes : Obligations.TableDrivenFormIsAes := by
  intro rk b
  rw [aesEncryptTable, tableRound_eq_fullRound, aesEncrypt]

end Sys2Proof.Machine
end

section
/-! PROOFS. The statements about GCMWRITE and whole messages (42_gcm_stream R78 to R80, R83 to R87): whole
blocks and limits, split writes, counter mode, and the tag. -/

namespace Sys2Proof.Machine

/-! ### GCMWRITE (R84, R85) -/

/-- A write of `p` would take the message over a limit (R84, R85). -/
def OverLimit (x : Stream) (p : Bytes) : Prop :=
  Config.outbufCap < x.lenC + p.length ∨
    (x.pol ≠ .authentication ∧ 2 ^ 32 - 2 < x.nblk + ((x.buf ++ p).length + 15) / 16)

theorem overLimit_iff_exceeds {x : Stream} {p : Bytes} : OverLimit x p ↔
    exceedsOutbuf (x.lenC + p.length) = true ∨ exceedsCounterLimit x p = true := by
  rw [exceedsOutbuf_iff, exceedsCounterLimit_iff, OverLimit]

section Write
variable {s : State} {x : Stream} (hs : s.stream = some x) {p : Bytes}
include hs

/-- A write over a limit ends the stream (R84, R85, R124). -/
theorem exec_gcmwrite_of_overLimit (h : OverLimit x p) :
    exec (.gcmwrite 0x00 p) s = raise .lengthLimit (endStream s) := by
  simp only [exec, execGcmwrite, hs]
  rcases overLimit_iff_exceeds.1 h with h | h <;> simp [h]

/-- A write within the limits processes the whole blocks and keeps the rest (R84). -/
theorem exec_gcmwrite_of_not_overLimit (h : ¬ OverLimit x p) :
    exec (.gcmwrite 0x00 p) s = emit [] { s with stream := some (writeStream x p) } := by
  rw [overLimit_iff_exceeds, not_or] at h
  obtain ⟨hout, hcount⟩ := h
  simp [exec, execGcmwrite, hs, hout, hcount]

end Write

/-- Blocks of 16 bytes and a tail, in bytes. -/
theorem length_flatten_append {blocks : List Bytes} (hb : ∀ b ∈ blocks, b.length = 16) (tail : Bytes) :
    (blocks.flatten ++ tail).length = 16 * blocks.length + tail.length := by
  rw [List.length_append, List.length_flatten, List.map_congr_left hb, List.map_const',
    List.sum_replicate, smul_eq_mul, mul_comm]

/-- The write's own cut into blocks is any cut into whole blocks and a short tail (R84). -/
theorem writeStream_eq_of_blocks {x : Stream} {p : Bytes} {blocks : List Bytes} {tail : Bytes}
    (hb : ∀ b ∈ blocks, b.length = 16) (ht : tail.length < 16)
    (hcut : x.buf ++ p = blocks.flatten ++ tail) :
    writeStream x p =
      { blocks.foldl processBlock x with buf := tail, lenC := x.lenC + p.length } := by
  have hflat : blocks.flatten.length = 16 * blocks.length := by
    simpa using length_flatten_append hb []
  have hn : (blocks.flatten ++ tail).length / 16 = blocks.length := by
    rw [length_flatten_append hb]
    omega
  have hpieces : pieces blocks.length (blocks.flatten ++ tail) = blocks := by
    simpa [pieces] using pieces_flatten blocks hb 0 tail
  have hdrop : (blocks.flatten ++ tail).drop (16 * blocks.length) = tail := List.drop_left' hflat
  simp only [writeStream, hcut, hn, hpieces, hdrop]

/-- A string is whole blocks and a short tail (R84). -/
theorem exists_blocks (b : Bytes) : ∃ (blocks : List Bytes) (tail : Bytes),
    (∀ x ∈ blocks, x.length = 16) ∧ tail.length < 16 ∧ b = blocks.flatten ++ tail := by
  refine ⟨pieces (b.length / 16) b, b.drop (16 * (b.length / 16)),
    fun x hx => length_of_mem_pieces (by omega) hx, by rw [List.length_drop]; omega, ?_⟩
  rw [flatten_pieces, List.take_append_drop]

/-- Settles O46: the limits are those of `OverLimit`, and the blocks are the ones that the write cuts. -/
theorem streamWriteProcessesWholeBlocks : Obligations.StreamWriteProcessesWholeBlocks := by
  refine fun a p s => ⟨fun ha => exec_of_argAccepted_false (i := .gcmwrite _ _) (beq_false_of_ne ha) s,
    fun hs => (streamIsIndependentOfOtherCommands.2.1 p s hs).1,
    fun x hs => ⟨fun hover => exec_gcmwrite_of_overLimit hs hover,
      fun blocks tail hb ht hcut hcap hcount => ⟨_, rfl, ?_⟩⟩⟩
  have hwithin : ¬ OverLimit x p := by
    rintro (hover | ⟨hpol, hover⟩)
    · omega
    · have htail : (tail.length + 15) / 16 ≤ if tail = [] then 0 else 1 := by
        split
        · subst tail
          decide
        · omega
      have hblocks := hcount.resolve_left hpol
      rw [hcut, length_flatten_append hb] at hover
      omega
  rw [exec_gcmwrite_of_not_overLimit hs hwithin, writeStream_eq_of_blocks hb ht hcut, emit_next]

/-! ### Two writes (R84, L1-2) -/

/-- Two writes are one write of both, and meet the limits where it does (R84, R85). -/
theorem writeStream_writeStream (x : Stream) (p q : Bytes) :
    writeStream (writeStream x p) q = writeStream x (p ++ q) ∧
      (OverLimit x (p ++ q) ↔ OverLimit (writeStream x p) q) := by
  obtain ⟨bs, u, hbs, hu, hp⟩ := exists_blocks (x.buf ++ p)
  obtain ⟨cs, v, hcs, hv, hq⟩ := exists_blocks (u ++ q)
  have hpq : x.buf ++ (p ++ q) = (bs ++ cs).flatten ++ v := by
    rw [← List.append_assoc, hp, List.append_assoc, hq, List.flatten_append, List.append_assoc]
  have hlen : x.lenC + p.length + q.length = x.lenC + (p ++ q).length := by
    rw [List.length_append, Nat.add_assoc]
  have hfirst := writeStream_eq_of_blocks hbs hu hp
  obtain ⟨-, hpol, -⟩ := foldl_processBlock_frame bs x
  have hnblk := foldl_processBlock_nblk bs x
  constructor
  · rw [writeStream_eq_of_blocks (List.forall_mem_append.2 ⟨hbs, hcs⟩) hv hpq, hfirst,
      writeStream_eq_of_blocks hcs hv hq, foldl_processBlock_with, List.foldl_append]
    simp only [hlen]
  · have hcount : x.pol ≠ .authentication →
        x.nblk + ((x.buf ++ (p ++ q)).length + 15) / 16 =
          x.nblk + bs.length + ((u ++ q).length + 15) / 16 := by
      intro _
      rw [hpq, hq, length_flatten_append hcs, length_flatten_append (List.forall_mem_append.2 ⟨hbs, hcs⟩),
        List.length_append]
      omega
    simp only [OverLimit, hfirst, hpol, hnblk, hlen]
    refine or_congr_right (and_congr_right fun ha => ?_)
    rw [hcount ha, if_neg ha]

/-- A GCMWRITE that ends in OK was within the limits (R84). -/
theorem write_of_exec_gcmwrite_ok {a : Byte} {p : Bytes} {s t : State}
    (h : exec (.gcmwrite a p) s = .next t) (hok : t.err = .ok) :
    ∃ x, s.stream = some x ∧ ¬ OverLimit x p ∧ t.stream = some (writeStream x p) := by
  obtain ⟨s', out, rfl, x, hx, ⟨he, -⟩ | ⟨-, hcap, hcount, rfl⟩⟩ := effect_of_exec_ok h hok
  · cases he
  · refine ⟨x, hx, ?_, rfl⟩
    rintro (hover | ⟨hpol, hover⟩)
    · omega
    · exact absurd hover (Nat.not_lt.2 (hcount hpol))

/-- Settles O49: the whole write is within the limits because the second of the two is. -/
theorem splitWritesAreOneWrite : Obligations.SplitWritesAreOneWrite := by
  intro p q s t u hp htok hq huok
  obtain ⟨x, hx, -, ht⟩ := write_of_exec_gcmwrite_ok hp htok
  obtain ⟨y, hy, hwithin, hu⟩ := write_of_exec_gcmwrite_ok hq huok
  obtain rfl := Option.some.inj (ht.symm.trans hy)
  obtain ⟨hwrite, hlimit⟩ := writeStream_writeStream x p q
  refine ⟨_, exec_gcmwrite_of_not_overLimit hx (mt hlimit.1 hwithin), rfl, ?_⟩
  rw [complete_stream, hu, hwrite]

/-! ### Counter mode (R79, R80, R83) -/

theorem getElem?_blockBytes (b : Block) {i : Nat} (hi : i < 16) :
    (blockBytes b)[i]? = some (byteAt b i) := by
  have hbyte := byteAt_ofNat_beNat (blockBytes b) i (length_blockBytes b) hi
  rw [beNat_blockBytes, BitVec.ofNat_toNat, BitVec.setWidth_eq] at hbyte
  rw [hbyte, List.getElem?_eq_getElem]

/-- Byte `n` of the outputs of a message's pieces, from counter `m` on (R83). -/
theorem getElem?_blockOutputs (j : Nat) (d : Bytes) (hd : d.length ≤ 16 * j) (t : Stream) (m : Nat)
    (hpol : t.pol ≠ .authentication) (hcb : t.cb = counterAfter t.j0 m) {n : Nat} (hn : n < d.length) :
    (blockOutputs (pieces j d) t).flatten[n]? =
      some (d[n] ^^^ byteAt (aesEncrypt t.rk (counterAfter t.j0 (m + n / 16 + 1))) (n % 16)) := by
  induction j generalizing d t m n with
  | zero => omega
  | succ j ih =>
    have hlen := length_blockOutput t (d.take 16) (List.length_take_le 16 d)
    rw [List.length_take] at hlen
    rw [pieces, blockOutputs, List.flatten_cons]
    by_cases h16 : n < 16
    · have hdiv : n / 16 = 0 := by omega
      have hmod : n % 16 = n := Nat.mod_eq_of_lt h16
      rw [List.getElem?_append_left (by omega), blockOutput, if_neg hpol, hcb, inc32_counterAfter, xorBytes,
        List.getElem?_zipWith, getElem?_blockBytes _ h16, hdiv, hmod,
        List.getElem?_take_of_lt h16, List.getElem?_eq_getElem hn]
    · have hcb' : (processBlock t (d.take 16)).cb =
          counterAfter (processBlock t (d.take 16)).j0 (m + 1) := by
        rw [processBlock_cb, if_neg hpol, hcb, inc32_counterAfter, processBlock_j0]
      have hdrop : n - 16 < (d.drop 16).length := by
        rw [List.length_drop]
        omega
      have hrest := ih (d.drop 16) (by rw [List.length_drop]; omega) (processBlock t (d.take 16))
        (m + 1) (by rwa [processBlock_pol]) hcb' hdrop
      have hcount : m + 1 + (n - 16) / 16 + 1 = m + n / 16 + 1 := by omega
      have hmod : (n - 16) % 16 = n % 16 := by omega
      have hbyte : (d.drop 16)[n - 16] = d[n] := by
        rw [List.getElem_drop]
        congr 1
        omega
      rw [List.getElem?_append_right (by omega), hlen, Nat.min_eq_left (by omega), hrest, hcount, hmod,
        hbyte, processBlock_rk, processBlock_j0]

/-- The counter blocks of a nonce (R79, R80). -/
theorem counterAfter_initialCounter (nonce : Nonce) (n : Nat) :
    counterAfter (initialCounter nonce) n = nonce ++ (1#32 + BitVec.ofNat 32 n) := by
  rw [counterAfter, initialCounter_low, initialCounter, BitVec.extractLsb'_append_eq_left]

section WholeMessage
variable (dir : Direction) (pol : Policy) (rk : RoundKeys) (h : Block) (nonce : Nonce) (aad data : Bytes)
  (tagIn : Option Tag)

/-- The key stream of a message is the same in either direction and for any AAD (R83). -/
theorem getElem?_message_out (hpol : pol ≠ .authentication) {n : Nat}
    (hn : n < data.length) :
    (message (startStream dir pol rk h nonce aad tagIn) data).out[n]? = some (data[n] ^^^
      byteAt (aesEncrypt rk (nonce ++ (1#32 + BitVec.ofNat 32 (n / 16 + 1)))) (n % 16)) := by
  have hbyte := getElem?_blockOutputs ((data.length + 15) / 16) data (by omega)
    (startStream dir pol rk h nonce aad tagIn) 0 hpol (counterAfter_zero _).symm hn
  rw [message_out _ data rfl, startStream, List.nil_append, ← counterAfter_initialCounter,
    ← Nat.zero_add (n / 16)]
  exact hbyte

/-- Settles O50: with an empty BUF at the start the output is that of the message's pieces. -/
theorem streamIsCounterMode : Obligations.StreamIsCounterMode :=
  fun dir pol rk h nonce aad data tagIn =>
    ⟨(length_message_out _ data rfl).trans (Nat.zero_add _),
      fun hpol => message_out_authentication _ data rfl hpol,
      fun hpol _ hn => getElem?_message_out dir pol rk h nonce aad data tagIn hpol hn⟩

/-! ### The tag (R74, R86, R87) -/

/-- Only the low `n` bytes of a number are written (R8). -/
theorem beBytes_mod (n v : Nat) : beBytes n (v % 256 ^ n) = beBytes n v := by
  conv_rhs => rw [← Nat.div_add_mod v (256 ^ n)]
  exact (beBytes_beNat.beBytes_add_mul n (v / 256 ^ n) _).symm

/-- The length block is the two bit counts of 8 bytes each (R86). -/
theorem blockBytes_lengthBlock (lenA lenC : Nat) :
    blockBytes (lengthBlock lenA lenC) = beBytes 8 (8 * lenA) ++ beBytes 8 (8 * lenC) := by
  have half (v : Nat) : beBytes 8 (BitVec.ofNat 64 v).toNat = beBytes 8 v := by
    rw [BitVec.toNat_ofNat]
    exact beBytes_mod 8 v
  have hsplit := beBytes_toNat_append 8 8 (BitVec.ofNat 64 (8 * lenA)) (BitVec.ofNat 64 (8 * lenC))
  rw [half, half] at hsplit
  exact hsplit

theorem length_padded_mod (b : Bytes) : (padded b).length % 16 = 0 := by
  rw [padded, List.length_append, length_zeros]
  omega

/-- A string and the string padded to whole blocks hash to the same (R74). -/
theorem ghashUpdate_padded (acc h : Block) (b : Bytes) :
    ghashUpdate acc h (padded b) = ghashUpdate acc h b :=
  ghashUpdate_append_zeros acc h (by omega)

/-- The hash of padded AAD, padded ciphertext and lengths, block by block (R86). -/
theorem ghashOf_message (h : Block) (aad c : Bytes) (lenA lenC : Nat) :
    ghashOf h (padded aad ++ padded c ++ beBytes 8 (8 * lenA) ++ beBytes 8 (8 * lenC)) =
      gfMul (ghashUpdate (ghashUpdate 0 h aad) h c ^^^ lengthBlock lenA lenC) h := by
  rw [List.append_assoc, List.append_assoc, ← blockBytes_lengthBlock, ghashOf,
    ghashUpdate_append _ _ _ _ (length_padded_mod aad), ghashUpdate_append _ _ _ _ (length_padded_mod c),
    ghashUpdate_padded, ghashUpdate_padded, ghashUpdate_blockBytes]

/-- The tag of a message, by its ciphertext (R86, R87). -/
theorem streamTag_message : streamTag (message (startStream dir pol rk h nonce aad tagIn) data) =
    (aesEncrypt rk (nonce ++ 1#32) ^^^
      ghashOf h (padded aad ++
        padded (if dir = .encrypt then (message (startStream dir pol rk h nonce aad tagIn) data).out
          else data) ++
        beBytes 8 (8 * aad.length) ++ beBytes 8 (8 * data.length))).extractLsb' 32 96 := by
  obtain ⟨-, -, hrk, hh, hj0, hlenA, hlenC, -⟩ :=
    message_frame (startStream dir pol rk h nonce aad tagIn) data rfl
  have hacc := message_acc (startStream dir pol rk h nonce aad tagIn) data rfl rfl
  rw [streamTag, hrk, hh, hj0, hlenA, hlenC.trans (Nat.zero_add _), hacc, ghashOf_message]
  rfl

end WholeMessage

/-- Settles O51: GHASH runs over the AAD at the start, the ciphertext in the message, and the length block
in the tag. -/
theorem tagIsGhashOfTheWholeMessage : Obligations.TagIsGhashOfTheWholeMessage := streamTag_message

end Sys2Proof.Machine
end

section
/-! PROOFS. The statements about DECIPHER and the nonce (43_dlms_formatter R98 to R101;
70_reset_and_hazards R155): its rejections, what it verifies and records, and what opens a packet. -/

namespace Sys2Proof.Machine

/-! ### The rejections in order (R98) -/

theorem parseEnvelope_of_not_mem {ct : Byte} (hct : ct ∉ cipheredTags) (q : Bytes) :
    parseEnvelope (ct :: q) = .error .unknownCommand := if_pos hct

section Count
variable {ct : Byte} (hct : ct ∈ cipheredTags) {q : Bytes}
include hct

theorem parseEnvelope_of_no_count (hc : countDec (ct :: q) 1 = none) :
    parseEnvelope (ct :: q) = .error .malformedEnvelope := by
  simp [parseEnvelope, hct, hc]

variable {n i : Nat} (hc : countDec (ct :: q) 1 = some (n, i))
include hc

theorem parseEnvelope_of_bad_count (hn : n ≠ (ct :: q).length - i ∨ n < 5) :
    parseEnvelope (ct :: q) = .error .malformedEnvelope := by
  simp only [parseEnvelope, hct, not_true_eq_false, if_false, hc, if_pos hn]

/-- An envelope whose count is the length behind it has its security byte and counter there (R57, R98). -/
theorem parseEnvelope_of_count (hn : n = (ct :: q).length - i) (h5 : 5 ≤ n) :
    parseEnvelope (ct :: q) = .ok
      { sp := (ct :: q).getD i 0x00
        fc := BitVec.ofNat 32 (beNat (((ct :: q).drop (i + 1)).take 4))
        rest := (ct :: q).drop (i + 5) } := by
  have hgood : ¬ (n ≠ (ct :: q).length - i ∨ n < 5) := by omega
  simp only [parseEnvelope, hct, not_true_eq_false, if_false, hc, if_neg hgood]

end Count

theorem exec_decipher_of_parse_error {p : Bytes} {e : ErrCode} (h : parseEnvelope p = .error e)
    (s : State) : exec (.decipher 0x00 p) s = raise e s := by
  simp [exec, execDecipher, h]

section Parsed
variable {p : Bytes} {v : EnvelopeParts} (hv : parseEnvelope p = .ok v)
include hv

theorem exec_decipher_of_no_policy (hsp : v.sp ∉ ([0x10, 0x20, 0x30] : Bytes)) (s : State) :
    exec (.decipher 0x00 p) s = raise .unsupportedSecurityPolicy s := by
  simp [exec, execDecipher, hv, policyOf_eq_none_iff_not_mem.2 hsp]

variable {pol : Policy} (hpol : v.sp = policyByte pol) {s : State}
include hpol

theorem exec_decipher_of_no_keys (h : s.key = none ∨ s.ak = none ∨ s.st = none) :
    exec (.decipher 0x00 p) s = raise .keyNotLoaded s := by
  simp [exec, execDecipher, hv, hpol, withKeys_of_none h]

variable {k : CipherKey} {ak : Block} {st : Title} (hk : s.key = some k) (ha : s.ak = some ak)
  (ht : s.st = some st)
include hk ha ht

theorem exec_decipher_of_no_room (hsplit : splitTag pol v.rest = none) :
    exec (.decipher 0x00 p) s = raise .malformedEnvelope s := by
  simp [exec, execDecipher, hv, hpol, withKeys_some hk ha ht, hsplit]

end Parsed

/-- There is no room for a tag in fewer than 12 bytes (R98). -/
theorem splitTag_of_short {pol : Policy} (hpol : authenticates pol = true) {rest : Bytes}
    (h : rest.length < 12) : splitTag pol rest = none := by
  rw [splitTag, if_pos hpol, if_pos h]

/-- Settles O56: each rejection is a branch of the parser or of the checks behind it. -/
theorem decipherRejectsInOrder : Obligations.DecipherRejectsInOrder := by
  refine ⟨rfl, fun a p s => ⟨fun ha => ?_, exec_decipher_of_parse_error rfl s, ?_, ?_⟩⟩
  · exact exec_of_argAccepted_false (i := .decipher _ _) (beq_false_of_ne ha) s
  · rintro ct q rfl hct
    exact exec_decipher_of_parse_error (parseEnvelope_of_not_mem hct q) s
  · rintro ct q rfl hct
    refine ⟨fun hc => exec_decipher_of_parse_error (parseEnvelope_of_no_count hct hc) s,
      fun n i hc hn => exec_decipher_of_parse_error (parseEnvelope_of_bad_count hct hc hn) s,
      fun n i sp hc hn h5 hi => ?_⟩
    have hv := parseEnvelope_of_count hct hc hn h5
    have hsp : (ct :: q).getD i 0x00 = sp := by rw [List.getD_eq_getElem?_getD, hi, Option.getD_some]
    rw [hsp] at hv
    refine ⟨fun hno => exec_decipher_of_no_policy hv hno s, fun hmem hkeys => ?_,
      fun hauth hk ha ht hroom => ?_⟩
    · obtain ⟨pol, hpol⟩ := mem_policyBytes_iff.1 hmem
      exact exec_decipher_of_no_keys hv hpol hkeys
    · obtain ⟨pol, hpol, hauth⟩ : ∃ pol, sp = policyByte pol ∧ authenticates pol = true := by
        rcases hauth with rfl | rfl
        · exact ⟨.authentication, rfl, rfl⟩
        · exact ⟨.authenticatedEncryption, rfl, rfl⟩
      obtain ⟨k, hk⟩ := Option.ne_none_iff_exists'.1 hk
      obtain ⟨ak, ha⟩ := Option.ne_none_iff_exists'.1 ha
      obtain ⟨st, ht⟩ := Option.ne_none_iff_exists'.1 ht
      refine exec_decipher_of_no_room hv hpol hk ha ht (splitTag_of_short hauth ?_)
      rw [List.length_drop]
      omega

/-! ### The end of a verifying command (R89, R98) -/

/-- The end of a command that verifies a tag (R89): `accepted` with the verdict in TAGMM and the output, or
`InvalidTag` in `rejected`. -/
def endVerified (tag : Tag) (expected : Option Tag) (out : Bytes) (accepted rejected : State) : Result :=
  match tagVerdict tag expected (diag rejected) with
  | some mm => emit out { accepted with tagmm := mm }
  | none => raise .invalidTag { rejected with tagmm := false }

section EndVerified
variable {tag : Tag} {expected : Option Tag} {rejected : State}

theorem endVerified_of_verdict_some {mm : Bool}
    (h : tagVerdict tag expected (diag rejected) = some mm) (out : Bytes) (accepted : State) :
    endVerified tag expected out accepted rejected = emit out { accepted with tagmm := mm } := by
  rw [endVerified, h]

theorem endVerified_of_verdict_none (h : tagVerdict tag expected (diag rejected) = none) (out : Bytes)
    (accepted : State) : endVerified tag expected out accepted rejected =
      raise .invalidTag { rejected with tagmm := false } := by
  rw [endVerified, h]

theorem endVerified_of_eq (h : expected = some tag) (out : Bytes) (accepted : State) :
    endVerified tag expected out accepted rejected = emit out { accepted with tagmm := false } :=
  endVerified_of_verdict_some (if_pos h) out accepted

variable (hne : expected ≠ some tag)
include hne

theorem endVerified_of_ne_trace (hd : diag rejected = true) (out : Bytes) (accepted : State) :
    endVerified tag expected out accepted rejected = emit out { accepted with tagmm := true } :=
  endVerified_of_verdict_some ((if_neg hne).trans (if_pos hd)) out accepted

theorem endVerified_of_ne (hd : diag rejected = false) (out : Bytes) (accepted : State) :
    endVerified tag expected out accepted rejected =
      raise .invalidTag { rejected with tagmm := false } :=
  endVerified_of_verdict_none ((if_neg hne).trans (if_neg (by rw [hd]; exact Bool.false_ne_true))) out
    accepted

end EndVerified

/-- The end of a DECIPHER that computed the data and tag `dt` from the envelope `v` (R98). -/
def endDecipher (v : EnvelopeParts) (expected : Option Tag) (dt : Bytes × Option Tag) (s : State) :
    Result :=
  match dt.2 with
  | none => emit dt.1 { s with rxsp := v.sp, rxfc := v.fc }
  | some tag => endVerified tag expected dt.1 { s with rxsp := v.sp, rxfc := v.fc } s

/-- DECIPHER with the form right and the keys loaded (R98). -/
theorem exec_decipher_of_parts {p : Bytes} {s : State} {v : EnvelopeParts} {pol : Policy}
    {k : CipherKey} {ak : Block} {st : Title} {body : Bytes} {expected : Option Tag}
    (hv : parseEnvelope p = .ok v) (hpol : v.sp = policyByte pol) (hk : s.key = some k)
    (ha : s.ak = some ak) (ht : s.st = some st) (hsplit : splitTag pol v.rest = some (body, expected)) :
    exec (.decipher 0x00 p) s =
      endDecipher v expected (formatterCore .decrypt pol k ak (st ++ v.fc) body) s := by
  obtain ⟨sp, fc, rest⟩ := v
  obtain rfl : sp = policyByte pol := hpol
  simp only [exec, execDecipher, hv, policyOf_policyByte, withKeys_some hk ha ht, hsplit,
    ne_eq, not_true_eq_false, if_false]
  rfl

section EndDecipher
variable {v : EnvelopeParts} {expected : Option Tag} {dt : Bytes × Option Tag} {s : State}

theorem endDecipher_of_none (h : dt.2 = none) :
    endDecipher v expected dt s = emit dt.1 { s with rxsp := v.sp, rxfc := v.fc } := by
  rw [endDecipher, h]

theorem endDecipher_of_some {tag : Tag} (h : dt.2 = some tag) : endDecipher v expected dt s =
    endVerified tag expected dt.1 { s with rxsp := v.sp, rxfc := v.fc } s := by
  rw [endDecipher, h]

end EndDecipher

/-! ### Envelopes of the right form (R57, R98, R101) -/

/-- The parser finds the parts of an envelope behind a count of what follows it (R57, R98). -/
theorem parseEnvelope_append {ct : Byte} (hct : ct ∈ cipheredTags) {count rest after : Bytes} {sp : Byte}
    {fc : BitVec 32} (hafter : after = sp :: (beBytes 4 fc.toNat ++ rest))
    (hc : countDec (ct :: (count ++ after)) 1 = some (after.length, 1 + count.length)) :
    parseEnvelope (ct :: (count ++ after)) = .ok ⟨sp, fc, rest⟩ := by
  have hdrop : (ct :: (count ++ after)).drop (1 + count.length) = after :=
    List.drop_left' (l₁ := ct :: count) (by rw [List.length_cons, Nat.add_comm])
  have hlen : after.length = (ct :: (count ++ after)).length - (1 + count.length) := by
    rw [← List.length_drop, hdrop]
  have hbehind (j : Nat) : (ct :: (count ++ after)).drop (1 + count.length + j) = after.drop j := by
    rw [← List.drop_drop, hdrop]
  have hsp : (ct :: (count ++ after)).getD (1 + count.length) 0x00 = sp := by
    rw [List.getD_eq_getElem?_getD, ← Nat.add_zero (1 + count.length), ← List.getElem?_drop, hdrop,
      hafter]
    rfl
  have hmod : fc.toNat % 256 ^ 4 = fc.toNat := Nat.mod_eq_of_lt fc.isLt
  have hfc : BitVec.ofNat 32 (beNat ((after.drop 1).take 4)) = fc := by
    rw [hafter, List.drop_succ_cons, List.drop_zero, List.take_left' (length_beBytes 4 _),
      beNat_beBytes, hmod, BitVec.ofNat_toNat, BitVec.setWidth_eq]
  have hrest : after.drop 5 = rest := by
    rw [hafter, List.drop_succ_cons, List.drop_left' (length_beBytes 4 _)]
  rw [parseEnvelope_of_count hct hc hlen (by rw [hafter]; simp), hsp, hbehind, hbehind, hfc, hrest]

/-- The tag that an envelope of a policy carries (R57, R98). -/
def carriedTag (pol : Policy) (tag : Tag) : Option Tag := if pol = .encryption then none else some tag

theorem tagBytes_carriedTag (pol : Policy) (tag : Tag) :
    tagBytes (carriedTag pol tag) = if pol = .encryption then [] else beBytes 12 tag.toNat := by
  rw [carriedTag, apply_ite tagBytes]
  rfl

/-- The carried tag is split off again (R98). -/
theorem splitTag_append (pol : Policy) (body : Bytes) (tag : Tag) :
    splitTag pol (body ++ tagBytes (carriedTag pol tag)) = some (body, carriedTag pol tag) := by
  by_cases hpol : pol = .encryption
  · subst hpol
    simp [splitTag, authenticates, carriedTag, tagBytes]
  · simp [splitTag, authenticates_iff.2 hpol, carriedTag, hpol, tagBytes]

section Envelope
variable {ct : Byte} (hct : ct ∈ cipheredTags) {s : State} {k : CipherKey} {ak : Block} {st : Title}
  (hk : s.key = some k) (ha : s.ak = some ak) (ht : s.st = some st)
include hct hk ha ht

/-- DECIPHER of an envelope with any count of the right value (R98). -/
theorem exec_decipher_append {pol : Policy} {count body after : Bytes} {fc : BitVec 32} {tag : Tag}
    (hafter : after = policyByte pol :: (beBytes 4 fc.toNat ++ (body ++ tagBytes (carriedTag pol tag))))
    (hc : countDec (ct :: (count ++ after)) 1 = some (after.length, 1 + count.length)) :
    exec (.decipher 0x00 (ct :: (count ++ after))) s =
      endDecipher ⟨policyByte pol, fc, body ++ tagBytes (carriedTag pol tag)⟩ (carriedTag pol tag)
        (formatterCore .decrypt pol k ak (st ++ fc) body) s :=
  exec_decipher_of_parts (parseEnvelope_append hct hafter hc) rfl hk ha ht (splitTag_append pol body tag)

/-- DECIPHER of an envelope that the formatter built (R57, R98). -/
theorem exec_decipher_envelope (pol : Policy) (fc : BitVec 32) (tag : Tag) {body : Bytes}
    (hbody : body.length ≤ 65520) :
    exec (.decipher 0x00 (envelope ct (policyByte pol) fc body (tagBytes (carriedTag pol tag)))) s =
      endDecipher ⟨policyByte pol, fc, body ++ tagBytes (carriedTag pol tag)⟩ (carriedTag pol tag)
        (formatterCore .decrypt pol k ak (st ++ fc) body) s := by
  rw [envelope, List.append_assoc (beBytes 4 _)]
  refine exec_decipher_append hct hk ha ht rfl (countDec_countEnc ?_ [ct] _)
  have htag : (tagBytes (carriedTag pol tag)).length ≤ 12 := by
    rw [tagBytes_carriedTag]
    split <;> simp
  simp only [List.length_cons, List.length_append, length_beBytes]
  omega

end Envelope

/-- Settles O57: what `formatterCore` computes from the body is verified against the carried tag. -/
theorem decipherVerifiesAndRecords : Obligations.DecipherVerifiesAndRecords := by
  intro ct count body fc tin pol s k ak st d t p after hct hk ha ht hafter hp hc hdt
  rw [← tagBytes_carriedTag, List.append_assoc, List.append_assoc] at hafter
  obtain rfl : p = ct :: (count ++ after) := hp
  rw [exec_decipher_append hct hk ha ht hafter hc]
  obtain ⟨tag, htag⟩ := formatterCore_tag .decrypt pol k ak (st ++ fc) body
  rw [← hdt] at htag ⊢
  obtain rfl : t = if authenticates pol then some tag else none := htag
  by_cases hpol : pol = .encryption
  · subst hpol
    exact ⟨fun _ => endDecipher_of_none rfl, fun h => absurd rfl h, fun h => absurd rfl h,
      fun h => absurd rfl h⟩
  · rw [if_pos (authenticates_iff.2 hpol), endDecipher_of_some rfl, carriedTag, if_neg hpol]
    refine ⟨fun h => absurd h hpol, fun _ heq => ?_, fun _ hne hd => ?_, fun _ hne hd => ?_⟩
    · exact endVerified_of_eq heq.symm _ _
    · exact endVerified_of_ne_trace (Ne.symm hne) hd _ _
    · exact endVerified_of_ne (Ne.symm hne) hd _ _

/-- Settles O59: another tag fails the comparison; policy 0x20 makes none. -/
theorem forgedTagsFailAndUntaggedEnvelopesPass :
    Obligations.ForgedTagsFailAndUntaggedEnvelopesPass := by
  intro ct rest fc s k ak st hct hk ha ht hrest
  refine ⟨fun pol tag tag' d hpol hd hdt hne => ?_, ?_⟩
  · have hcarried : carriedTag pol tag' = some tag' := if_neg hpol
    have hexec := exec_decipher_envelope hct hk ha ht pol fc tag' hrest
    rw [hcarried, ← hdt, endDecipher_of_some rfl] at hexec
    exact hexec.trans (endVerified_of_ne (mt Option.some.inj hne) hd _ _)
  · refine ⟨_, length_formatterCore_data .decrypt .encryption k ak (st ++ fc) rest, ?_⟩
    exact (exec_decipher_envelope hct hk ha ht .encryption fc 0 hrest).trans (endDecipher_of_none rfl)

/-! ### Opening what was sealed (R99) -/

/-- Adding the key stream twice gives the bytes back (R83). -/
theorem message_out_message_out (dir dir' : Direction) (pol : Policy) (rk : RoundKeys) (h : Block)
    (nonce : Nonce) (aad aad' p : Bytes) :
    (message (startStream dir' pol rk h nonce aad' none)
      (message (startStream dir pol rk h nonce aad none) p).out).out = p := by
  by_cases hpol : pol = .authentication
  · have hout (dir : Direction) (aad d : Bytes) :
        (message (startStream dir pol rk h nonce aad none) d).out = d :=
      message_out_authentication _ d rfl hpol
    rw [hout, hout]
  · have hlen (dir : Direction) (aad d : Bytes) :
        (message (startStream dir pol rk h nonce aad none) d).out.length = d.length :=
      (length_message_out _ d rfl).trans (Nat.zero_add _)
    have hbyte (dir : Direction) (aad d : Bytes) {n : Nat} (hn : n < d.length) :=
      getElem?_message_out dir pol rk h nonce aad d none hpol hn
    refine List.ext_getElem? fun n => ?_
    by_cases hn : n < p.length
    · have hn' : n < (message (startStream dir pol rk h nonce aad none) p).out.length := by rwa [hlen]
      have hsealed := hbyte dir aad p hn
      rw [List.getElem?_eq_getElem hn'] at hsealed
      rw [hbyte dir' aad' _ hn', Option.some.inj hsealed, BitVec.xor_assoc, BitVec.xor_self,
        BitVec.xor_zero, List.getElem?_eq_getElem hn]
    · rw [List.getElem?_eq_none (by rw [hlen, hlen]; omega), List.getElem?_eq_none (by omega)]

/-- `GCM_Open` of what `GCM_Seal` emits is the data, with the same tag (R91, R99). -/
theorem gcmOneShot_decrypt_encrypt (pol : Policy) (k : CipherKey) (nonce : Nonce) (aad p : Bytes) :
    gcmOneShot .decrypt pol k nonce aad (gcmOneShot .encrypt pol k nonce aad p).1 =
      (p, (gcmOneShot .encrypt pol k nonce aad p).2) := by
  have hout := message_out_message_out .encrypt .decrypt pol k.rk k.h nonce aad aad p
  have hlen : (message (startStream .encrypt pol k.rk k.h nonce aad none) p).out.length = p.length :=
    (length_message_out _ p rfl).trans (Nat.zero_add _)
  have htag : streamTag (message (startStream .decrypt pol k.rk k.h nonce aad none)
        (message (startStream .encrypt pol k.rk k.h nonce aad none) p).out) =
      streamTag (message (startStream .encrypt pol k.rk k.h nonce aad none) p) := by
    rw [streamTag_message, streamTag_message, if_neg nofun, if_pos rfl, hlen]
  exact Prod.ext hout (congrArg (fun t => if authenticates pol then some t else none) htag)

/-- The formatter's two directions are inverse and compute one tag (R91, R98, R99). -/
theorem formatterCore_decrypt_encrypt (pol : Policy) (k : CipherKey) (ak : Block) (nonce : Nonce)
    (p : Bytes) :
    formatterCore .decrypt pol k ak nonce (formatterCore .encrypt pol k ak nonce p).1 =
      (p, (formatterCore .encrypt pol k ak nonce p).2) := by
  cases pol with
  | encryption | authenticatedEncryption => exact gcmOneShot_decrypt_encrypt _ k nonce _ p
  | authentication =>
    have hopen := gcmOneShot_decrypt_encrypt .authentication k nonce
      (policyByte .authentication :: (blockBytes ak ++ p)) []
    have hnil : (gcmOneShot .encrypt .authentication k nonce
        (policyByte .authentication :: (blockBytes ak ++ p)) []).1 = [] :=
      message_out_authentication _ [] rfl rfl
    rw [hnil] at hopen
    exact congrArg (fun dt => (p, dt.2)) hopen

/-- The formatter's tag is one that the policy's envelope carries. -/
theorem exists_formatterCore_snd_eq_carriedTag (dir : Direction) (pol : Policy) (k : CipherKey)
    (ak : Block) (nonce : Nonce) (body : Bytes) :
    ∃ tag, (formatterCore dir pol k ak nonce body).2 = carriedTag pol tag := by
  obtain ⟨tag, htag⟩ := formatterCore_tag dir pol k ak nonce body
  refine ⟨tag, htag.trans ?_⟩
  cases pol <;> rfl

/-- An envelope adds at most 21 bytes to a body that LEN can express (R57). -/
theorem length_envelope_le {ct sp : Byte} {fc : BitVec 32} {data tag : Bytes} (htag : tag.length ≤ 12)
    (hdata : data.length ≤ 65512) : (envelope ct sp fc data tag).length ≤ 65535 := by
  simp only [envelope, List.length_cons, List.length_append, length_beBytes, length_countEnc]
  split_ifs <;> omega

/-- Settles O58: the sealed data opens to the plaintext, and the tag carried is the one computed again. -/
theorem decipherOpensWhatPacketSeals : Obligations.DecipherOpensWhatPacketSeals := by
  intro ct p pol s r hct hsp hk ha ht hp hrk hra hrt
  obtain ⟨k, hk⟩ := Option.ne_none_iff_exists'.1 hk
  obtain ⟨ak, ha⟩ := Option.ne_none_iff_exists'.1 ha
  obtain ⟨st, ht⟩ := Option.ne_none_iff_exists'.1 ht
  obtain ⟨tag, htag⟩ :=
    exists_formatterCore_snd_eq_carriedTag .encrypt pol k ak (st ++ s.fc) p
  have hlen := length_formatterCore_data .encrypt pol k ak (st ++ s.fc) p
  have hopen := formatterCore_decrypt_encrypt pol k ak (st ++ s.fc) p
  rw [htag] at hopen
  generalize hd : (formatterCore .encrypt pol k ak (st ++ s.fc) p).1 = d at hlen hopen
  have hcore : (d, carriedTag pol tag) = formatterCore .encrypt pol k ak (st ++ s.fc) p := by
    rw [← hd, ← htag]
  have hpacket := withCipherCore_of_keys p (fun d t => emit (packetOf s ct d t) s) hsp hk ha ht hcore
  have hexec := exec_decipher_envelope hct (hrk.trans hk) (hra.trans ha) (hrt.trans ht) pol s.fc tag
    (body := d) (by omega)
  rw [hopen] at hexec
  refine ⟨_, _, hpacket, ?_, ?_, rfl⟩
  · refine length_envelope_le ?_ (by omega)
    rw [tagBytes_carriedTag]
    split <;> simp
  · rw [packetOf, hsp, hexec]
    by_cases hpol : pol = .encryption
    · subst hpol
      exact endDecipher_of_none rfl
    · have hcarried : carriedTag pol tag = some tag := if_neg hpol
      rw [endDecipher_of_some hcarried, endVerified_of_eq hcarried _ _, if_neg hpol, emit_next]

/-! ### One nonce twice (R155) -/

/-- Under a policy that encrypts, the data part is the body with the nonce's key stream (R83, R91). -/
theorem getElem?_formatterCore (dir : Direction) {pol : Policy} (hpol : pol ≠ .authentication)
    (k : CipherKey) (ak : Block) (nonce : Nonce) (body : Bytes) {n : Nat} (hn : n < body.length) :
    (formatterCore dir pol k ak nonce body).1[n]? = some (body[n] ^^^
      byteAt (aesEncrypt k.rk (nonce ++ (1#32 + BitVec.ofNat 32 (n / 16 + 1)))) (n % 16)) := by
  cases pol with
  | authentication => exact absurd rfl hpol
  | encryption | authenticatedEncryption =>
    exact getElem?_message_out dir _ k.rk k.h nonce _ body none hpol hn

theorem xor_xor_xor_cancel (a b c : Byte) : (a ^^^ c) ^^^ (b ^^^ c) = a ^^^ b := by
  rw [BitVec.xor_comm b c, BitVec.xor_assoc, ← BitVec.xor_assoc c c, BitVec.xor_self, BitVec.zero_xor]

/-- CIPHER.DATA emits the data part under the current SP and FC (R95). -/
theorem exec_cipherData_of_keys {s : State} {pol : Policy} {k : CipherKey} {ak : Block} {st : Title}
    (hsp : s.sp = policyByte pol) (hk : s.key = some k) (ha : s.ak = some ak) (ht : s.st = some st)
    (p : Bytes) : exec (.cipherData 0x00 p) s =
      .next (s.complete .ok (formatterCore .encrypt pol k ak (st ++ s.fc) p).1) := by
  rw [exec_cipherData_zero, withCipherCore_of_keys p _ hsp hk ha ht Prod.mk.eta, emit_next]

/-- Settles O60: the key stream of the nonce is in both data parts and cancels. -/
theorem nonceReuseLeaksThePlaintextXor : Obligations.NonceReuseLeaksThePlaintextXor := by
  intro p q pol s hsp hpol hk ha ht hlen
  obtain ⟨k, hk⟩ := Option.ne_none_iff_exists'.1 hk
  obtain ⟨ak, ha⟩ := Option.ne_none_iff_exists'.1 ha
  obtain ⟨st, ht⟩ := Option.ne_none_iff_exists'.1 ht
  refine ⟨_, _, exec_cipherData_of_keys hsp hk ha ht p,
    exec_cipherData_of_keys (s := s.complete .ok _) hsp hk ha ht q, List.ext_getElem? fun n => ?_⟩
  have hdata (d : Bytes) := length_formatterCore_data .encrypt pol k ak (st ++ s.fc) d
  simp only [xorBytes, List.getElem?_zipWith, complete_fc]
  by_cases hn : n < p.length
  · have hn' : n < q.length := by omega
    rw [getElem?_formatterCore .encrypt hpol k ak _ p hn, getElem?_formatterCore .encrypt hpol k ak _ q hn',
      List.getElem?_eq_getElem hn, List.getElem?_eq_getElem hn']
    exact congrArg some (xor_xor_xor_cancel _ _ _)
  · rw [List.getElem?_eq_none (by rw [hdata]; omega), List.getElem?_eq_none (Nat.not_lt.1 hn)]

end Sys2Proof.Machine
end

section
/-! PROOFS. The statement that the formatter is the stream (43_dlms_formatter R91, R98; 30_encoding R60). -/

namespace Sys2Proof.Machine

/-! ### What the formatter gives its stream (R91) -/

/-- The AAD of the formatter's stream (R91). -/
def formatterAad : Policy → Block → Bytes → Bytes
  | .authentication, ak, p => [0x10] ++ blockBytes ak ++ p
  | .encryption, ak, _ => blockBytes ak
  | .authenticatedEncryption, ak, _ => [0x30] ++ blockBytes ak

/-- The data of the formatter's stream (R91). -/
def formatterData (pol : Policy) (p : Bytes) : Bytes := if pol = .authentication then [] else p

/-- What passes beside the formatter's stream (R91). -/
def formatterBypass (pol : Policy) (p : Bytes) : Bytes := if pol = .authentication then p else []

theorem length_formatterData_le (pol : Policy) (p : Bytes) : (formatterData pol p).length ≤ p.length := by
  unfold formatterData
  split
  · exact Nat.zero_le _
  · exact le_rfl

/-- The formatter's stream, written as a message (R91). -/
def formatterMessage (dir : Direction) (pol : Policy) (k : CipherKey) (ak : Block) (nonce : Nonce)
    (p : Bytes) : Stream :=
  message (startStream dir pol k.rk k.h nonce (formatterAad pol ak p) none) (formatterData pol p)

/-- The formatter's data part and tag are those of its stream (R91, R98). -/
theorem formatterCore_eq_message (dir : Direction) (pol : Policy) (k : CipherKey) (ak : Block)
    (nonce : Nonce) (p : Bytes) : formatterCore dir pol k ak nonce p =
      (formatterBypass pol p ++ (formatterMessage dir pol k ak nonce p).out,
        if authenticates pol then some (streamTag (formatterMessage dir pol k ak nonce p))
        else none) := by
  cases pol with
  | authentication =>
    have hnil : (formatterMessage dir .authentication k ak nonce p).out = [] :=
      message_out_authentication _ [] rfl rfl
    rw [hnil, formatterBypass, if_pos rfl, List.append_nil]
    rfl
  | encryption | authenticatedEncryption => rfl

/-! ### The expected tag is only kept (R82) -/

theorem processBlock_withTagIn (t : Stream) (blk : Bytes) (tagIn : Option Tag) :
    processBlock { t with tagIn := tagIn } blk = { processBlock t blk with tagIn := tagIn } := by
  cases hpol : t.pol <;> simp [processBlock, absorbBlock, hpol]

theorem foldl_processBlock_withTagIn (bs : List Bytes) (t : Stream) (tagIn : Option Tag) :
    bs.foldl processBlock { t with tagIn := tagIn } =
      { bs.foldl processBlock t with tagIn := tagIn } := by
  induction bs generalizing t with
  | nil => rfl
  | cons b bs ih => rw [List.foldl_cons, processBlock_withTagIn, ih, List.foldl_cons]

/-- The expected tag is no input of a message (R83, R88). -/
theorem message_withTagIn {t : Stream} (h : t.buf = []) (d : Bytes) (tagIn : Option Tag) :
    message { t with tagIn := tagIn } d = { message t d with tagIn := tagIn } := by
  rw [message, message, flushStream_writeStream t d h, flushStream_writeStream { t with tagIn := tagIn } d h,
    foldl_processBlock_withTagIn]

/-! ### GCMINIT, GCMWRITE and GCMFINAL in a row (R60) -/

theorem execAll_cons_of_next {i : Instr} {s t : State} (h : exec i s = .next t) (is : List Instr) :
    execAll (i :: is) s = execAll is t := by
  rw [execAll, h]

theorem execAll_singleton (i : Instr) (s : State) : execAll [i] s = exec i s := by
  rw [execAll]
  cases exec i s <;> rfl

/-- The state after a GCMINIT and a GCMWRITE that left the stream `x`. -/
def State.written (s : State) (x : Stream) : State :=
  { s with err := .ok, stream := some x, responses := s.responses ++ [⟨.ok, []⟩, ⟨.ok, []⟩] }

/-- After GCMINIT a write of as much as LEN can express is within the limits (R85). -/
theorem not_overLimit_startStream (dir : Direction) (pol : Policy) (rk : RoundKeys) (h : Block)
    (nonce : Nonce) (aad : Bytes) (tagIn : Option Tag) {data : Bytes} (hd : data.length ≤ 65535) :
    ¬ OverLimit (startStream dir pol rk h nonce aad tagIn) data := by
  have hcap := outbufCap_ge
  rintro (hover | ⟨-, hover⟩) <;>
    simp only [startStream, List.nil_append, Nat.zero_add] at hover <;> omega

/-- A run of GCMINIT, GCMWRITE and GCMFINAL is its GCMFINAL in the written state (R60). -/
theorem execAll_gcm {init : Instr} {s : State} {dir : Direction} {pol : Policy} {rk : RoundKeys}
    {h : Block} {nonce : Nonce} {aad data : Bytes} {tagIn : Option Tag}
    (hinit : exec init s =
      emit [] { s with stream := some (startStream dir pol rk h nonce aad tagIn) })
    (hd : data.length ≤ 65535) :
    execAll [init, .gcmwrite 0x00 data, .gcmfinal 0x00 []] s = exec (.gcmfinal 0x00 [])
      (s.written (writeStream (startStream dir pol rk h nonce aad tagIn) data)) := by
  have hwrite := exec_gcmwrite_of_not_overLimit
    (s := ({ s with stream := some (startStream dir pol rk h nonce aad tagIn) }).complete .ok []) rfl
    (not_overLimit_startStream dir pol rk h nonce aad tagIn hd)
  rw [execAll_cons_of_next hinit, execAll_cons_of_next hwrite, execAll_singleton]
  congr 1
  simp [State.complete, State.written]

/-- Ending a written stream is answering a third time, where no stream was before (R29, R60). -/
theorem endStream_written_complete {s : State} (hs : s.stream = none) (x : Stream) (e : ErrCode)
    (out : Bytes) : (endStream (s.written x)).complete e out =
      { s with err := e, responses := s.responses ++ [⟨.ok, []⟩, ⟨.ok, []⟩, ⟨e, out⟩] } := by
  simp [State.complete, State.written, endStream, hs]

/-- GCMFINAL of an encrypt stream appends the tag that the policy has (R88). -/
theorem exec_gcmfinal_of_dir_encrypt {s : State} {x : Stream} (hs : s.stream = some x)
    (hd : x.dir = .encrypt) : exec (.gcmfinal 0x00 []) s =
      emit ((flushStream x).out ++
        tagBytes (if authenticates x.pol then some (streamTag (flushStream x)) else none))
        (endStream s) := by
  by_cases hpol : x.pol = .encryption
  · rw [exec_gcmfinal_of_encryption hs hpol, hpol]
    exact congrArg (emit · (endStream s)) (List.append_nil _).symm
  · rw [exec_gcmfinal_of_encrypt hs hpol hd, if_pos (authenticates_iff.2 hpol), tagBytes]

/-- GCMFINAL of a decrypt stream that authenticates verifies the expected tag (R88, R89). -/
theorem exec_gcmfinal_of_dir_decrypt {s : State} {x : Stream} (hs : s.stream = some x)
    (hpol : x.pol ≠ .encryption) (hd : x.dir = .decrypt) : exec (.gcmfinal 0x00 []) s =
      endVerified (streamTag (flushStream x)) x.tagIn (flushStream x).out (endStream s) (endStream s) := by
  have hdiag : diag (endStream s) = diag s := rfl
  rw [endVerified, hdiag]
  cases hv : tagVerdict (streamTag (flushStream x)) x.tagIn (diag s) with
  | some mm => exact exec_gcmfinal_of_verdict_some hs hpol hd hv
  | none => exact exec_gcmfinal_of_verdict_none hs hpol hd hv

section Written
variable (t : Stream) (p : Bytes)

@[simp] theorem writeStream_dir : (writeStream t p).dir = t.dir := (foldl_processBlock_frame _ t).1

@[simp] theorem writeStream_pol : (writeStream t p).pol = t.pol := (foldl_processBlock_frame _ t).2.1

@[simp] theorem writeStream_tagIn : (writeStream t p).tagIn = t.tagIn :=
  (foldl_processBlock_frame _ t).2.2.2.2.2.2.2.2

end Written

section Run
variable {s : State} {k : CipherKey} (hs : s.stream = none) (hk : s.key = some k) (pol : Policy)
  (nonce : Nonce) (tag : Tag) (aad : Bytes) {data : Bytes} (hd : data.length ≤ 65535)
include hs hk hd

/-- `GCM.E` answers the output and the tag of its message (R60). -/
theorem execAll_gcmE {x : Stream}
    (hx : x = message (startStream .encrypt pol k.rk k.h nonce aad none) data) :
    execAll (expandPseudo (.gcmE (policyByte pol) (beBytes 12 nonce.toNat) aad data)) s = .next { s with
      err := .ok
      responses := s.responses ++ [⟨.ok, []⟩, ⟨.ok, []⟩,
        ⟨.ok, x.out ++ tagBytes (if authenticates pol then some (streamTag x) else none)⟩] } := by
  subst hx
  have hinit : exec (.gcminitE (policyByte pol) (beBytes 12 nonce.toNat ++ aad)) s =
      emit [] { s with stream := some (startStream .encrypt pol k.rk k.h nonce aad none) } :=
    initStream_of_key hs hk nonce (tagIn := none) rfl aad
  rw [expandPseudo, execAll_gcm hinit hd, exec_gcmfinal_of_dir_encrypt rfl (writeStream_dir _ _),
    emit_next, endStream_written_complete hs, writeStream_pol]
  rfl

/-- `GCM.D` is its GCMFINAL in the written state (R60). -/
theorem execAll_gcmD : execAll (expandPseudo (.gcmD (policyByte pol) (beBytes 12 nonce.toNat)
      (beBytes 12 tag.toNat) aad data)) s = exec (.gcmfinal 0x00 [])
        (s.written (writeStream (startStream .decrypt pol k.rk k.h nonce aad (carriedTag pol tag)) data)) := by
  have hfield : (if policyByte pol = 0x20 then [] else beBytes 12 tag.toNat) =
      tagBytes (carriedTag pol tag) := by
    rw [tagBytes_carriedTag]
    cases pol <;> rfl
  have hinit := initStream_of_key hs hk nonce (length_tagBytes_decrypt pol tag) aad
  rw [expandPseudo, hfield, List.append_assoc]
  exact execAll_gcm hinit hd

variable {x : Stream} (hx : x = message (startStream .decrypt pol k.rk k.h nonce aad none) data)
include hx

/-- Under 0x20 `GCM.D` answers the output of its message (R60, R88). -/
theorem execAll_gcmD_of_encryption (hpol : pol = .encryption) :
    ∃ y : Stream, execAll (expandPseudo (.gcmD (policyByte pol) (beBytes 12 nonce.toNat)
      (beBytes 12 tag.toNat) aad data)) s = emit x.out (endStream (s.written y)) := by
  have hflush : flushStream (writeStream
      (startStream .decrypt pol k.rk k.h nonce aad (carriedTag pol tag)) data) =
      { x with tagIn := carriedTag pol tag } :=
    hx ▸ message_withTagIn (t := startStream .decrypt pol k.rk k.h nonce aad none) rfl data _
  refine ⟨writeStream (startStream .decrypt pol k.rk k.h nonce aad (carriedTag pol tag)) data, ?_⟩
  rw [execAll_gcmD hs hk pol nonce tag aad hd,
    exec_gcmfinal_of_encryption rfl ((writeStream_pol _ _).trans hpol), hflush]

/-- Under the other policies `GCM.D` verifies the tag of its message (R60, R88, R89). -/
theorem execAll_gcmD_of_authenticates (hpol : pol ≠ .encryption) :
    ∃ y : Stream, execAll (expandPseudo (.gcmD (policyByte pol) (beBytes 12 nonce.toNat)
      (beBytes 12 tag.toNat) aad data)) s =
        endVerified (streamTag x) (carriedTag pol tag) x.out (endStream (s.written y))
          (endStream (s.written y)) := by
  have hflush : flushStream (writeStream
      (startStream .decrypt pol k.rk k.h nonce aad (carriedTag pol tag)) data) =
      { x with tagIn := carriedTag pol tag } :=
    hx ▸ message_withTagIn (t := startStream .decrypt pol k.rk k.h nonce aad none) rfl data _
  refine ⟨writeStream (startStream .decrypt pol k.rk k.h nonce aad (carriedTag pol tag)) data, ?_⟩
  rw [execAll_gcmD hs hk pol nonce tag aad hd, exec_gcmfinal_of_dir_decrypt rfl (by rwa [writeStream_pol])
    (writeStream_dir _ _), writeStream_tagIn, hflush]
  rfl

end Run

/-- Settles O52: both sides are one message, whose tag both append, or verify with one verdict. -/
theorem formatterIsTheStream : Obligations.FormatterIsTheStream := by
  intro pol k ak st s p aad data pass hk ha ht hs hp haad hdata hpass
  obtain rfl : aad = formatterAad pol ak p := by
    rw [haad]
    cases pol <;> rfl
  obtain rfl : data = formatterData pol p := hdata
  obtain rfl : pass = formatterBypass pol p := hpass
  have hlen : (formatterData pol p).length ≤ 65535 :=
    (length_formatterData_le pol p).trans (by omega)
  refine ⟨fun hsp => ?_, fun ct fc tag tagB hct htagB => ?_⟩
  · have hcore := formatterCore_eq_message .encrypt pol k ak (st ++ s.fc) p
    refine ⟨_, ?_, execAll_gcmE hs hk pol (st ++ s.fc) _ hlen rfl⟩
    rw [exec_cipherDatatag_zero, withCipherCore_of_keys p _ hsp hk ha ht hcore.symm, emit_next,
      List.append_assoc]
    rfl
  · obtain rfl : tagB = tagBytes (carriedTag pol tag) := htagB.trans (tagBytes_carriedTag pol tag).symm
    have hexec := exec_decipher_envelope hct hk ha ht pol fc tag hp
    rw [formatterCore_eq_message] at hexec
    by_cases hpol : pol = .encryption
    · obtain ⟨y, hrun⟩ := execAll_gcmD_of_encryption hs hk pol (st ++ fc) tag (formatterAad pol ak p)
        hlen rfl hpol
      rw [endDecipher_of_none (by rw [hpol]; rfl)] at hexec
      exact ⟨_, _, _, hexec, hrun, rfl, rfl, .inl rfl, List.append_assoc _ _ _, rfl⟩
    · obtain ⟨y, hrun⟩ := execAll_gcmD_of_authenticates hs hk pol (st ++ fc) tag (formatterAad pol ak p)
        hlen (x := formatterMessage .decrypt pol k ak (st ++ fc) p) rfl hpol
      rw [endDecipher_of_some (if_pos (authenticates_iff.2 hpol))] at hexec
      cases hv : tagVerdict (streamTag (formatterMessage .decrypt pol k ak (st ++ fc) p))
        (carriedTag pol tag) (diag s) with
      | some mm =>
        have hopen := hexec.trans (endVerified_of_verdict_some hv _ _)
        have hfinal := hrun.trans (endVerified_of_verdict_some 
          (rejected := endStream (s.written y)) hv _ _)
        exact ⟨_, _, _, hopen, hfinal, rfl, rfl, .inl rfl, List.append_assoc _ _ _, rfl⟩
      | none =>
        have hopen := hexec.trans (endVerified_of_verdict_none hv _ _)
        have hfinal := hrun.trans (endVerified_of_verdict_none 
          (rejected := endStream (s.written y)) hv _ _)
        exact ⟨_, _, _, hopen, hfinal, rfl, rfl, .inr rfl, List.append_assoc _ _ _, rfl⟩

end Sys2Proof.Machine
end

section
/-! PROOFS. The statements that compare runs (60_exceptions R130, R131; 70_reset_and_hazards R152, R160):
unread responses, the registers beside a stream, and CTRL.DIAG. -/

namespace Sys2Proof.Machine

/-! ### The commands that verify a tag, in two states (R88, R98) -/

/-- With the same stream GCMFINAL makes the same checks, and then ends the stream with the same output or
verifies the same tag (R88). -/
theorem exec_gcmfinal_pair (a : Byte) (p : Bytes) {s u : State} (h : u.stream = s.stream) :
    (∃ e, e ≠ .invalidTag ∧ exec (.gcmfinal a p) s = raise e s ∧ exec (.gcmfinal a p) u = raise e u) ∨
      (∃ out, exec (.gcmfinal a p) s = emit out (endStream s) ∧
        exec (.gcmfinal a p) u = emit out (endStream u)) ∨
      ∃ tag expected out,
        exec (.gcmfinal a p) s = endVerified tag expected out (endStream s) (endStream s) ∧
        exec (.gcmfinal a p) u = endVerified tag expected out (endStream u) (endStream u) := by
  simp only [exec, execGcmfinal, h]
  split
  · exact .inl ⟨.illegalCommand, nofun, rfl, rfl⟩
  split
  · exact .inl ⟨.streamState, nofun, rfl, rfl⟩
  split
  · exact .inl ⟨.badOperandLength, nofun, rfl, rfl⟩
  split
  · exact .inr (.inl ⟨_, rfl, rfl⟩)
  · exact .inr (.inl ⟨_, rfl, rfl⟩)
  · exact .inr (.inr ⟨_, _, _, rfl, rfl⟩)

/-- The errors of DECIPHER other than those of its ARG and of the tag (R98). -/
def decipherErrors : List ErrCode :=
  [.unknownCommand, .malformedEnvelope, .unsupportedSecurityPolicy, .keyNotLoaded]

theorem parseEnvelope_error_mem {p : Bytes} {e : ErrCode} (h : parseEnvelope p = .error e) :
    e ∈ decipherErrors := by
  unfold parseEnvelope at h
  repeat' split at h
  all_goals cases h
  all_goals decide

/-- With the same keys and title DECIPHER makes the same checks, and then ends with the same data and
tags (R98). -/
theorem exec_decipher_zero_pair (p : Bytes) {s u : State} (hk : u.key = s.key) (ha : u.ak = s.ak)
    (ht : u.st = s.st) :
    (∃ e ∈ decipherErrors, exec (.decipher 0x00 p) s = raise e s ∧
      exec (.decipher 0x00 p) u = raise e u) ∨
      ∃ v expected dt, exec (.decipher 0x00 p) s = endDecipher v expected dt s ∧
        exec (.decipher 0x00 p) u = endDecipher v expected dt u := by
  have refused {e : ErrCode} (hs : exec (.decipher 0x00 p) s = raise e s)
      (hu : exec (.decipher 0x00 p) u = raise e u) (he : e ∈ decipherErrors) :
      ∃ e ∈ decipherErrors, exec (.decipher 0x00 p) s = raise e s ∧
        exec (.decipher 0x00 p) u = raise e u := ⟨e, he, hs, hu⟩
  cases hv : parseEnvelope p with
  | error e =>
    exact .inl (refused (exec_decipher_of_parse_error hv s) (exec_decipher_of_parse_error hv u)
      (parseEnvelope_error_mem hv))
  | ok v =>
    by_cases hsp : v.sp ∈ ([0x10, 0x20, 0x30] : Bytes)
    swap
    · exact .inl (refused (exec_decipher_of_no_policy hv hsp s) (exec_decipher_of_no_policy hv hsp u)
        (by decide))
    obtain ⟨pol, hpol⟩ := mem_policyBytes_iff.1 hsp
    by_cases hkeys : s.key = none ∨ s.ak = none ∨ s.st = none
    · exact .inl (refused (exec_decipher_of_no_keys hv hpol hkeys)
        (exec_decipher_of_no_keys hv hpol (by rwa [hk, ha, ht])) (by decide))
    simp only [not_or, ← ne_eq, Option.ne_none_iff_exists'] at hkeys
    obtain ⟨⟨k, hsk⟩, ⟨ak, hsa⟩, ⟨st, hst⟩⟩ := hkeys
    have huk := hk.trans hsk
    have hua := ha.trans hsa
    have hut := ht.trans hst
    cases hsplit : splitTag pol v.rest with
    | none =>
      exact .inl (refused (exec_decipher_of_no_room hv hpol hsk hsa hst hsplit)
        (exec_decipher_of_no_room hv hpol huk hua hut hsplit) (by decide))
    | some bt =>
      exact .inr ⟨v, bt.2, _, exec_decipher_of_parts hv hpol hsk hsa hst hsplit,
        exec_decipher_of_parts hv hpol huk hua hut hsplit⟩

/-- The same for every ARG. -/
theorem exec_decipher_pair (a : Byte) (p : Bytes) {s u : State} (hk : u.key = s.key) (ha : u.ak = s.ak)
    (ht : u.st = s.st) :
    (∃ e, e ≠ .invalidTag ∧ exec (.decipher a p) s = raise e s ∧ exec (.decipher a p) u = raise e u) ∨
      ∃ v expected dt, exec (.decipher a p) s = endDecipher v expected dt s ∧
        exec (.decipher a p) u = endDecipher v expected dt u := by
  by_cases ha0 : a = 0x00
  · subst ha0
    refine (exec_decipher_zero_pair p hk ha ht).imp_left ?_
    rintro ⟨e, he, hs, hu⟩
    refine ⟨e, ?_, hs, hu⟩
    rintro rfl
    exact absurd he (by decide)
  · have harg := exec_of_argAccepted_false (i := .decipher a p) (beq_false_of_ne ha0)
    exact .inl ⟨.illegalCommand, nofun, harg s, harg u⟩

section Pair
variable {R : State → State → Prop} {s u : State}

/-- States with the same DIAG come to the same verdict (R89). -/
theorem Lockstep.endVerified {s' u' : State} (hd : diag u = diag s) (tag : Tag)
    (expected : Option Tag) (out : Bytes)
    (haccepted : ∀ mm, R { s' with tagmm := mm } { u' with tagmm := mm })
    (hrejected : R { s with tagmm := false } { u with tagmm := false }) :
    Lockstep R (endVerified tag expected out s' s) (endVerified tag expected out u' u) := by
  cases hv : tagVerdict tag expected (diag s) with
  | some mm =>
    rw [endVerified_of_verdict_some hv, endVerified_of_verdict_some (hd ▸ hv)]
    exact .emit _ (haccepted mm)
  | none =>
    rw [endVerified_of_verdict_none hv, endVerified_of_verdict_none (hd ▸ hv)]
    exact .raise _ hrejected

/-- GCMFINAL reads the stream and DIAG alone (R88, R89). -/
theorem Lockstep.gcmfinal (a : Byte) (p : Bytes) (hs : u.stream = s.stream) (hd : diag u = diag s)
    (h : R s u) (hend : R (endStream s) (endStream u))
    (hverified : ∀ mm, R { endStream s with tagmm := mm } { endStream u with tagmm := mm }) :
    Lockstep R (exec (.gcmfinal a p) s) (exec (.gcmfinal a p) u) := by
  obtain ⟨e, -, h₁, h₂⟩ | ⟨out, h₁, h₂⟩ | ⟨tag, expected, out, h₁, h₂⟩ := exec_gcmfinal_pair a p hs <;>
    rw [h₁, h₂]
  · exact .raise _ h
  · exact .emit _ hend
  · exact .endVerified (s := endStream s) (u := endStream u) hd tag expected out hverified
      (hverified false)

/-- DECIPHER reads the keys, the title and DIAG alone (R89, R98). -/
theorem Lockstep.decipher (a : Byte) (p : Bytes) (hk : u.key = s.key) (ha : u.ak = s.ak)
    (ht : u.st = s.st) (hd : diag u = diag s) (h : R s u)
    (hrx : ∀ sp fc, R { s with rxsp := sp, rxfc := fc } { u with rxsp := sp, rxfc := fc })
    (hverified : ∀ mm sp fc, R { s with tagmm := mm, rxsp := sp, rxfc := fc }
      { u with tagmm := mm, rxsp := sp, rxfc := fc })
    (hrejected : R { s with tagmm := false } { u with tagmm := false }) :
    Lockstep R (exec (.decipher a p) s) (exec (.decipher a p) u) := by
  obtain ⟨e, -, h₁, h₂⟩ | ⟨v, expected, dt, h₁, h₂⟩ := exec_decipher_pair a p hk ha ht <;> rw [h₁, h₂]
  · exact .raise _ h
  · cases hdt : dt.2 with
    | none =>
      rw [endDecipher_of_none hdt, endDecipher_of_none hdt]
      exact .emit _ (hrx _ _)
    | some tag =>
      rw [endDecipher_of_some hdt, endDecipher_of_some hdt]
      exact .endVerified hd tag expected dt.1 (fun mm => hverified mm _ _) hrejected

/-- GCMWRITE reads the stream alone (R84). -/
theorem Lockstep.gcmwrite (a : Byte) (p : Bytes) (hs : u.stream = s.stream) (h : R s u)
    (hput : ∀ x, R { s with stream := x } { u with stream := x }) :
    Lockstep R (exec (.gcmwrite a p) s) (exec (.gcmwrite a p) u) := by
  refine .ite (.raise _ h) ?_
  rw [hs]
  cases s.stream with
  | none => exact .raise _ h
  | some x => exact .ite (.raise _ (hput none)) (.ite (.raise _ (hput none)) (.emit _ (hput _)))

/-- GCMINIT reads the stream and the block key alone (R81, R82). -/
theorem Lockstep.initStream (dir : Direction) (a : Byte) (p : Bytes) (hs : u.stream = s.stream)
    (hk : u.key = s.key) (h : R s u)
    (hput : ∀ x, R { s with stream := x } { u with stream := x }) :
    Lockstep R (initStream dir a p s) (initStream dir a p u) := by
  unfold Machine.initStream
  rw [hs]
  cases s.stream with
  | some x => exact .raise _ h
  | none =>
    dsimp only
    cases policyOf a with
    | none => exact .raise _ h
    | some pol => exact .ite (.raise _ h) (.needSameKey h hk fun k => .emit _ (hput _))

/-- The formatter's common checks read SP, FC, the keys and the title alone (R91, R93). -/
theorem Lockstep.withCipherCore (p : Bytes) (h : R s u) (hsp : u.sp = s.sp) (hfc : u.fc = s.fc)
    (hk : u.key = s.key) (ha : u.ak = s.ak) (ht : u.st = s.st)
    {f g : Bytes → Option Tag → Result} (hfg : ∀ d t, Lockstep R (f d t) (g d t)) :
    Lockstep R (withCipherCore s p f) (withCipherCore u p g) := by
  unfold Machine.withCipherCore
  rw [hsp, hfc]
  cases policyOf s.sp with
  | none => exact .raise _ h
  | some pol => exact .needSameKeys h hk ha ht fun k a t => hfg _ _

end Pair

/-! ### The registers beside a stream (R152) -/

/-- A state with other keys, title, policy, counter and receive registers. -/
def State.withRegisters (k : Option CipherKey) (ak : Option Block) (st : Option Title) (sp rxsp : Byte)
    (fc rxfc : BitVec 32) (s : State) : State :=
  { s with key := k, ak := ak, st := st, sp := sp, fc := fc, rxsp := rxsp, rxfc := rxfc }

/-- What completes in lockstep with a state under an update that the outcome and the response do not
show completes there in the updated state. -/
theorem exec_of_lockstep_map {f : State → State} {i : Instr} {s t : State}
    (hf : ∀ (s : State) e out, f (s.complete e out) = (f s).complete e out)
    (h : Lockstep (fun s u => u = f s) (exec i s) (exec i (f s))) (hn : exec i s = .next t) :
    exec i (f s) = .next (f t) := by
  obtain ⟨s', _, e, out, rfl, h₁, h₂⟩ := h
  obtain rfl : s'.complete e out = t := by rw [h₁] at hn; injection hn
  rw [hf]
  exact h₂

/-- Settles O18: both commands read the stream alone, GCMFINAL also DIAG. -/
theorem streamIgnoresTheRegisters : Obligations.StreamIgnoresTheRegisters := by
  intro a p i s hi
  obtain ⟨t, -, hn, -⟩ := oneResponsePerCommand i s
  refine ⟨t, hn, fun k ak st sp rxsp fc rxfc => ?_⟩
  refine exec_of_lockstep_map (f := State.withRegisters k ak st sp rxsp fc rxfc) (fun _ _ _ => rfl) ?_ hn
  simp only [List.mem_cons, List.not_mem_nil, or_false] at hi
  rcases hi with rfl | rfl
  · exact .gcmwrite a p rfl rfl fun _ => rfl
  · exact .gcmfinal a p rfl rfl rfl rfl fun _ => rfl

/-! ### Unread responses and CTRL (R130, R160) -/

/-- The commands that read or write CTRL (R22, R89). -/
def usesCtrl : Instr → Bool
  | .ldctrl _ _ | .rdreg _ _ | .gcmfinal _ _ | .decipher _ _ => true
  | _ => false

/-- `u` is `t` with CTRL under `g` and the responses `old`, and `t` has the responses of `s` still. -/
def Beside (g : BitVec 8 → BitVec 8) (old : List Response) (s t u : State) : Prop :=
  u = { t with ctrl := g t.ctrl, responses := old } ∧ t.responses = s.responses

section Beside
variable (g : BitVec 8 → BitVec 8) (old : List Response) (s : State)

/-- A command does the same whatever responses are unread, and one that does not use CTRL whatever CTRL is
(R130, R160). -/
theorem exec_beside {i : Instr} (h : g = id ∨ usesCtrl i = false) :
    Lockstep (Beside g old s) (exec i s) (exec i { s with ctrl := g s.ctrl, responses := old }) := by
  have same : Beside g old s s { s with ctrl := g s.ctrl, responses := old } := ⟨rfl, rfl⟩
  cases i with
  | nop a p | ldbk a p | ldak a p | ldst a p | ldfc a p | reset a p | gcmabort a p =>
    exact .ite (.raise _ same) (.ite (.raise _ same) (.emit _ ⟨rfl, rfl⟩))
  | ldsp a p => exact .ite (.raise _ same) (.emit _ ⟨rfl, rfl⟩)
  | aesenc a p =>
    exact .ite (.raise _ same) (.ite (.raise _ same) (.needSameKey same rfl fun k => .emit _ same))
  | ghash a p => exact .ite (.raise _ same) (.needSameKey same rfl fun k => .emit _ same)
  | gcminitE a p => exact .initStream .encrypt a p rfl rfl same fun _ => ⟨rfl, rfl⟩
  | gcminitD a p => exact .initStream .decrypt a p rfl rfl same fun _ => ⟨rfl, rfl⟩
  | gcmwrite a p => exact .gcmwrite a p rfl same fun _ => ⟨rfl, rfl⟩
  | cipherPacket a p =>
    exact .withCipherCore p same rfl rfl rfl rfl rfl fun d t => .emit _ same
  | cipherTag a p | cipherData a p | cipherDatatag a p =>
    exact .ite (.raise _ same) (.withCipherCore p same rfl rfl rfl rfl rfl fun d t => .emit _ same)
  | secenc a p =>
    exact .ite (.emit _ same) (.withCipherCore p same rfl rfl rfl rfl rfl fun d t =>
      .ite (.raise _ same) (.emit _ ⟨rfl, rfl⟩))
  | ldctrl a p =>
    obtain rfl : g = id := h.resolve_right nofun
    exact .ite (.raise _ same) (.ite (.raise _ same) (.emit _ ⟨rfl, rfl⟩))
  | rdreg a p =>
    obtain rfl : g = id := h.resolve_right nofun
    have hreg : registerBytes { s with ctrl := id s.ctrl, responses := old } a.toNat =
        registerBytes s a.toNat := rfl
    refine .ite (.raise _ same) (.ite (.raise _ same) ?_)
    rw [hreg]
    cases registerBytes s a.toNat with
    | some b => exact .emit _ same
    | none => exact .raise _ same
  | gcmfinal a p =>
    obtain rfl : g = id := h.resolve_right nofun
    exact .gcmfinal a p rfl rfl same ⟨rfl, rfl⟩ fun _ => ⟨rfl, rfl⟩
  | decipher a p =>
    obtain rfl : g = id := h.resolve_right nofun
    exact .decipher a p rfl rfl rfl rfl same (fun _ _ => ⟨rfl, rfl⟩) (fun _ _ _ => ⟨rfl, rfl⟩) ⟨rfl, rfl⟩

end Beside

/-- What a step or a command answers does not depend on the unread responses, which it leaves in front of
its own (R160). -/
def IgnoresResponses (f : State → Result) (s : State) : Prop :=
  ∃ (t : State) (new : List Response), f s = .next t ∧ t.responses = s.responses ++ new ∧
    ∀ old : List Response, f { s with responses := old } = .next { t with responses := old ++ new }

theorem IgnoresResponses.of_eq {f g : State → Result} {s : State} (hg : IgnoresResponses g s)
    (h : ∀ old, f { s with responses := old } = g { s with responses := old }) :
    IgnoresResponses f s := by
  obtain ⟨t, new, hn, hr, hold⟩ := hg
  exact ⟨t, new, (h s.responses).trans hn, hr, fun old => (h old).trans (hold old)⟩

theorem next_ignoresResponses (s : State) : IgnoresResponses .next s :=
  ⟨s, [], rfl, (List.append_nil _).symm, fun old => by rw [List.append_nil]⟩

theorem hardwareReset_ignoresResponses (rest : List Input) (s : State) :
    IgnoresResponses (fun s => .next (hardwareReset s rest)) s :=
  ⟨hardwareReset s rest, [], rfl, (List.append_nil _).symm, fun old => by rw [List.append_nil]; rfl⟩

theorem exec_ignoresResponses (i : Instr) (s : State) : IgnoresResponses (exec i) s := by
  obtain ⟨t, r, hn, hr, -⟩ := oneResponsePerCommand i s
  refine ⟨t, [r], hn, hr, fun old => ?_⟩
  obtain ⟨s', _, e, out, ⟨rfl, hs'⟩, h₁, h₂⟩ := exec_beside id old s (.inl rfl) (i := i)
  obtain rfl : s'.complete e out = t := by rw [h₁] at hn; injection hn
  obtain rfl : ⟨e, out⟩ = r := by
    rw [complete_responses, hs'] at hr
    exact List.singleton_inj.1 (List.append_cancel_left hr)
  exact h₂

theorem runCommand_ignoresResponses (bs : Bytes) (s : State) : IgnoresResponses (runCommand bs) s := by
  unfold runCommand
  cases decode bs with
  | ok i => exact exec_ignoresResponses i.1 s
  | error e =>
    cases e with
    | incomplete => exact next_ignoresResponses s
    | undefinedOpcode opc => exact ⟨_, [⟨.illegalCommand, []⟩], rfl, rfl, fun _ => rfl⟩

theorem runArrived_ignoresResponses (bs : Bytes) (rest : List Input) (s : State) :
    IgnoresResponses (runArrived bs rest) s := by
  match rest with
  | [] => exact runCommand_ignoresResponses bs { s with port := [] }
  | .byte b :: rest => exact runCommand_ignoresResponses bs { s with port := .byte b :: rest }
  | .reset :: rest =>
    cases hc : Config.resetDiscards s.resetRaces with
    | true =>
      have hreset : IgnoresResponses
          (fun s => .next (hardwareReset { s with resetRaces := s.resetRaces + 1 } rest)) s :=
        hardwareReset_ignoresResponses rest { s with resetRaces := s.resetRaces + 1 }
      exact hreset.of_eq fun old => if_pos hc
    | false =>
      have hrun : IgnoresResponses (fun s => runCommand bs
          { s with port := .reset :: rest, resetRaces := s.resetRaces + 1 }) s :=
        runCommand_ignoresResponses bs
          { s with port := .reset :: rest, resetRaces := s.resetRaces + 1 }
      exact hrun.of_eq fun old => if_neg (Bool.eq_false_iff.1 hc)

/-- Settles O12: what a step does is found on the command port; a command's lockstep does the rest. -/
theorem unreadResponsesChangeNothing : Obligations.UnreadResponsesChangeNothing := by
  intro s
  have found {r : Arrival} (h : nextArrival s.port = r) (old : List Response) :
      nextArrival { s with responses := old }.port = r := h
  cases h : nextArrival s.port with
  | waiting =>
    exact (next_ignoresResponses s).of_eq fun old => by rw [step, found h old]
  | reset rest =>
    exact (hardwareReset_ignoresResponses rest s).of_eq fun old => by rw [step, found h old]
  | bytes bs rest =>
    exact (runArrived_ignoresResponses bs rest s).of_eq fun old => by rw [step, found h old]

/-! ### The trace mode (R130) -/

theorem diag_of_ctrl_zero {s : State} (h : s.ctrl = 0x00) : diag s = false := by simp [diag, h]

theorem diag_of_ctrl_one {s : State} (h : s.ctrl = 0x01) : diag s = true := by simp [diag, h]

/-- `r₁` with DIAG = 0 and `r₂` with DIAG = 1 differ in CTRL alone, or are a tag mismatch (R130). -/
def Traced (r₁ r₂ : Result) : Prop :=
  ∃ t u : State, r₁ = .next t ∧ r₂ = .next u ∧ (t.err ≠ .invalidTag → u = { t with ctrl := 0x01 }) ∧
    (t.err = .invalidTag → t.tagmm = false ∧ u.err = .ok ∧ u.tagmm = true)

theorem Traced.complete (s : State) {e : ErrCode} (he : e ≠ .invalidTag) (out : Bytes) :
    Traced (.next (s.complete e out)) (.next (({ s with ctrl := 0x01 }).complete e out)) :=
  ⟨_, _, rfl, rfl, fun _ => rfl, fun h => absurd h he⟩

theorem Traced.emit (s : State) (out : Bytes) :
    Traced (emit out s) (emit out { s with ctrl := 0x01 }) :=
  .complete s (e := .ok) nofun out

/-- A tag is verified with the same verdict, or a mismatch fails with DIAG = 0 and passes with DIAG = 1
(R89, R130). -/
theorem Traced.endVerified {s : State} (hd : diag s = false) (tag : Tag) (expected : Option Tag)
    (out : Bytes) (accepted : State) :
    Traced (endVerified tag expected out accepted s)
      (endVerified tag expected out { accepted with ctrl := 0x01 } { s with ctrl := 0x01 }) := by
  by_cases h : expected = some tag
  · rw [endVerified_of_eq h, endVerified_of_eq h]
    exact .emit { accepted with tagmm := false } out
  · rw [endVerified_of_ne h hd, endVerified_of_ne_trace h (diag_of_ctrl_one rfl)]
    exact ⟨_, _, rfl, rfl, fun hne => absurd rfl hne, fun _ => ⟨rfl, rfl, rfl⟩⟩

theorem exec_gcmfinal_traced (a : Byte) (p : Bytes) (s : State) :
    Traced (exec (.gcmfinal a p) { s with ctrl := 0x00 })
      (exec (.gcmfinal a p) { s with ctrl := 0x01 }) := by
  obtain ⟨e, he, h₁, h₂⟩ | ⟨out, h₁, h₂⟩ | ⟨tag, expected, out, h₁, h₂⟩ :=
    exec_gcmfinal_pair a p (s := { s with ctrl := 0x00 }) (u := { s with ctrl := 0x01 }) rfl <;>
    rw [h₁, h₂]
  · exact .complete { s with ctrl := 0x00 } he []
  · exact .emit (endStream { s with ctrl := 0x00 }) out
  · exact .endVerified (s := endStream { s with ctrl := 0x00 }) (diag_of_ctrl_zero rfl) tag expected out _

theorem exec_decipher_traced (a : Byte) (p : Bytes) (s : State) :
    Traced (exec (.decipher a p) { s with ctrl := 0x00 })
      (exec (.decipher a p) { s with ctrl := 0x01 }) := by
  obtain ⟨e, he, h₁, h₂⟩ | ⟨v, expected, dt, h₁, h₂⟩ :=
    exec_decipher_pair a p (s := { s with ctrl := 0x00 }) (u := { s with ctrl := 0x01 }) rfl rfl rfl <;>
    rw [h₁, h₂]
  · exact .complete { s with ctrl := 0x00 } he []
  · cases hdt : dt.2 with
    | none =>
      rw [endDecipher_of_none hdt, endDecipher_of_none hdt]
      exact .emit { s with ctrl := 0x00, rxsp := v.sp, rxfc := v.fc } dt.1
    | some tag =>
      rw [endDecipher_of_some hdt, endDecipher_of_some hdt]
      exact .endVerified (s := { s with ctrl := 0x00 }) (diag_of_ctrl_zero rfl) tag expected dt.1 _

theorem exec_traced_of_not_usesCtrl {i : Instr} (hi : usesCtrl i = false) (s : State) :
    Traced (exec i { s with ctrl := 0x00 }) (exec i { s with ctrl := 0x01 }) := by
  obtain ⟨t, _, e, out, ⟨rfl, ht⟩, h₁, h₂⟩ :=
    exec_beside (fun _ => 0x01) s.responses { s with ctrl := 0x00 } (.inr hi)
  have he : e ≠ .invalidTag := by
    rintro rfl
    obtain ⟨-, -, -, -, -, htag⟩ := failedCommandsChangeOnlyErr i _ _ h₁ nofun
    obtain ⟨a, p, rfl⟩ | ⟨a, p, rfl⟩ := htag rfl <;> cases hi
  have hu : { t with ctrl := 0x01, responses := s.responses } = { t with ctrl := 0x01 } := by
    rw [← ht]
  rw [hu] at h₂
  rw [h₁, h₂]
  exact .complete t he out

/-- Settles O21: DIAG is read where a verdict is made, by GCMFINAL and DECIPHER, and nowhere else. -/
theorem traceModeChangesOnlyTagMismatches : Obligations.TraceModeChangesOnlyTagMismatches := by
  intro i s hldctrl hrdreg
  cases hi : usesCtrl i with
  | false => exact exec_traced_of_not_usesCtrl hi s
  | true =>
    cases i with
    | ldctrl a p => exact absurd rfl (hldctrl a p)
    | rdreg a p => exact absurd rfl (hrdreg a p)
    | gcmfinal a p => exact exec_gcmfinal_traced a p s
    | decipher a p => exact exec_decipher_traced a p s
    | _ => cases hi

/-! ### The mismatch flag (R131) -/

/-- The effects that write TAGMM (R131). -/
theorem Effect.writes_tagmm {i : Instr} {s s' : State} {e : ErrCode} (h : Effect i s e s')
    (hne : s'.tagmm ≠ s.tagmm) :
    (∃ a p, i = .nop a p ∧ s'.tagmm = false) ∨
      (∃ a p x, i = .gcmfinal a p ∧ s.stream = some x ∧ x.dir = .decrypt ∧ x.pol ≠ .encryption) ∨
      ∃ a p v, i = .decipher a p ∧ parseEnvelope p = .ok v ∧ (v.sp = 0x10 ∨ v.sp = 0x30) := by
  cases i with
  | nop a p =>
    obtain ⟨-, rfl⟩ := h
    exact .inl ⟨a, p, rfl, rfl⟩
  | gcmfinal a p =>
    obtain ⟨x, hx, ⟨-, -, rfl⟩ | ⟨hauth, hdir, -⟩⟩ := h
    · exact absurd rfl hne
    · exact .inr (.inl ⟨a, p, x, rfl, hx, hdir, authenticates_iff.1 hauth⟩)
  | decipher a p =>
    obtain ⟨v, pol, hv, hsp, ⟨-, -, rfl⟩ | ⟨hauth, -⟩⟩ := h
    · exact absurd rfl hne
    · refine .inr (.inr ⟨a, p, v, rfl, hv, ?_⟩)
      cases pol with
      | authentication => exact .inl hsp
      | encryption => cases hauth
      | authenticatedEncryption => exact .inr hsp
  | ldbk | ldak | ldst | ldsp | reset | rdreg | aesenc | ghash | cipherPacket | cipherTag
  | cipherData | cipherDatatag | gcmabort =>
    obtain ⟨-, rfl⟩ := h
    exact absurd rfl hne
  | ldfc | ldctrl =>
    obtain ⟨-, -, rfl⟩ := h
    exact absurd rfl hne
  | gcminitE | gcminitD =>
    obtain ⟨-, -, _, _, -, -, -, rfl⟩ := h
    exact absurd rfl hne
  | gcmwrite =>
    obtain ⟨_, -, ⟨-, rfl⟩ | ⟨-, -, -, rfl⟩⟩ := h <;> exact absurd rfl hne
  | secenc =>
    obtain ⟨-, ⟨-, rfl⟩ | ⟨-, -, rfl⟩⟩ := h <;> exact absurd rfl hne

/-- Settles O20: the effects of NOP and of the two commands that verify a tag alone write TAGMM. -/
theorem tagMismatchFlagLifetime : Obligations.TagMismatchFlagLifetime := by
  refine ⟨fun i s t h hne => ?_, rfl⟩
  obtain ⟨s', he, hs'⟩ := effect_of_exec_change State.tagmm complete_tagmm h hne
  have hwrites := he.writes_tagmm (hs' ▸ hne)
  rwa [hs'] at hwrites

end Sys2Proof.Machine
end

section
/-! PROOFS. The statements about STATUS and register reads (10_state R23; 20_memory R42), about written
words and well-formed commands (30_encoding R53), and about runs that send (43_dlms_formatter R100). -/

namespace Sys2Proof.Machine

/-! ### STATUS (R23) -/

/-- Bits 3:0 of STATUS are the code of ERR (R23). -/
theorem extractLsb'_statusWord_err (s : State) : (statusWord s).extractLsb' 0 4 = errCode s.err :=
  BitVec.extractLsb'_append_eq_right

/-- Bits 7:6 of STATUS are PHASE (R23). -/
theorem extractLsb'_statusWord_phase (s : State) : (statusWord s).extractLsb' 6 2 = phase s := by
  apply BitVec.eq_of_getLsbD_eq
  intro i hi
  simp only [statusWord, BitVec.getLsbD_extractLsb', BitVec.getLsbD_append]
  interval_cases i <;> simp

/-- Bits 15:12 of STATUS read as 0 (R23). -/
theorem extractLsb'_statusWord_reserved (s : State) : (statusWord s).extractLsb' 12 4 = 0 := by
  apply BitVec.eq_of_getLsbD_eq
  intro i hi
  simp only [statusWord, BitVec.getLsbD_extractLsb', BitVec.getLsbD_append]
  interval_cases i <;> simp

/-- The single bits of STATUS beside CIPHERED (R23). -/
theorem getLsbD_statusWord (s : State) :
    (statusWord s).getLsbD 4 = s.tagmm ∧ (statusWord s).getLsbD 8 = kvBk s ∧
      (statusWord s).getLsbD 9 = kvAk s ∧ (statusWord s).getLsbD 10 = kvSt s ∧
      (statusWord s).getLsbD 11 = sdir s := by
  simp only [statusWord, BitVec.getLsbD_append]
  simp

theorem phase_eq_ite (s : State) : phase s = if s.stream = none then 0 else 1 := by
  cases h : s.stream <;> simp [phase, h]

theorem sdir_iff {s : State} : sdir s = true ↔ ∃ x, s.stream = some x ∧ x.dir = .decrypt := by
  cases h : s.stream <;> simp [sdir, h]

/-- Settles O25: the fields are the parts that `statusWord` puts side by side. -/
theorem statusWordFields : Obligations.StatusWordFields := by
  refine ⟨by decide, fun s => ?_⟩
  obtain ⟨htagmm, hbk, hak, hst, hsdir⟩ := getLsbD_statusWord s
  refine ⟨extractLsb'_statusWord_err s, htagmm, ?_, ?_, hbk, hak, hst, ?_,
    extractLsb'_statusWord_reserved s⟩
  · rw [getLsbD_statusWord_five, ciphered_iff]
  · rw [extractLsb'_statusWord_phase, phase_eq_ite]
  · rw [hsdir, sdir_iff]

/-! ### Reading twice (R42) -/

/-- The outcome of a command shows in register 2 alone (R23, R27). -/
theorem registerBytes_complete (s : State) (e : ErrCode) (out : Bytes) {n : Nat} (hn : n ≠ 2) :
    registerBytes (s.complete e out) n = registerBytes s n := by
  match n with
  | 0 | 1 | 3 | 4 | 5 | 6 => rfl
  | 2 => exact absurd rfl hn
  | _ + 7 => rfl

/-- An outcome changes bits 3:0 of STATUS alone (R23). -/
theorem extractLsb'_statusWord_complete (s : State) (e : ErrCode) (out : Bytes) :
    (statusWord (s.complete e out)).extractLsb' 4 12 = (statusWord s).extractLsb' 4 12 := by
  rw [statusWord, statusWord, BitVec.extractLsb'_append_eq_left, BitVec.extractLsb'_append_eq_left]
  rfl

/-- RDREG answers the same wherever the register is the same (R112). -/
theorem exists_exec_rdreg (n : Byte) (b : Option Bytes) : ∃ r : Response, ∀ s : State,
    registerBytes s n.toNat = b → exec (.rdreg n []) s = .next (s.complete r.err r.out) := by
  by_cases hn : n.toNat ≤ 6
  · cases b with
    | some b => exact ⟨⟨.ok, b⟩, fun _ hb => exec_rdreg_of_some hn hb⟩
    | none => exact ⟨⟨.keyNotLoaded, []⟩, fun _ hb => exec_rdreg_of_none hn hb⟩
  · exact ⟨⟨.illegalCommand, []⟩,
      fun s _ => exec_of_argAccepted_false (i := .rdreg n []) (decide_eq_false hn) s⟩

/-- Settles O33: the first read changes ERR, which register 2 alone shows. -/
theorem readsAreIdempotent : Obligations.ReadsAreIdempotent := by
  intro n s
  by_cases hn : n = 0x02
  · subst hn
    refine ⟨_, _, ⟨.ok, _⟩, exec_rdreg_of_some (by decide) rfl, rfl, exec_rdreg_of_some (by decide) rfl,
      fun h => absurd rfl h, fun _ => ⟨_, rfl, extractLsb'_statusWord_err _, ?_⟩⟩
    exact extractLsb'_statusWord_complete s _ _
  · have hnat : n.toNat ≠ 2 := fun h => hn (BitVec.eq_of_toNat_eq h)
    obtain ⟨r, hr⟩ := exists_exec_rdreg n (registerBytes s n.toNat)
    exact ⟨_, _, r, hr s rfl, rfl, hr _ (registerBytes_complete s r.err r.out hnat), fun _ => rfl,
      fun h => absurd h hn⟩

/-! ### Words written out (R53) -/

/-- Settles O3: each word is the encoding of its command, with what stands behind it. -/
theorem specWordsDecode : Obligations.SpecWordsDecode :=
  ⟨decode_encode_append (i := .nop 0x00 []) rfl [],
    decode_encode_append (i := .ldbk 0x00 [0x00, 0x01]) rfl [],
    decode_encode_append (i := .ldak 0x00 [0xD0]) rfl [],
    decode_encode_append (i := .ldst 0x00 [0x41, 0x42]) rfl [],
    decode_encode_append (i := .ldfc 0x00 [0x01, 0x23, 0x45, 0x67]) rfl [],
    decode_encode_append (i := .ldsp 0x30 []) rfl [],
    decode_encode_append (i := .ldctrl 0x01 []) rfl [],
    decode_encode_append (i := .rdreg 0x01 []) rfl [],
    decode_encode_append (i := .reset 0x00 []) rfl [],
    decode_encode_append (i := .aesenc 0x00 [0xFF]) rfl [],
    decode_encode_append (i := .ghash 0x00 [0xAB, 0xCD]) rfl [0xEF],
    decode_encode_append (i := .gcminitE 0x30 [0x0A]) rfl [],
    decode_encode_append (i := .gcminitD 0x20 [0x0B]) rfl [],
    decode_encode_append (i := .gcmwrite 0x00 [0x0C]) rfl [],
    decode_encode_append (i := .gcmfinal 0x00 []) rfl [],
    decode_encode_append (i := .gcmabort 0x00 []) rfl [],
    decode_encode_append (i := .cipherPacket 0xC8 [0x48, 0x65, 0x6C, 0x6C, 0x6F]) rfl [],
    decode_encode_append (i := .cipherTag 0x00 [0x48]) rfl [],
    decode_encode_append (i := .cipherData 0x00 [0x48]) rfl [],
    decode_encode_append (i := .cipherDatatag 0x00 [0x48]) rfl [],
    decode_encode_append (i := .secenc 0x60 []) rfl [],
    decode_encode_append (i := .decipher 0x00 [0xC7]) rfl []⟩

/-! ### Well-formed commands (R53) -/

/-- The answer completes, with none of the three errors of a command's form (R122). -/
def NoFormError (r : Result) : Prop :=
  ∃ t : State, r = .next t ∧ t.err ≠ .illegalCommand ∧ t.err ≠ .invalidKeyLength ∧
    t.err ≠ .badOperandLength

theorem NoFormError.emit (out : Bytes) (s : State) : NoFormError (emit out s) :=
  ⟨_, rfl, nofun, nofun, nofun⟩

theorem NoFormError.raise {e : ErrCode} (s : State) (h₁ : e ≠ .illegalCommand)
    (h₂ : e ≠ .invalidKeyLength) (h₃ : e ≠ .badOperandLength) : NoFormError (raise e s) :=
  ⟨_, rfl, h₁, h₂, h₃⟩

theorem NoFormError.keyNotLoaded (s : State) : NoFormError (Machine.raise .keyNotLoaded s) :=
  .raise s nofun nofun nofun

/-- A check of the form that the command passes. -/
theorem NoFormError.pass {c : Prop} [Decidable c] {r r' : Result} (hc : ¬ c) (h : NoFormError r') :
    NoFormError (if c then r else r') := by
  rwa [if_neg hc]

/-- A check of anything else. -/
theorem NoFormError.ite {c : Prop} [Decidable c] {r r' : Result} (h : NoFormError r)
    (h' : NoFormError r') : NoFormError (if c then r else r') := by
  split
  · exact h
  · exact h'

theorem NoFormError.withKey {s : State} {f : CipherKey → Result} (hf : ∀ k, NoFormError (f k)) :
    NoFormError (withKey s f) := by
  rcases withKey_cases s f with ⟨-, h⟩ | ⟨k, -, h⟩ <;> rw [h]
  · exact .keyNotLoaded s
  · exact hf k

theorem NoFormError.withCipherCore {s : State} {p : Bytes} {f : Bytes → Option Tag → Result}
    (hf : ∀ d t, NoFormError (f d t)) : NoFormError (withCipherCore s p f) := by
  rcases withCipherCore_cases s p f with ⟨-, h⟩ | ⟨_, -, -, h⟩ | ⟨_, _, _, _, -, -, -, -, h⟩ <;> rw [h]
  · exact .raise s nofun nofun nofun
  · exact .keyNotLoaded s
  · exact hf _ _

theorem NoFormError.endVerified (tag : Tag) (expected : Option Tag) (out : Bytes)
    (accepted rejected : State) : NoFormError (endVerified tag expected out accepted rejected) := by
  cases hv : tagVerdict tag expected (diag rejected) with
  | some mm =>
    rw [endVerified_of_verdict_some hv]
    exact .emit _ _
  | none =>
    rw [endVerified_of_verdict_none hv]
    exact .raise _ nofun nofun nofun

/-- GCMINIT of a policy and of a payload with room for its fields (R81, R82). -/
theorem NoFormError.initStream {dir : Direction} {pol : Policy} {p : Bytes}
    (hp : 12 + initTagLength dir pol ≤ p.length) (s : State) :
    NoFormError (initStream dir (policyByte pol) p s) := by
  cases hs : s.stream with
  | some x =>
    rw [initStream_of_active hs]
    exact .raise s nofun nofun nofun
  | none =>
    rw [initStream_policyByte hs]
    exact .pass hp.not_gt (.withKey fun k => .emit _ _)

theorem NoFormError.gcmwrite (p : Bytes) (s : State) : NoFormError (exec (.gcmwrite 0x00 p) s) := by
  cases hs : s.stream with
  | none =>
    rw [(streamIsIndependentOfOtherCommands.2.1 p s hs).1]
    exact .raise s nofun nofun nofun
  | some x =>
    by_cases h : OverLimit x p
    · rw [exec_gcmwrite_of_overLimit hs h]
      exact .raise _ nofun nofun nofun
    · rw [exec_gcmwrite_of_not_overLimit hs h]
      exact .emit _ _

theorem NoFormError.gcmfinal (s : State) : NoFormError (exec (.gcmfinal 0x00 []) s) := by
  cases hs : s.stream with
  | none =>
    rw [(streamIsIndependentOfOtherCommands.2.1 [] s hs).2]
    exact .raise s nofun nofun nofun
  | some x =>
    by_cases hpol : x.pol = .encryption
    · rw [exec_gcmfinal_of_encryption hs hpol]
      exact .emit _ _
    · cases hd : x.dir with
      | encrypt =>
        rw [exec_gcmfinal_of_encrypt hs hpol hd]
        exact .emit _ _
      | decrypt =>
        rw [exec_gcmfinal_of_dir_decrypt hs hpol hd]
        exact .endVerified _ _ _ _ _

theorem NoFormError.decipher (p : Bytes) (s : State) : NoFormError (exec (.decipher 0x00 p) s) := by
  obtain ⟨e, he, h, -⟩ | ⟨v, expected, dt, h, -⟩ := exec_decipher_zero_pair p (s := s) rfl rfl rfl <;>
    rw [h]
  · refine .raise s ?_ ?_ ?_ <;> rintro rfl <;> exact absurd he (by decide)
  · cases hdt : dt.2 with
    | none =>
      rw [endDecipher_of_none hdt]
      exact .emit _ _
    | some tag =>
      rw [endDecipher_of_some hdt]
      exact .endVerified _ _ _ _ _

/-- Settles O5: the checks of ARG and LEN pass, and no other check raises an error of the form. -/
theorem wellFormedCommandsHaveNoFormatError : Obligations.WellFormedCommandsHaveNoFormatError := by
  intro i s hi
  simp only [Instr.wellFormed, Bool.and_eq_true] at hi
  obtain ⟨⟨⟨-, harg⟩, hpol⟩, hlen⟩ := hi
  change NoFormError (exec i s)
  have zero {a : Byte} (h : (a == 0x00) = true) : ¬ a ≠ 0x00 := not_not.2 (beq_iff_eq.1 h)
  have length {n m : Nat} (h : (n == m) = true) : ¬ n ≠ m := not_not.2 (beq_iff_eq.1 h)
  have policy {a : Byte} (h : (a == 0x10 || a == 0x20 || a == 0x30) = true) :
      ∃ pol, a = policyByte pol := mem_policyBytes_iff.1 (by simpa [or_assoc] using h)
  cases i with
  | nop a p | ldbk a p | ldak a p | ldst a p | ldfc a p | ldctrl a p | reset a p | gcmabort a p =>
    exact .pass (zero harg) (.pass (length hlen) (.emit _ _))
  | ldsp a p => exact .pass (length hlen) (.emit _ _)
  | rdreg a p =>
    refine .pass (Nat.not_lt.2 (of_decide_eq_true harg)) (.pass (length hlen) ?_)
    cases registerBytes s a.toNat with
    | some b => exact .emit b s
    | none => exact .keyNotLoaded s
  | aesenc a p => exact .pass (zero harg) (.pass (length hlen) (.withKey fun _ => .emit _ _))
  | ghash a p => exact .pass (zero harg) (.withKey fun _ => .emit _ _)
  | gcminitE a p =>
    obtain ⟨pol, rfl⟩ := policy hpol
    exact .initStream (dir := .encrypt) (of_decide_eq_true hlen) s
  | gcminitD a p =>
    obtain ⟨pol, rfl⟩ := policy hpol
    exact .initStream ((twelve_add_initTagLength_decrypt pol).trans_le (of_decide_eq_true hlen)) s
  | gcmwrite a p =>
    obtain rfl := beq_iff_eq.1 harg
    exact .gcmwrite p s
  | gcmfinal a p =>
    obtain rfl := beq_iff_eq.1 harg
    obtain rfl := List.length_eq_zero_iff.1 (beq_iff_eq.1 hlen)
    exact .gcmfinal s
  | cipherPacket a p => exact .withCipherCore fun _ _ => .emit _ _
  | cipherTag a p | cipherData a p | cipherDatatag a p =>
    exact .pass (zero harg) (.withCipherCore fun _ _ => .emit _ _)
  | secenc a p =>
    exact .ite (.emit _ _) (.withCipherCore fun _ _ => .ite (.raise s nofun nofun nofun) (.emit _ _))
  | decipher a p =>
    obtain rfl := beq_iff_eq.1 harg
    exact .decipher p s

/-! ### The frame counter over a run (R100) -/

/-- The first command of a run, and the others from what it left (R45, R100). -/
theorem cipheredSends_cons {i : Instr} {s t : State} (h : exec i s = .next t) (is : List Instr) :
    cipheredSends (i :: is) s = cipheredSends [i] s + cipheredSends is t := by
  simp only [cipheredSends, h, Nat.add_zero]

/-- A run of one command that is a successful ciphered SECENC sends once (R100). -/
theorem cipheredSends_singleton_eq_one {ct : Byte} {p : Bytes} {s t : State}
    (h : exec (.secenc ct p) s = .next t) (hc : ciphersWith s ct) (hok : t.err = .ok) :
    cipheredSends [.secenc ct p] s = 1 := by
  have hs : s.sp ≠ 0x00 ∧ ct ∉ associationTags ∧ t.err = .ok := ⟨hc.1, hc.2, hok⟩
  simp only [cipheredSends, h, if_pos hs, Nat.add_zero]

/-- A run of one other command sends nothing (R100). -/
theorem cipheredSends_singleton_eq_zero {i : Instr} {s t : State} (h : exec i s = .next t)
    (hi : ¬ ∃ ct p, i = .secenc ct p ∧ ciphersWith s ct ∧ t.err = .ok) : cipheredSends [i] s = 0 := by
  cases i with
  | secenc ct p =>
    have hn : ¬ (s.sp ≠ 0x00 ∧ ct ∉ associationTags ∧ t.err = .ok) :=
      fun ⟨hsp, hct, hok⟩ => hi ⟨ct, p, rfl, ⟨hsp, hct⟩, hok⟩
    simp only [cipheredSends, h, if_neg hn, Nat.add_zero]
  | _ => simp only [cipheredSends, h, Nat.add_zero]

/-- A command other than LDFC and RESET sends nothing and leaves FC, or sends once and counts it, not past
0xFFFFFFFF with FC_OVERFLOW = Fault (R97, R100). -/
theorem fc_of_exec {i : Instr} {s t : State} (h : exec i s = .next t)
    (hi : ∀ a p, i ≠ .ldfc a p ∧ i ≠ .reset a p) :
    (cipheredSends [i] s = 0 ∧ t.fc = s.fc) ∨
      (cipheredSends [i] s = 1 ∧ t.fc = s.fc + 1 ∧
        ¬ (s.fc = 0xFFFFFFFF ∧ Config.fcOverflow = .fault)) := by
  by_cases hsent : ∃ ct p, i = .secenc ct p ∧ ciphersWith s ct ∧ t.err = .ok
  · obtain ⟨ct, p, rfl, hc, hok⟩ := hsent
    obtain ⟨s', out, rfl, -, ⟨hn, -⟩ | ⟨-, hroom, rfl⟩⟩ := effect_of_exec_ok h hok
    · exact absurd hc hn
    · exact .inr ⟨cipheredSends_singleton_eq_one h hc hok, rfl, hroom⟩
  · refine .inl ⟨cipheredSends_singleton_eq_zero h hsent, not_ne_iff.1 fun hfc => ?_⟩
    obtain ⟨-, -, -, hwriters⟩ := frameCounterHasThreeWriters.1 i s t h
    obtain ⟨hok, ⟨a, p, hw⟩ | ⟨a, p, hw⟩ | ⟨a, p, hw, hc⟩⟩ := hwriters hfc
    · exact (hi a p).1 hw
    · exact (hi a p).2 hw
    · exact hsent ⟨a, p, hw, hc, hok⟩

/-- Settles O16: by induction over the run, one command at a time. -/
theorem frameCounterCountsSuccessfulSends : Obligations.FrameCounterCountsSuccessfulSends := by
  intro is
  induction is with
  | nil =>
    intro s _
    exact ⟨s, rfl, (Nat.mod_eq_of_lt s.fc.isLt).symm, fun _ => rfl⟩
  | cons i is ih =>
    intro s his
    obtain ⟨hi, his⟩ := List.forall_mem_cons.1 his
    obtain ⟨t, -, hn, -⟩ := oneResponsePerCommand i s
    obtain ⟨u, hu, hmod, hfault⟩ := ih t his
    refine ⟨u, (execAll_cons_of_next hn is).trans hu, ?_⟩
    rw [cipheredSends_cons hn]
    have hlt := s.fc.isLt
    rcases fc_of_exec hn hi with ⟨hsent, hfc⟩ | ⟨hsent, hfc, hroom⟩
    · rw [hsent, Nat.zero_add, ← hfc]
      exact ⟨hmod, hfault⟩
    · have hnext : t.fc.toNat = (s.fc.toNat + 1) % 2 ^ 32 := by
        rw [hfc, BitVec.toNat_add]
        rfl
      refine ⟨by rw [hmod, hsent]; omega, fun hf => ?_⟩
      have hne : s.fc.toNat ≠ 0xFFFFFFFF := fun heq => hroom ⟨BitVec.eq_of_toNat_eq heq, hf⟩
      rw [hfault hf, hsent]
      omega

end Sys2Proof.Machine
end
